-- ==== Sys2Proof/Config.lean ====
section
/-! DEFINITION. What the implementation fixes (00_scope.md R8): capacities, constant CSR values, the named reset
value of the data registers, and the two parameters the spec leaves OPEN. -/

namespace Sys2Proof.Config

/-- `DW`, the width of a data register and of the datapath, and the largest container and WidthInteger width (00_scope.md
R8). -/
abbrev dw : Nat := 128

/-- `NREG`, the number of data registers (00_scope.md R8). -/
abbrev nreg : Nat := 16

/-- `NF`, the number of field-descriptor slots (00_scope.md R8). -/
abbrev nf : Nat := 64

/-- `NE`, the number of enum-codec slots (00_scope.md R8). -/
abbrev ne : Nat := 16

/-- `NV`, the largest number of variants of one enum codec (00_scope.md R8). -/
abbrev nv : Nat := 256

/-- ID, CSR 0 (10_state.md R26). -/
def idValue : BitVec 32 := 0x42464345#32

/-- VERSION, CSR 1 (10_state.md R27). -/
def versionValue : BitVec 32 := 0x00010000#32

/-- CAP, CSR 2: `DW - 1`, `NF - 1`, `NE - 1`, `NV - 1` from the low byte up (10_state.md R28). -/
def capValue : BitVec 32 := 0xFF0F3F7F#32

/-- What every data register holds after reset. DESIGN CHOICE (unsafe), log 1: the spec says "unspecified"
(10_state.md R22). -/
def resetData : BitVec dw := 0

/-- `BFCE_BASE`, the platform's base address of the host window: OPEN, so no body (00_scope.md R8, 20_memory.md R58;
log 9). -/
opaque bfceBase : Nat

/-- `CMD_LATENCY(op)`, the cycles a command takes: OPEN, so no body (00_scope.md R8, 70_reset_and_hazards.md R218;
log 9). No value of the model depends on it. -/
opaque cmdLatency : BitVec 6 → Nat

end Sys2Proof.Config
end

