-- ==== Sys2Proof/Word.lean ====
section
/-! DEFINITION. The value types of the machine: a data register, a host word, and the numbers of a register, a field and
an enum. -/

namespace Sys2Proof

/-- A data value, `DW` bits (00_scope.md R8, 10_state.md R20). -/
abbrev Data := BitVec Config.dw

/-- A 32-bit host word or command word (20_memory.md R51, 30_encoding.md R65). -/
abbrev Word := BitVec 32

/-- The number of a data register, `D0` to `D15` (10_state.md R20). -/
abbrev Reg := Fin Config.nreg

/-- A field id, 0 to `NF - 1` (10_state.md R34). -/
abbrev FieldId := Fin Config.nf

/-- An enum id, 0 to `NE - 1` (10_state.md R39). -/
abbrev EnumId := Fin Config.ne

end Sys2Proof
end

