-- ==== Sys2Proof/Syntax.lean ====
section
/-! DEFINITION. The commands of `BFCE-1.0`: one constructor per row of spec/opcode_table.json. Operands stand as the
rules R66 to R72 of 30_encoding.md decode them: a width is the width itself, a range is its two bit positions. -/

namespace Sys2Proof

/-- The six control and status registers, by CSR number 0 to 5 (10_state.md R25). -/
inductive Csr where
  | id | version | cap | status | sticky | errval
  deriving DecidableEq, Repr

/-- The signedness operand `S` of WNORM and WCMP (30_encoding.md R71): 0 is unsigned, 1 is signed. -/
inductive Sign where
  | unsigned | signed
  deriving DecidableEq, Repr

/-- A decoded command. -/
inductive Instr where
  /-- 46_move_system.md R180 -/
  | mov (rd rs1 : Reg)
  /-- 46_move_system.md R181 -/
  | li (rd : Reg) (pos : Fin 8) (imm : BitVec 16)
  /-- 46_move_system.md R182 -/
  | lic (rd : Reg) (pos : Fin 8) (imm : BitVec 16)
  /-- 40_bitrange.md R90 -/
  | mask (rd : Reg) (w : Nat)
  /-- 40_bitrange.md R91 -/
  | rmask (rd : Reg) (lo hi : Fin 128)
  /-- 40_bitrange.md R92 -/
  | extr (rd rs1 : Reg) (lo hi : Fin 128)
  /-- 40_bitrange.md R93 -/
  | ins (rd rs1 rs2 : Reg) (lo hi : Fin 128)
  /-- 40_bitrange.md R94 -/
  | sext (rd rs1 : Reg) (w : Nat)
  /-- 41_widthint.md R101 -/
  | wnorm (rd rs1 : Reg) (w : Nat) (sg : Sign)
  /-- 41_widthint.md R102 -/
  | wcmp (rd rs1 rs2 : Reg) (w : Nat) (sg : Sign)
  /-- 44_container.md R140 -/
  | cnew (rd : Reg)
  /-- 44_container.md R141 -/
  | cload (rd rs1 : Reg)
  /-- 42_field_access.md R114 -/
  | fget (rd rs1 : Reg) (fid : FieldId) (idx : Fin 128)
  /-- 42_field_access.md R115 -/
  | fset (rd rs1 rs2 : Reg) (fid : FieldId) (idx : Fin 128)
  /-- 43_enum_codec.md R134 -/
  | edec (rd rs1 : Reg) (eid : EnumId)
  /-- 43_enum_codec.md R135 -/
  | eenc (rd rs1 : Reg) (eid : EnumId)
  /-- 45_schema.md R150 -/
  | sbegin
  /-- 45_schema.md R152 -/
  | scont (rs1 : Reg) (cw : Nat)
  /-- 45_schema.md R153 -/
  | sfield (fid : FieldId) (rs1 : Reg)
  /-- 45_schema.md R154 -/
  | senum (eid : EnumId) (w : Nat) (exh : Bool)
  /-- 45_schema.md R155 -/
  | svar (eid : EnumId) (rs1 : Reg)
  /-- 45_schema.md R161 -/
  | scommit
  /-- 46_move_system.md R183 -/
  | rdcsr (rd : Reg) (csr : Csr)
  /-- 46_move_system.md R184 -/
  | clrs
  deriving DecidableEq, Repr

end Sys2Proof
end

