-- ==== Sys2Proof/WellFormed.lean ====
section
/-! DEFINITION. Which terms of `Instr` are commands: the two conditions that the field types do not already say. -/

namespace Sys2Proof

/-- A width operand is 1 to 128; width 0 cannot be encoded (30_encoding.md R69). -/
def widthOk (w : Nat) : Bool := 1 ≤ w && w ≤ Config.dw

/-- A range operand has `low ≤ high` (30_encoding.md R70, R79). -/
def rangeOk (lo hi : Fin 128) : Bool := lo ≤ hi

/-- The command can be encoded: every width is in range and every bit range is ordered. -/
def Instr.wf : Instr → Bool
  | .mask _ w | .sext _ _ w | .wnorm _ _ w _ | .wcmp _ _ _ w _ | .scont _ w | .senum _ w _ => widthOk w
  | .rmask _ lo hi | .extr _ _ lo hi | .ins _ _ _ lo hi => rangeOk lo hi
  | .mov _ _ | .li _ _ _ | .lic _ _ _ | .cnew _ | .cload _ _ | .fget _ _ _ _ | .fset _ _ _ _ _ | .edec _ _ _
  | .eenc _ _ _ | .sbegin | .sfield _ _ | .svar _ _ | .scommit | .rdcsr _ _ | .clrs => true

end Sys2Proof
end

