-- ==== Sys2Proof/Decode.lean ====
section
/-! DEFINITION. Decoding a command word (30_encoding.md R65 to R80), total on every 32-bit word, and the encoder. -/

namespace Sys2Proof

/-- Why a word is ILLEGAL (30_encoding.md R75, R68, R79). The hardware reports all of them alike. -/
inductive Illegal where
  /-- no row has the opcode (R75) -/
  | reservedOpcode
  /-- a bit that must be zero is set (R68, R74) -/
  | mustBeZero
  /-- RMASK, EXTR or INS with `low > high` (R79) -/
  | lowAboveHigh
  /-- RDCSR of a CSR number above 5 (R79) -/
  | reservedCsr
  deriving DecidableEq, Repr

/-! ## Fields of a word (R66, R67) -/

/-- OP, bits [31:26]. -/
def opOf (w : Word) : BitVec 6 := w.extractLsb' 26 6

/-- RD, bits [25:22]. -/
def rdOf (w : Word) : Reg := (w.extractLsb' 22 4).toFin

/-- RS1, bits [21:18]. -/
def rs1Of (w : Word) : Reg := (w.extractLsb' 18 4).toFin

/-- RS2, bits [17:14]. -/
def rs2Of (w : Word) : Reg := (w.extractLsb' 14 4).toFin

/-- A, bits [13:7], as a bit position. -/
def aOf (w : Word) : Fin 128 := (w.extractLsb' 7 7).toFin

/-- B, bits [6:0], as a bit position or an index. -/
def bOf (w : Word) : Fin 128 := (w.extractLsb' 0 7).toFin

/-- A width operand, `uint(A) + 1` (R69). -/
def widthOf (w : Word) : Nat := (aOf w).val + 1

/-- A field id, `uint(A[5:0])` (R71). -/
def fidOf (w : Word) : FieldId := (w.extractLsb' 7 6).toFin

/-- An enum id, `uint(B[3:0])` (R71). -/
def eidOf (w : Word) : EnumId := (w.extractLsb' 0 4).toFin

/-- The signedness operand, `B[0]` (R71). -/
def signOf (w : Word) : Sign := if w.getLsbD 0 then .signed else .unsigned

/-- The EXH flag of SENUM, `B[4]` (R71). -/
def exhOf (w : Word) : Bool := w.getLsbD 4

/-- POS, bits [18:16] of format I (R67). -/
def posOf (w : Word) : Fin 8 := (w.extractLsb' 16 3).toFin

/-- IMM16, bits [15:0] of format I (R67). -/
def immOf (w : Word) : BitVec 16 := w.extractLsb' 0 16

/-- The CSR with a given number, 0 to 5 (10_state.md R25). -/
def csrOfNat : Nat → Option Csr
  | 0 => some .id
  | 1 => some .version
  | 2 => some .cap
  | 3 => some .status
  | 4 => some .sticky
  | 5 => some .errval
  | _ => none

/-- The number of a CSR (10_state.md R25). -/
def Csr.number : Csr → BitVec 7
  | .id => 0
  | .version => 1
  | .cap => 2
  | .status => 3
  | .sticky => 4
  | .errval => 5

/-! ## The opcode map (R73) -/

namespace Opcode
/-- MOV -/
def mov : BitVec 6 := 0x01
/-- LI -/
def li : BitVec 6 := 0x02
/-- LIC -/
def lic : BitVec 6 := 0x03
/-- MASK -/
def mask : BitVec 6 := 0x04
/-- RMASK -/
def rmask : BitVec 6 := 0x05
/-- EXTR -/
def extr : BitVec 6 := 0x06
/-- INS -/
def ins : BitVec 6 := 0x07
/-- SEXT -/
def sext : BitVec 6 := 0x08
/-- WNORM -/
def wnorm : BitVec 6 := 0x09
/-- WCMP -/
def wcmp : BitVec 6 := 0x0A
/-- CNEW -/
def cnew : BitVec 6 := 0x10
/-- CLOAD -/
def cload : BitVec 6 := 0x11
/-- FGET -/
def fget : BitVec 6 := 0x12
/-- FSET -/
def fset : BitVec 6 := 0x13
/-- EDEC -/
def edec : BitVec 6 := 0x14
/-- EENC -/
def eenc : BitVec 6 := 0x15
/-- SBEGIN -/
def sbegin : BitVec 6 := 0x20
/-- SCONT -/
def scont : BitVec 6 := 0x21
/-- SFIELD -/
def sfield : BitVec 6 := 0x22
/-- SENUM -/
def senum : BitVec 6 := 0x23
/-- SVAR -/
def svar : BitVec 6 := 0x24
/-- SCOMMIT -/
def scommit : BitVec 6 := 0x25
/-- RDCSR -/
def rdcsr : BitVec 6 := 0x28
/-- CLRS -/
def clrs : BitVec 6 := 0x29
end Opcode

/-- The opcode of a command (R73). -/
def Instr.opcode : Instr → BitVec 6
  | .mov _ _ => Opcode.mov
  | .li _ _ _ => Opcode.li
  | .lic _ _ _ => Opcode.lic
  | .mask _ _ => Opcode.mask
  | .rmask _ _ _ => Opcode.rmask
  | .extr _ _ _ _ => Opcode.extr
  | .ins _ _ _ _ _ => Opcode.ins
  | .sext _ _ _ => Opcode.sext
  | .wnorm _ _ _ _ => Opcode.wnorm
  | .wcmp _ _ _ _ _ => Opcode.wcmp
  | .cnew _ => Opcode.cnew
  | .cload _ _ => Opcode.cload
  | .fget _ _ _ _ => Opcode.fget
  | .fset _ _ _ _ _ => Opcode.fset
  | .edec _ _ _ => Opcode.edec
  | .eenc _ _ _ => Opcode.eenc
  | .sbegin => Opcode.sbegin
  | .scont _ _ => Opcode.scont
  | .sfield _ _ => Opcode.sfield
  | .senum _ _ _ => Opcode.senum
  | .svar _ _ => Opcode.svar
  | .scommit => Opcode.scommit
  | .rdcsr _ _ => Opcode.rdcsr
  | .clrs => Opcode.clrs

/-! ## The decoder (R74, R78, R79) -/

/-- One row of the table of R74: the opcode, the match and mask words, and how the operands are read, with the value
conditions of R79. -/
structure Row where
  op : BitVec 6
  mtch : Word
  mask : Word
  operands : Word → Except Illegal Instr

/-- A command with a bit range, ILLEGAL when `low > high` (R79). -/
def ranged (w : Word) (mk : Fin 128 → Fin 128 → Instr) : Except Illegal Instr :=
  if aOf w ≤ bOf w then .ok (mk (aOf w) (bOf w)) else .error .lowAboveHigh

/-- RDCSR's operands, ILLEGAL for a CSR number above 5 (R79). -/
def rdcsrOperands (w : Word) : Except Illegal Instr :=
  match csrOfNat (aOf w).val with
  | some c => .ok (.rdcsr (rdOf w) c)
  | none => .error .reservedCsr

/-- The rows of the move and bit-range groups (R74). -/
def moveAndRangeRows : List Row :=
  [ ⟨Opcode.mov, 0x04000000, 0xFC03FFFF, fun w => .ok (.mov (rdOf w) (rs1Of w))⟩
  , ⟨Opcode.li, 0x08000000, 0xFC380000, fun w => .ok (.li (rdOf w) (posOf w) (immOf w))⟩
  , ⟨Opcode.lic, 0x0C000000, 0xFC380000, fun w => .ok (.lic (rdOf w) (posOf w) (immOf w))⟩
  , ⟨Opcode.mask, 0x10000000, 0xFC3FC07F, fun w => .ok (.mask (rdOf w) (widthOf w))⟩
  , ⟨Opcode.rmask, 0x14000000, 0xFC3FC000, fun w => ranged w (.rmask (rdOf w))⟩
  , ⟨Opcode.extr, 0x18000000, 0xFC03C000, fun w => ranged w (.extr (rdOf w) (rs1Of w))⟩
  , ⟨Opcode.ins, 0x1C000000, 0xFC000000, fun w => ranged w (.ins (rdOf w) (rs1Of w) (rs2Of w))⟩
  , ⟨Opcode.sext, 0x20000000, 0xFC03C07F, fun w => .ok (.sext (rdOf w) (rs1Of w) (widthOf w))⟩ ]

/-- The rows of the WidthInteger, container, field-access and enum groups (R74). -/
def accessorRows : List Row :=
  [ ⟨Opcode.wnorm, 0x24000000, 0xFC03C07E, fun w => .ok (.wnorm (rdOf w) (rs1Of w) (widthOf w) (signOf w))⟩
  , ⟨Opcode.wcmp, 0x28000000, 0xFC00007E,
      fun w => .ok (.wcmp (rdOf w) (rs1Of w) (rs2Of w) (widthOf w) (signOf w))⟩
  , ⟨Opcode.cnew, 0x40000000, 0xFC3FFFFF, fun w => .ok (.cnew (rdOf w))⟩
  , ⟨Opcode.cload, 0x44000000, 0xFC03FFFF, fun w => .ok (.cload (rdOf w) (rs1Of w))⟩
  , ⟨Opcode.fget, 0x48000000, 0xFC03E000, fun w => .ok (.fget (rdOf w) (rs1Of w) (fidOf w) (bOf w))⟩
  , ⟨Opcode.fset, 0x4C000000, 0xFC002000,
      fun w => .ok (.fset (rdOf w) (rs1Of w) (rs2Of w) (fidOf w) (bOf w))⟩
  , ⟨Opcode.edec, 0x50000000, 0xFC03FFF0, fun w => .ok (.edec (rdOf w) (rs1Of w) (eidOf w))⟩
  , ⟨Opcode.eenc, 0x54000000, 0xFC03FFF0, fun w => .ok (.eenc (rdOf w) (rs1Of w) (eidOf w))⟩ ]

/-- The rows of the schema and system groups (R74). -/
def schemaAndSystemRows : List Row :=
  [ ⟨Opcode.sbegin, 0x80000000, 0xFFFFFFFF, fun _ => .ok .sbegin⟩
  , ⟨Opcode.scont, 0x84000000, 0xFFC3C07F, fun w => .ok (.scont (rs1Of w) (widthOf w))⟩
  , ⟨Opcode.sfield, 0x88000000, 0xFFC3E07F, fun w => .ok (.sfield (fidOf w) (rs1Of w))⟩
  , ⟨Opcode.senum, 0x8C000000, 0xFFFFC060, fun w => .ok (.senum (eidOf w) (widthOf w) (exhOf w))⟩
  , ⟨Opcode.svar, 0x90000000, 0xFFC3FFF0, fun w => .ok (.svar (eidOf w) (rs1Of w))⟩
  , ⟨Opcode.scommit, 0x94000000, 0xFFFFFFFF, fun _ => .ok .scommit⟩
  , ⟨Opcode.rdcsr, 0xA0000000, 0xFC3FC07F, rdcsrOperands⟩
  , ⟨Opcode.clrs, 0xA4000000, 0xFFFFFFFF, fun _ => .ok .clrs⟩ ]

/-- The table of R74. -/
def opcodeRows : List Row := moveAndRangeRows ++ accessorRows ++ schemaAndSystemRows

/-- Decode a command word (R78). It depends on the word alone (R77). -/
def decode (w : Word) : Except Illegal Instr :=
  match opcodeRows.find? (fun r => r.op == opOf w) with
  | none => .error .reservedOpcode
  | some r => if w &&& r.mask = r.mtch then r.operands w else .error .mustBeZero

/-! ## The encoder -/

/-- A format R word from its fields (R66). -/
def packR (op : BitVec 6) (rd rs1 rs2 : Reg) (a b : BitVec 7) : Word :=
  op ++ BitVec.ofFin (w := 4) rd ++ BitVec.ofFin (w := 4) rs1 ++ BitVec.ofFin (w := 4) rs2 ++ a ++ b

/-- A format I word from its fields, Z = 0 (R67). -/
def packI (op : BitVec 6) (rd : Reg) (pos : Fin 8) (imm : BitVec 16) : Word :=
  op ++ BitVec.ofFin (w := 4) rd ++ 0#3 ++ BitVec.ofFin (w := 3) pos ++ imm

/-- The field A of a width operand, `w - 1` (R69). -/
def widthField (w : Nat) : BitVec 7 := BitVec.ofNat 7 (w - 1)

/-- The field of a bit position or repeat index (R70, R71). -/
def posField (n : Fin 128) : BitVec 7 := BitVec.ofFin (w := 7) n

/-- The field A of a field id, A[6] = 0 (R71). -/
def fidField (f : FieldId) : BitVec 7 := 0#1 ++ BitVec.ofFin (w := 6) f

/-- The field B of an enum id, B[6:4] = 0 (R71). -/
def eidField (e : EnumId) : BitVec 7 := 0#3 ++ BitVec.ofFin (w := 4) e

/-- The field B of a signedness operand, B[6:1] = 0 (R71). -/
def signField : Sign → BitVec 7
  | .unsigned => 0
  | .signed => 1

/-- The field B of SENUM: B[6:5] = 0, B[4] = EXH, B[3:0] = eid (R71). -/
def enumField (e : EnumId) (exh : Bool) : BitVec 7 := 0#2 ++ BitVec.ofBool exh ++ BitVec.ofFin (w := 4) e

/-- The command word of a well-formed command (R66, R67, R74). -/
def encode : Instr → Word
  | .mov rd rs1 => packR Opcode.mov rd rs1 0 0 0
  | .li rd pos imm => packI Opcode.li rd pos imm
  | .lic rd pos imm => packI Opcode.lic rd pos imm
  | .mask rd w => packR Opcode.mask rd 0 0 (widthField w) 0
  | .rmask rd lo hi => packR Opcode.rmask rd 0 0 (posField lo) (posField hi)
  | .extr rd rs1 lo hi => packR Opcode.extr rd rs1 0 (posField lo) (posField hi)
  | .ins rd rs1 rs2 lo hi => packR Opcode.ins rd rs1 rs2 (posField lo) (posField hi)
  | .sext rd rs1 w => packR Opcode.sext rd rs1 0 (widthField w) 0
  | .wnorm rd rs1 w sg => packR Opcode.wnorm rd rs1 0 (widthField w) (signField sg)
  | .wcmp rd rs1 rs2 w sg => packR Opcode.wcmp rd rs1 rs2 (widthField w) (signField sg)
  | .cnew rd => packR Opcode.cnew rd 0 0 0 0
  | .cload rd rs1 => packR Opcode.cload rd rs1 0 0 0
  | .fget rd rs1 fid idx => packR Opcode.fget rd rs1 0 (fidField fid) (posField idx)
  | .fset rd rs1 rs2 fid idx => packR Opcode.fset rd rs1 rs2 (fidField fid) (posField idx)
  | .edec rd rs1 eid => packR Opcode.edec rd rs1 0 0 (eidField eid)
  | .eenc rd rs1 eid => packR Opcode.eenc rd rs1 0 0 (eidField eid)
  | .sbegin => packR Opcode.sbegin 0 0 0 0 0
  | .scont rs1 cw => packR Opcode.scont 0 rs1 0 (widthField cw) 0
  | .sfield fid rs1 => packR Opcode.sfield 0 rs1 0 (fidField fid) 0
  | .senum eid w exh => packR Opcode.senum 0 0 0 (widthField w) (enumField eid exh)
  | .svar eid rs1 => packR Opcode.svar 0 rs1 0 0 (eidField eid)
  | .scommit => packR Opcode.scommit 0 0 0 0 0
  | .rdcsr rd csr => packR Opcode.rdcsr rd 0 0 csr.number 0
  | .clrs => packR Opcode.clrs 0 0 0 0 0

/-! ## The opcode table's numbering -/

/-- What the decoder reads from a word of `nbits` bits as spec/opcode_table.json numbers them, the bits above zero. -/
def decodeTableWord (nbits w : Nat) : Option Instr :=
  if nbits ≤ 32 then
    match decode (BitVec.ofNat 32 (w % 2 ^ nbits)) with
    | .ok i => some i
    | .error _ => none
  else none

end Sys2Proof
end

