-- ==== Sys2Proof/Machine/State.lean ====
section
/-! DEFINITION. Everything the spec gives the machine to hold (10_state.md R20 to R45), the host events it takes as
input, the reasons it can stop, and the state after reset. -/

namespace Sys2Proof.Machine

/-- The outcome codes 0 to 8 (60_exceptions.md R191). Codes 9 to 15 are never produced, so they have no name. -/
inductive Code where
  | ok | unmatched | index | access | nofield | badvar | phase | illegal | schema
  deriving DecidableEq, Repr

/-- The schema phase (10_state.md R32). -/
inductive Phase where
  | config | ready | failed
  deriving DecidableEq, Repr

/-- One slot of the field table: `FV` and `FDESC` (10_state.md R34). The descriptor's bits are read by R35. -/
structure FieldSlot where
  valid : Bool
  desc : Data
  deriving DecidableEq, Repr

/-- One slot of the enum table: `EV`, `W`, `EXH`, `NVAR` and `VT[0..255]` (10_state.md R39). `w` is 0 only in an
undeclared slot. The types bound the two counts; their storage widths (8 and 9 bits) never show (log 12). -/
structure EnumSlot where
  valid : Bool
  w : Fin (Config.dw + 1)
  exh : Bool
  nvar : Fin (Config.nv + 1)
  vt : Vector Data Config.nv
  deriving DecidableEq, Repr

/-- The deferred schema-error latch `SERR`; check 0 is "empty" (10_state.md R40). -/
structure SchemaLatch where
  check : BitVec 8
  obj1 : BitVec 8
  obj2 : BitVec 8
  deriving DecidableEq, Repr

/-- The schema store (10_state.md R33, R34, R39, R40). `cw` is 0 only before SCONT. -/
structure SchemaStore where
  cwSet : Bool
  cw : Fin (Config.dw + 1)
  dflt : Data
  ft : Vector FieldSlot Config.nf
  et : Vector EnumSlot Config.ne
  serr : SchemaLatch
  deriving DecidableEq, Repr

/-- One access at the host port (20_memory.md R52, R53): a byte address counted from the window's base, the enabled
byte lanes, and the data of a write. -/
inductive HostAccess where
  | read (addr : Nat) (lanes : BitVec 4)
  | write (addr : Nat) (lanes : BitVec 4) (v : Word)
  deriving DecidableEq, Repr

/-- What the outside can do to the machine: an access, or a reset between two host operations
(70_reset_and_hazards.md R210). -/
inductive HostEvent where
  | access (a : HostAccess)
  | reset
  deriving DecidableEq, Repr

/-- The state of the machine (10_state.md R45). STATUS is a view of `code`, `phase` and `store.serr`. -/
structure State where
  /-- `D0` to `D15` (R20) -/
  regs : Vector Data Config.nreg
  /-- `DEF`: bit `k` of entry `n` says that word `k` of `Dn` has been written since reset (R22) -/
  defined : Vector (BitVec 4) Config.nreg
  /-- `STATUS.CODE` (R29) -/
  code : Code
  /-- `STICKY` (R30) -/
  sticky : BitVec 16
  /-- `ERRVAL` (R31) -/
  errval : Data
  /-- `PHASE` (R32) -/
  phase : Phase
  /-- the schema store (R33 to R40) -/
  store : SchemaStore
  /-- the model's own: host events not yet performed, oldest first (log 4) -/
  pending : List HostEvent
  /-- the model's own: the response of the latest host operation (00_scope.md R11; log 5) -/
  response : Option Word
  /-- the first `UninitRead(n)` of the run, never cleared (60_exceptions.md R207; log 2) -/
  uninit : Option Reg
  deriving DecidableEq, Repr

/-- Why a step stops. -/
inductive Fault where
  /-- A host access that is not an aligned 32-bit one (20_memory.md R52, 60_exceptions.md R207). Raised by
  `hostEvent`. Safe: the model stops where the hardware does something the spec leaves open. -/
  | hostAccessRefused
  /-- `UninitRead(n)` (60_exceptions.md R207). Raised only by `stepStrict`; `step` records it in `uninit` and goes on
  (log 2). Safe: the strict step stops where the hardware goes on. -/
  | uninitRead (n : Reg)
  /-- FGET or FSET in READY of a descriptor that SCOMMIT rejects: a reserved KIND, or an exhaustive enum with a gap.
  No state a run reaches raises it (45_schema.md R174, R175; log 10). Raised by `execFget` and `execFset`. Safe: the
  model stops where the spec gives no effect. -/
  | unvalidatedDescriptor
  deriving DecidableEq, Repr

/-- Why a step refuses. -/
inductive Refusal where
  /-- An instruction that has no meaning yet, raised by its arm of `exec`; no arm raises it now. Safe. -/
  | notModelled (mnemonic : String)
  deriving DecidableEq, Repr

/-- An undeclared field slot (10_state.md R34). -/
def FieldSlot.empty : FieldSlot := ⟨false, 0⟩

/-- An undeclared enum slot (10_state.md R39). -/
def EnumSlot.empty : EnumSlot := ⟨false, 0, false, 0, Vector.replicate Config.nv 0⟩

/-- The empty latch (10_state.md R40). -/
def SchemaLatch.empty : SchemaLatch := ⟨0, 0, 0⟩

/-- The empty schema store (10_state.md R44, 45_schema.md R150). -/
def SchemaStore.empty : SchemaStore where
  cwSet := false
  cw := 0
  dflt := 0
  ft := Vector.replicate Config.nf FieldSlot.empty
  et := Vector.replicate Config.ne EnumSlot.empty
  serr := SchemaLatch.empty

/-- The machine right after reset (10_state.md R44, 70_reset_and_hazards.md R210). The data registers hold
`Config.resetData` (log 1), and no host event waits (log 4). -/
def State.reset : State where
  regs := Vector.replicate Config.nreg Config.resetData
  defined := Vector.replicate Config.nreg 0
  code := .ok
  sticky := 0
  errval := 0
  phase := .config
  store := SchemaStore.empty
  pending := []
  response := none
  uninit := none

end Sys2Proof.Machine
end

