-- ==== Sys2Proof/Machine/Flags.lean ====
section
/-! DEFINITION. The machine has no condition flags (10_state.md R24). Its outcome state is STATUS, STICKY and ERRVAL:
this file gives their bits (R29 to R31) and the completion update (60_exceptions.md R192). -/

namespace Sys2Proof.Machine

/-- The 4 bits of an outcome code (60_exceptions.md R191). -/
def Code.bits : Code → BitVec 4
  | .ok => 0
  | .unmatched => 1
  | .index => 2
  | .access => 3
  | .nofield => 4
  | .badvar => 5
  | .phase => 6
  | .illegal => 7
  | .schema => 8

/-- The 2 bits of the schema phase (10_state.md R32). -/
def Phase.bits : Phase → BitVec 2
  | .config => 0
  | .ready => 1
  | .failed => 2

/-- `STATUS.SERRP`: the latch holds an error (10_state.md R29, R40). -/
def SchemaLatch.pending (l : SchemaLatch) : Bool := l.check != 0

/-- STATUS: CODE in [3:0], PHASE in [5:4], SERRP in [8], zeros elsewhere (10_state.md R29). -/
def State.status (s : State) : Word :=
  0#23 ++ BitVec.ofBool s.store.serr.pending ++ 0#2 ++ s.phase.bits ++ s.code.bits

/-- The STICKY bit of an outcome code: bit `c` (10_state.md R30). -/
def Code.stickyBit (c : Code) : BitVec 16 := 1#16 <<< c.bits.toNat

/-- The completion update with outcome OK: CODE is OK, STICKY and ERRVAL stay (60_exceptions.md R192). -/
def State.done (s : State) : State := { s with code := .ok }

/-- A failing outcome and its information value (60_exceptions.md R191, R193). -/
structure Failure where
  code : Code
  info : Data
  deriving DecidableEq, Repr

/-- The completion update with a failing outcome: CODE, the outcome's STICKY bit, ERRVAL (60_exceptions.md R192). -/
def State.failWith (e : Failure) (s : State) : State :=
  { s with code := e.code, sticky := s.sticky ||| e.code.stickyBit, errval := e.info }

/-- STICKY with the bits of `v[15:0]` cleared: the host's write-1-to-clear (20_memory.md R54). -/
def State.clearSticky (v : Word) (s : State) : State := { s with sticky := s.sticky &&& ~~~(v.setWidth 16) }

/-- STICKY and ERRVAL cleared: CLRS (46_move_system.md R184). -/
def State.clearOutcomes (s : State) : State := { s with sticky := 0, errval := 0 }

/-- The value RDCSR reads, zero-extended to 128 bits (46_move_system.md R183, 10_state.md R25). -/
def State.csr (s : State) : Csr → Data
  | .id => Config.idValue.setWidth Config.dw
  | .version => Config.versionValue.setWidth Config.dw
  | .cap => Config.capValue.setWidth Config.dw
  | .status => s.status.setWidth Config.dw
  | .sticky => s.sticky.setWidth Config.dw
  | .errval => s.errval

end Sys2Proof.Machine
end

