-- ==== Sys2Proof/Machine/Ops.lean ====
section
/-! DEFINITION. The shared operations: register reads and writes with their defined bits, the bit-range primitives, the
ways a command ends, and the phase check. A failing outcome is what other machines would call taking an exception:
`fail` is the one operation for it (60_exceptions.md R190, R197: no state is saved and control does not move). -/

namespace Sys2Proof.Machine

/-! ## Bit-range primitives (00_scope.md R15, R16) -/

/-- `mask(k) = zext_128(1^k)` (R15). -/
def mask (k : Nat) : Data := (BitVec.allOnes k).setWidth Config.dw

/-- `extract(raw, lo, hi)` (R16). -/
def extract (raw : Data) (lo hi : Nat) : Data := (raw >>> lo) &&& mask (hi - lo + 1)

/-- `insert(raw, lo, hi, value)` (R16). -/
def insert (raw : Data) (lo hi : Nat) (value : Data) : Data :=
  (raw &&& ~~~(mask (hi - lo + 1) <<< lo)) ||| ((value &&& mask (hi - lo + 1)) <<< lo)

/-- `sign_extend(bits, w) = sext_128((bits & mask(w))[w-1:0])` (R16). -/
def signExtend (bits : Data) (w : Nat) : Data := ((bits &&& mask w).setWidth w).signExtend Config.dw

/-! ## Data registers -/

/-- `D[n]` (00_scope.md R14, 10_state.md R21). -/
def State.reg (s : State) (n : Reg) : Data := s.regs[n]

/-- Every word of `Dn` has been written since reset (10_state.md R22). -/
def State.regDefined (s : State) (n : Reg) : Bool := s.defined[n] == 0xF#4

/-- `D[n] <- v`: a command's write sets all four defined bits (10_state.md R22). -/
def State.setReg (n : Reg) (v : Data) (s : State) : State :=
  { s with regs := s.regs.set n v, defined := s.defined.set n 0xF#4 }

/-- Word `k` of a 128-bit register, bits `[32k+31:32k]` (20_memory.md R51). -/
def wordOf (v : Data) (k : Fin 4) : Word := v.extractLsb' (32 * k.val) 32

/-- A 128-bit register with word `k` replaced (20_memory.md R51, R56). -/
def setWordOf (v : Data) (k : Fin 4) (x : Word) : Data :=
  insert v (32 * k.val) (32 * k.val + 31) (x.setWidth Config.dw)

/-- Word `k` of `Dn` has been written since reset (10_state.md R22). -/
def State.wordDefined (s : State) (n : Reg) (k : Fin 4) : Bool := s.defined[n].getLsbD k.val

/-- The host's write of word `k` of `Dn`: it sets that word's defined bit alone (10_state.md R22,
70_reset_and_hazards.md R216). -/
def State.setRegWord (n : Reg) (k : Fin 4) (x : Word) (s : State) : State :=
  { s with
    regs := s.regs.set n (setWordOf s.regs[n] k x)
    defined := s.defined.set n (s.defined[n] ||| (1#4 <<< k.val)) }

/-- Record `UninitRead(n)` unless an earlier one is recorded (60_exceptions.md R207; log 2). -/
def State.markUninit (n : Reg) (s : State) : State := { s with uninit := s.uninit.or (some n) }

/-- A command names `Dn` as a source: record `UninitRead(n)` if a word of it is undefined (60_exceptions.md R207). -/
def State.noteRead (n : Reg) (s : State) : State := if s.regDefined n then s else s.markUninit n

/-- A command's sources, in operand order (60_exceptions.md R196, column "registers read"; log 3). -/
def State.noteReads (ns : List Reg) (s : State) : State := ns.foldl (fun t n => t.noteRead n) s

/-! ## How a command ends (60_exceptions.md R192, R194) -/

/-- The outcome of a step of this machine. -/
abbrev Result := Host.Outcome State Fault Refusal

/-- End with OK and no data register written. -/
def finish (s : State) : Result := .next s.done

/-- `D[rd] <- v`, and end with OK. -/
def finishWith (rd : Reg) (v : Data) (s : State) : Result := .next (s.setReg rd v).done

/-- `raise Error(code, info)`: end with a failing outcome, writing nothing else (00_scope.md R14, R192, R194). -/
def fail (e : Failure) (s : State) : Result := .next (s.failWith e)

/-- Raise UNMATCHED, the one failure that also writes `D[rd]` (R194). -/
def failUnmatched (rd : Reg) (raw : Data) (s : State) : Result := .next ((s.setReg rd raw).failWith ⟨.unmatched, raw⟩)

/-- Raise the failure if there is one, otherwise go on. -/
def unlessFails (e : Option Failure) (s : State) (go : Result) : Result :=
  match e with
  | some e => fail e s
  | none => go

/-! ## The phase check (60_exceptions.md R193, R196) -/

/-- PHASE's information value: PHASE in [1:0] and the opcode in [13:8] (R193). -/
def phaseInfo (op : BitVec 6) (p : Phase) : Data := (op ++ 0#6 ++ p.bits : BitVec 14).setWidth Config.dw

/-- The command with opcode `op` is admitted only in phase `p` (R196). -/
def admitIn (p : Phase) (op : BitVec 6) (s : State) : Option Failure :=
  if s.phase = p then none else some ⟨.phase, phaseInfo op s.phase⟩

/-- A word that does not decode: outcome ILLEGAL, ERRVAL the word; no register is read (30_encoding.md R79,
60_exceptions.md R193, R207). -/
def failIllegal (w : Word) (s : State) : Result := fail ⟨.illegal, w.setWidth Config.dw⟩ s

end Sys2Proof.Machine
end

