-- ==== Sys2Proof/Machine/BitRange.lean ====
section
/-! DEFINITION. Bit-range arithmetic (40_bitrange.md R90 to R94), on the full 128-bit datapath (R96). Admitted in every
phase. -/

namespace Sys2Proof.Machine

/-- MASK (R90). -/
def execMask (rd : Reg) (w : Nat) (s : State) : Result := finishWith rd (mask w) s

/-- RMASK (R91). -/
def execRmask (rd : Reg) (lo hi : Fin 128) (s : State) : Result :=
  finishWith rd (mask (hi.val - lo.val + 1) <<< lo.val) s

/-- EXTR (R92). -/
def execExtr (rd rs1 : Reg) (lo hi : Fin 128) (s : State) : Result :=
  finishWith rd (extract (s.reg rs1) lo.val hi.val) (s.noteReads [rs1])

/-- INS (R93). For `rd = rs1 = rs2` with `lo > 0` the rule's corner case disagrees with its pseudocode and with
95_test_vectors.md:266; this is the pseudocode: DEDUCED, log 20. -/
def execIns (rd rs1 rs2 : Reg) (lo hi : Fin 128) (s : State) : Result :=
  finishWith rd (insert (s.reg rs1) lo.val hi.val (s.reg rs2)) (s.noteReads [rs1, rs2])

/-- SEXT (R94). -/
def execSext (rd rs1 : Reg) (w : Nat) (s : State) : Result :=
  finishWith rd (signExtend (s.reg rs1) w) (s.noteReads [rs1])

end Sys2Proof.Machine
end

