-- ==== Sys2Proof/Machine/Container.lean ====
section
/-! DEFINITION. The container unit (44_container.md R140, R141). `raw_value()` is MOV (R142). -/

namespace Sys2Proof.Machine

/-- CNEW (R140). -/
def execCnew (rd : Reg) (s : State) : Result :=
  unlessFails (admitIn .ready Opcode.cnew s) s (finishWith rd s.store.dflt s)

/-- CLOAD (R141). -/
def execCload (rd rs1 : Reg) (s : State) : Result :=
  let t := s.noteReads [rs1]
  unlessFails (admitIn .ready Opcode.cload s) t (finishWith rd (s.reg rs1 &&& mask s.store.cw.val) t)

end Sys2Proof.Machine
end

