-- ==== Sys2Proof/Machine/Operands.lean ====
section
/-! DEFINITION. The operand forms of the accessor commands: a field descriptor and its instances (10_state.md R35 to
R38), the enum lookup (43_enum_codec.md R130), and the admission of a field or an enum id (42_field_access.md R110). -/

namespace Sys2Proof.Machine

/-! ## The field descriptor FDESC (10_state.md R35) -/

namespace Fdesc

/-- LO, bits [6:0]. -/
def lo (d : Data) : Nat := (d.extractLsb' 0 7).toNat

/-- HI, bits [14:8]. -/
def hi (d : Data) : Nat := (d.extractLsb' 8 7).toNat

/-- MODE, bits [17:16] (R37). -/
def mode (d : Data) : BitVec 2 := d.extractLsb' 16 2

/-- KIND, bits [22:20] (R38). -/
def kindBits (d : Data) : BitVec 3 := d.extractLsb' 20 3

/-- EID, bits [27:24]. -/
def eid (d : Data) : EnumId := (d.extractLsb' 24 4).toFin

/-- REP, bit 28. -/
def rep (d : Data) : Bool := d.getLsbD 28

/-- COUNT, bits [39:32]. -/
def count (d : Data) : Nat := (d.extractLsb' 32 8).toNat

/-- STRIDE, bits [47:40]. -/
def strideBits (d : Data) : Nat := (d.extractLsb' 40 8).toNat

/-- KW, bits [55:48]. -/
def kw (d : Data) : Nat := (d.extractLsb' 48 8).toNat

/-- A reserved bit is set: 7, 15, [19:18], 23, [31:29] or [127:56] (R35). -/
def reservedSet (d : Data) : Bool :=
  d.extractLsb' 7 1 != 0 || d.extractLsb' 15 1 != 0 || d.extractLsb' 18 2 != 0 || d.extractLsb' 23 1 != 0 ||
    d.extractLsb' 29 3 != 0 || d.extractLsb' 56 72 != 0

/-- `width = HI - LO + 1` (R36). -/
def width (d : Data) : Nat := hi d - lo d + 1

/-- `n`, the number of instances (R36). -/
def instances (d : Data) : Nat := if rep d then count d else 1

/-- `stride`, the effective stride: a stride of 0 means the width (R36). -/
def stride (d : Data) : Nat := if rep d && strideBits d != 0 then strideBits d else width d

/-- `lo_i = LO + i·stride` (R36). -/
def loAt (d : Data) (i : Nat) : Nat := lo d + i * stride d

/-- `hi_i = lo_i + width - 1` (R36). -/
def hiAt (d : Data) (i : Nat) : Nat := loAt d i + width d - 1

/-- MODE allows FGET: ReadOnly or ReadWrite (R37). -/
def canGet (d : Data) : Bool := mode d == 1 || mode d == 3

/-- MODE allows FSET: WriteOnly or ReadWrite (R37). -/
def canSet (d : Data) : Bool := mode d == 2 || mode d == 3

end Fdesc

/-- The value kinds (10_state.md R38). -/
inductive ValueKind where
  | bool | unsigned | signed | enumExhaustive | enumPartial
  deriving DecidableEq, Repr

/-- KIND as a value kind; 5, 6 and 7 are reserved (10_state.md R38). -/
def Fdesc.kind (d : Data) : Option ValueKind :=
  match (Fdesc.kindBits d).toNat with
  | 0 => some .bool
  | 1 => some .unsigned
  | 2 => some .signed
  | 3 => some .enumExhaustive
  | 4 => some .enumPartial
  | _ => none

/-! ## Enum codecs -/

/-- `VT[j]` (10_state.md R39). -/
def EnumSlot.disc (e : EnumSlot) (j : Nat) : Data := e.vt[j]?.getD 0

/-- `find(E, raw)`: the least ordinal below NVAR whose discriminant is `raw` (43_enum_codec.md R130). -/
def EnumSlot.find (e : EnumSlot) (raw : Data) : Option Nat := (List.range e.nvar.val).find? (fun j => e.disc j == raw)

/-- An ordinal as a register value, `zext_128(j)` (42_field_access.md R112). -/
def ordinal (j : Nat) : Data := BitVec.ofNat Config.dw j

/-- The enum with an id is declared, else NOFIELD with bit 8 = 1 (43_enum_codec.md R134, R135, 60_exceptions.md R193). -/
def admitEnum (eid : EnumId) (s : State) : Option Failure :=
  if s.store.et[eid].valid then none else some ⟨.nofield, 0x100#Config.dw ||| BitVec.ofNat Config.dw eid.val⟩

/-- The variant ordinal in a register names a variant, else BADVAR with the whole register (43_enum_codec.md R133,
R135, 42_field_access.md R113). -/
def admitOrdinal (e : EnumSlot) (x : Data) : Option Failure :=
  if x.toNat < e.nvar.val then none else some ⟨.badvar, x⟩

/-! ## Field access -/

/-- Which accessor names the field. -/
inductive Direction where
  | get | set
  deriving DecidableEq, Repr

/-- The access mode allows the direction (42_field_access.md R110, condition 4). -/
def Direction.allowed (dir : Direction) (d : Data) : Bool :=
  match dir with
  | .get => Fdesc.canGet d
  | .set => Fdesc.canSet d

/-- ACCESS's information value: the fid, bit 8 set for FSET (R110, 60_exceptions.md R193). -/
def accessInfo (dir : Direction) (fid : FieldId) : Data :=
  match dir with
  | .get => BitVec.ofNat Config.dw fid.val
  | .set => 0x100#Config.dw ||| BitVec.ofNat Config.dw fid.val

/-- INDEX's information value: `{fid[7:0], idx[7:0]}` (R110, 60_exceptions.md R193). -/
def indexInfo (fid : FieldId) (idx : Fin 128) : Data :=
  (BitVec.ofNat 8 fid.val ++ BitVec.ofNat 8 idx.val : BitVec 16).setWidth Config.dw

/-- Conditions 3, 4 and 5 of a field access, in that order (42_field_access.md R110). -/
def admitField (dir : Direction) (fid : FieldId) (idx : Fin 128) (s : State) : Option Failure :=
  let f := s.store.ft[fid]
  if !f.valid then some ⟨.nofield, BitVec.ofNat Config.dw fid.val⟩
  else if !dir.allowed f.desc then some ⟨.access, accessInfo dir fid⟩
  else if idx.val < Fdesc.instances f.desc then none
  else some ⟨.index, indexInfo fid idx⟩

/-- The enum codec a descriptor names, `ET[f.EID]`. -/
def SchemaStore.enumOf (st : SchemaStore) (d : Data) : EnumSlot := st.et[Fdesc.eid d]

end Sys2Proof.Machine
end

