-- ==== Sys2Proof/Machine/EnumCodec.lean ====
section
/-! DEFINITION. The enum mapper's own commands (43_enum_codec.md R130 to R135). -/

namespace Sys2Proof.Machine

/-- EDEC: bits at and above `W` are dropped before the lookup (R134). The branch with no match is the pseudocode's;
in a committed schema only a partial enum takes it (R131; log 11). -/
def execEdec (rd rs1 : Reg) (eid : EnumId) (s : State) : Result :=
  let t := s.noteReads [rs1]
  let e := s.store.et[eid]
  let raw := s.reg rs1 &&& mask e.w.val
  unlessFails ((admitIn .ready Opcode.edec s).or (admitEnum eid s)) t <|
    match e.find raw with
    | some j => finishWith rd (ordinal j) t
    | none => failUnmatched rd raw t

/-- EENC: the whole 128-bit register is the ordinal (R135). -/
def execEenc (rd rs1 : Reg) (eid : EnumId) (s : State) : Result :=
  let t := s.noteReads [rs1]
  let e := s.store.et[eid]
  unlessFails (((admitIn .ready Opcode.eenc s).or (admitEnum eid s)).or (admitOrdinal e (s.reg rs1))) t <|
    finishWith rd (e.disc (s.reg rs1).toNat) t

end Sys2Proof.Machine
end

