-- ==== Sys2Proof/Machine/FieldAccess.lean ====
section
/-! DEFINITION. The multi-field accessor (42_field_access.md R110 to R115). -/

namespace Sys2Proof.Machine

/-- PHASE, then NOFIELD, ACCESS and INDEX, in the order of R110. -/
def admitAccess (dir : Direction) (op : BitVec 6) (fid : FieldId) (idx : Fin 128) (s : State) : Option Failure :=
  (admitIn .ready op s).or (admitField dir fid idx s)

/-- The bits of instance `idx` of the field in a container (R111, R112). -/
def fieldBits (d : Data) (idx : Fin 128) (c : Data) : Data :=
  extract c (Fdesc.loAt d idx.val) (Fdesc.hiAt d idx.val)

/-- FGET (R112, R114). Its two faults are not reached by any run (log 10). -/
def execFget (rd rs1 : Reg) (fid : FieldId) (idx : Fin 128) (s : State) : Result :=
  let t := s.noteReads [rs1]
  let d := s.store.ft[fid].desc
  let bits := fieldBits d idx (s.reg rs1)
  unlessFails (admitAccess .get Opcode.fget fid idx s) t <|
    match Fdesc.kind d with
    | some .bool => finishWith rd (if bits = 0 then 0 else 1) t
    | some .unsigned => finishWith rd bits t
    | some .signed => finishWith rd (signExtend bits (Fdesc.width d)) t
    | some .enumExhaustive =>
      match (s.store.enumOf d).find bits with
      | some j => finishWith rd (ordinal j) t
      | none => .fault .unvalidatedDescriptor
    | some .enumPartial =>
      match (s.store.enumOf d).find bits with
      | some j => finishWith rd (ordinal j) t
      | none => failUnmatched rd bits t
    | none => .fault .unvalidatedDescriptor

/-- The container with instance `idx` of the field replaced by the pattern `v` (R111, R115). -/
def withField (d : Data) (idx : Fin 128) (c v : Data) : Data :=
  insert c (Fdesc.loAt d idx.val) (Fdesc.hiAt d idx.val) v

/-- FSET (R113, R115). Its fault is not reached by any run (log 10). -/
def execFset (rd rs1 rs2 : Reg) (fid : FieldId) (idx : Fin 128) (s : State) : Result :=
  let t := s.noteReads [rs1, rs2]
  let d := s.store.ft[fid].desc
  let x := s.reg rs2
  let e := s.store.enumOf d
  unlessFails (admitAccess .set Opcode.fset fid idx s) t <|
    match Fdesc.kind d with
    | some .bool => finishWith rd (withField d idx (s.reg rs1) (x &&& 1)) t
    | some .unsigned => finishWith rd (withField d idx (s.reg rs1) (x &&& mask (Fdesc.width d))) t
    | some .signed => finishWith rd (withField d idx (s.reg rs1) (x &&& mask (Fdesc.width d))) t
    | some .enumExhaustive =>
      unlessFails (admitOrdinal e x) t (finishWith rd (withField d idx (s.reg rs1) (e.disc x.toNat)) t)
    | some .enumPartial =>
      unlessFails (admitOrdinal e x) t (finishWith rd (withField d idx (s.reg rs1) (e.disc x.toNat)) t)
    | none => .fault .unvalidatedDescriptor

end Sys2Proof.Machine
end

