-- ==== Sys2Proof/Machine/Move.lean ====
section
/-! DEFINITION. Data movement (46_move_system.md R180 to R182). Admitted in every phase. -/

namespace Sys2Proof.Machine

/-- MOV (R180). -/
def execMov (rd rs1 : Reg) (s : State) : Result := finishWith rd (s.reg rs1) (s.noteReads [rs1])

/-- LI: the chunk at its place, every other bit cleared (R181). It reads no register. -/
def execLi (rd : Reg) (pos : Fin 8) (imm : BitVec 16) (s : State) : Result :=
  finishWith rd (imm.setWidth Config.dw <<< (16 * pos.val)) s

/-- LIC: one chunk replaced, every other bit of `D[rd]` kept (R182). -/
def execLic (rd : Reg) (pos : Fin 8) (imm : BitVec 16) (s : State) : Result :=
  finishWith rd (insert (s.reg rd) (16 * pos.val) (16 * pos.val + 15) (imm.setWidth Config.dw)) (s.noteReads [rd])

end Sys2Proof.Machine
end

