-- ==== Sys2Proof/Machine/Validator.lean ====
section
/-! DEFINITION. The schema validator of SCOMMIT: checks 1 to 13 (45_schema.md R159) in the order of R162. Each check
runs only when every earlier one passed. -/

namespace Sys2Proof.Machine

/-- A failing check: its number and its two objects (45_schema.md R159, R160). -/
structure SchemaError where
  check : BitVec 8
  obj1 : BitVec 8
  obj2 : BitVec 8
  deriving DecidableEq, Repr

/-- SCHEMA's information value: `{OBJ2, OBJ1, check}` (R160). -/
def SchemaError.info (e : SchemaError) : Data := (e.obj2 ++ e.obj1 ++ e.check : BitVec 24).setWidth Config.dw

/-- An error of check `c` on objects `a` and `b`. -/
def schemaError (c a b : Nat) : SchemaError := ⟨BitVec.ofNat 8 c, BitVec.ofNat 8 a, BitVec.ofNat 8 b⟩

/-- Checks 1 and 2: the latched error, as it was latched (R166). -/
def latchedError (st : SchemaStore) : Option SchemaError :=
  if st.serr.pending then some ⟨st.serr.check, st.serr.obj1, st.serr.obj2⟩ else none

/-- Check 3, NOCONT (R163), then check 4, DEFRANGE (R164). -/
def containerError (st : SchemaStore) : Option SchemaError :=
  if !st.cwSet then some (schemaError 3 0 0)
  else if 2 ^ st.cw.val ≤ st.dflt.toNat then some (schemaError 4 0 0)
  else none

/-- Variant `j` does not fit the backing width: check 5 (R167). -/
def EnumSlot.outOfRange (e : EnumSlot) (j : Nat) : Bool := 2 ^ e.w.val ≤ (e.disc j).toNat

/-- Variant `j` repeats an earlier discriminant: check 6 (R167). -/
def EnumSlot.duplicate (e : EnumSlot) (j : Nat) : Bool := (List.range j).any fun i => e.disc i == e.disc j

/-- The enum claims to be exhaustive and does not have `2^W` variants: check 7 (R167). -/
def EnumSlot.notExhaustive (e : EnumSlot) : Bool := e.exh && e.nvar.val != 2 ^ e.w.val

/-- Checks 5, 6 and 7 of one enum slot, in that order (R162). -/
def enumError (st : SchemaStore) (eid : EnumId) : Option SchemaError :=
  let e := st.et[eid]
  if e.valid then
    match (List.range e.nvar.val).find? e.outOfRange with
    | some j => some (schemaError 5 eid.val j)
    | none =>
      match (List.range e.nvar.val).find? e.duplicate with
      | some j => some (schemaError 6 eid.val j)
      | none => if e.notExhaustive then some (schemaError 7 eid.val 0) else none
  else none

/-- Check 8, FRSVD: a reserved bit or value (R168). -/
def fieldReserved (d : Data) : Bool :=
  Fdesc.reservedSet d || Fdesc.mode d == 0 || Fdesc.kind d == none ||
    (Fdesc.kindBits d != 3 && Fdesc.kindBits d != 4 && Fdesc.eid d != 0) ||
    (!Fdesc.rep d && (Fdesc.count d != 0 || Fdesc.strideBits d != 0)) ||
    (Fdesc.kindBits d != 1 && Fdesc.kindBits d != 2 && Fdesc.kw d != 0)

/-- Check 9, FRANGE (R169). -/
def fieldRange (d : Data) : Bool := Fdesc.hi d < Fdesc.lo d

/-- Check 10, FREPEAT (R170). -/
def fieldRepeat (d : Data) : Bool :=
  Fdesc.rep d && (Fdesc.count d == 0 || (Fdesc.strideBits d != 0 && Fdesc.strideBits d < Fdesc.width d))

/-- Check 11, FBOUNDS: the last instance reaches bit `CW` or beyond (R171). -/
def fieldBounds (cw : Nat) (d : Data) : Bool :=
  cw ≤ Fdesc.lo d + (Fdesc.instances d - 1) * Fdesc.stride d + Fdesc.width d - 1

/-- An enum field does not name a declared enum of its width and of the exhaustiveness `exh` (R172). -/
def enumMismatch (st : SchemaStore) (d : Data) (exh : Bool) : Bool :=
  let e := st.enumOf d
  !e.valid || e.w.val != Fdesc.width d || e.exh != exh

/-- Check 12, FKIND (R172). -/
def fieldKind (st : SchemaStore) (d : Data) : Bool :=
  match Fdesc.kind d with
  | some .bool => Fdesc.width d != 1
  | some .unsigned | some .signed => Fdesc.kw d != Fdesc.width d
  | some .enumExhaustive => enumMismatch st d true
  | some .enumPartial => enumMismatch st d false
  | none => true

/-- Checks 8 to 12 of one field slot, in that order (R162). -/
def fieldError (st : SchemaStore) (fid : FieldId) : Option SchemaError :=
  let f := st.ft[fid]
  if f.valid then
    if fieldReserved f.desc then some (schemaError 8 fid.val 0)
    else if fieldRange f.desc then some (schemaError 9 fid.val 0)
    else if fieldRepeat f.desc then some (schemaError 10 fid.val 0)
    else if fieldBounds st.cw.val f.desc then some (schemaError 11 fid.val 0)
    else if fieldKind st f.desc then some (schemaError 12 fid.val 0)
    else none
  else none

/-- Two descriptors share a bit: an instance of one meets an instance of the other (R173). Two ranges that are not
empty meet when each starts no later than the other ends. -/
def fieldsOverlap (d e : Data) : Bool :=
  (List.range (Fdesc.instances d)).any fun i => (List.range (Fdesc.instances e)).any fun k =>
    Fdesc.loAt d i ≤ Fdesc.hiAt e k && Fdesc.loAt e k ≤ Fdesc.hiAt d i

/-- Field `g` is declared and overlaps the declared field `f`. -/
def overlapsWith (st : SchemaStore) (f g : FieldId) : Bool :=
  st.ft[g].valid && fieldsOverlap st.ft[f].desc st.ft[g].desc

/-- Check 13 for one field `f`: the least declared `g < f` that shares a bit with it (R162, R173). -/
def overlapError (st : SchemaStore) (f : FieldId) : Option SchemaError :=
  if st.ft[f].valid then
    match (List.finRange Config.nf).find? (fun g => decide (g < f) && overlapsWith st f g) with
    | some g => some (schemaError 13 f.val g.val)
    | none => none
  else none

/-- The first failing check, in the order of R162, or none. -/
def firstError (st : SchemaStore) : Option SchemaError :=
  (latchedError st).or <| (containerError st).or <| ((List.finRange Config.ne).findSome? (enumError st)).or <|
    ((List.finRange Config.nf).findSome? (fieldError st)).or <| (List.finRange Config.nf).findSome? (overlapError st)

end Sys2Proof.Machine
end

