-- ==== Sys2Proof/Machine/Schema.lean ====
section
/-! DEFINITION. The schema commands (45_schema.md R150 to R158, R161, R165). None writes a data register. -/

namespace Sys2Proof.Machine

/-- The state with another schema store. -/
def State.setStore (st : SchemaStore) (s : State) : State := { s with store := st }

/-- The state in another schema phase. -/
def State.setPhase (p : Phase) (s : State) : State := { s with phase := p }

/-- SBEGIN: an empty schema store, in CONFIG (R150). Admitted in every phase. -/
def execSbegin (s : State) : Result := finish ((s.setPhase .config).setStore SchemaStore.empty)

/-- The container descriptor declared (R152). -/
def SchemaStore.declareContainer (cw : Nat) (dflt : Data) (st : SchemaStore) : SchemaStore :=
  { st with cwSet := true, cw := Fin.ofNat (Config.dw + 1) cw, dflt := dflt }

/-- SCONT (R152). -/
def execScont (rs1 : Reg) (cw : Nat) (s : State) : Result :=
  let t := s.noteReads [rs1]
  unlessFails (admitIn .config Opcode.scont s) t (finish (t.setStore (s.store.declareContainer cw (s.reg rs1))))

/-- A field slot declared; an earlier declaration is replaced (R153). -/
def SchemaStore.declareField (fid : FieldId) (d : Data) (st : SchemaStore) : SchemaStore :=
  { st with ft := st.ft.set fid ⟨true, d⟩ }

/-- SFIELD (R153). -/
def execSfield (fid : FieldId) (rs1 : Reg) (s : State) : Result :=
  let t := s.noteReads [rs1]
  unlessFails (admitIn .config Opcode.sfield s) t (finish (t.setStore (s.store.declareField fid (s.reg rs1))))

/-- An enum slot declared with no variants; an earlier declaration is discarded (R154). -/
def SchemaStore.declareEnum (eid : EnumId) (w : Nat) (exh : Bool) (st : SchemaStore) : SchemaStore :=
  { st with et := st.et.set eid ⟨true, Fin.ofNat (Config.dw + 1) w, exh, 0, Vector.replicate Config.nv 0⟩ }

/-- SENUM (R154). -/
def execSenum (eid : EnumId) (w : Nat) (exh : Bool) (s : State) : Result :=
  unlessFails (admitIn .config Opcode.senum s) s (finish (s.setStore (s.store.declareEnum eid w exh)))

/-- `latch(c, o1, 0)`: written only if empty, so the first error is kept (R156). -/
def SchemaStore.latch (c : BitVec 8) (o1 : EnumId) (st : SchemaStore) : SchemaStore :=
  if st.serr.pending then st else { st with serr := ⟨c, BitVec.ofNat 8 o1.val, 0⟩ }

/-- A variant appended; its ordinal is the old NVAR (R155). -/
def EnumSlot.append (e : EnumSlot) (h : e.nvar.val < Config.nv) (d : Data) : EnumSlot :=
  { e with nvar := ⟨e.nvar.val + 1, Nat.succ_lt_succ h⟩, vt := e.vt.set e.nvar.val d }

/-- SVAR's effect on the store: SEQ or VARCAP latched, or the variant appended (R155, R157, R158). -/
def SchemaStore.addVariant (eid : EnumId) (d : Data) (st : SchemaStore) : SchemaStore :=
  let e := st.et[eid]
  if !e.valid then st.latch 1 eid
  else if h : e.nvar.val < Config.nv then { st with et := st.et.set eid (e.append h d) }
  else st.latch 2 eid

/-- SVAR: OK even when the latch is written (R155). -/
def execSvar (eid : EnumId) (rs1 : Reg) (s : State) : Result :=
  let t := s.noteReads [rs1]
  unlessFails (admitIn .config Opcode.svar s) t (finish (t.setStore (s.store.addVariant eid (s.reg rs1))))

/-- SCOMMIT: READY, or FAILED with outcome SCHEMA; the store is unchanged either way (R161, R165). -/
def execScommit (s : State) : Result :=
  unlessFails (admitIn .config Opcode.scommit s) s <|
    match firstError s.store with
    | none => finish (s.setPhase .ready)
    | some e => fail ⟨.schema, e.info⟩ (s.setPhase .failed)

end Sys2Proof.Machine
end

