-- ==== Sys2Proof/Machine/System.lean ====
section
/-! DEFINITION. The system commands (46_move_system.md R183, R184). Admitted in every phase. -/

namespace Sys2Proof.Machine

/-- RDCSR: STATUS, STICKY and ERRVAL as they stood before this command (R183). -/
def execRdcsr (rd : Reg) (csr : Csr) (s : State) : Result := finishWith rd (s.csr csr) s

/-- CLRS (R184). -/
def execClrs (s : State) : Result := finish s.clearOutcomes

end Sys2Proof.Machine
end

