-- ==== Sys2Proof/Machine/WidthInt.lean ====
section
/-! DEFINITION. The WidthInteger normaliser and comparator (41_widthint.md R100 to R102). Admitted in every phase. -/

namespace Sys2Proof.Machine

/-- The canonical form of the low `w` bits of `x` (00_scope.md R17, R101). -/
def canonical (x : Data) (w : Nat) : Sign → Data
  | .unsigned => (x.setWidth w).setWidth Config.dw
  | .signed => (x.setWidth w).signExtend Config.dw

/-- `val(x, w, S)`, the logical value of the low `w` bits (R100). -/
def logicalValue (x : Data) (w : Nat) : Sign → Int
  | .unsigned => (x.setWidth w).toNat
  | .signed => (x.setWidth w).toInt

/-- The comparator's result: 0 equal, 1 less, 2 greater (R102). -/
def compareResult (a b : Int) : Data := if a = b then 0 else if a < b then 1 else 2

/-- WNORM (R101). -/
def execWnorm (rd rs1 : Reg) (w : Nat) (sg : Sign) (s : State) : Result :=
  finishWith rd (canonical (s.reg rs1) w sg) (s.noteReads [rs1])

/-- WCMP (R102). -/
def execWcmp (rd rs1 rs2 : Reg) (w : Nat) (sg : Sign) (s : State) : Result :=
  finishWith rd (compareResult (logicalValue (s.reg rs1) w sg) (logicalValue (s.reg rs2) w sg))
    (s.noteReads [rs1, rs2])

end Sys2Proof.Machine
end

