-- ==== Sys2Proof/Machine/Dispatch.lean ====
section
/-! DEFINITION. The meaning of every command, one arm per constructor of `Instr`. -/

namespace Sys2Proof.Machine

def exec (i : Instr) (s : State) : Host.Outcome State Fault Refusal :=
  match i with
  | .mov rd rs1 => Sys2Proof.Machine.execMov rd rs1 s
  | .li rd pos imm => Sys2Proof.Machine.execLi rd pos imm s
  | .lic rd pos imm => Sys2Proof.Machine.execLic rd pos imm s
  | .mask rd w => Sys2Proof.Machine.execMask rd w s
  | .rmask rd lo hi => Sys2Proof.Machine.execRmask rd lo hi s
  | .extr rd rs1 lo hi => Sys2Proof.Machine.execExtr rd rs1 lo hi s
  | .ins rd rs1 rs2 lo hi => Sys2Proof.Machine.execIns rd rs1 rs2 lo hi s
  | .sext rd rs1 w => Sys2Proof.Machine.execSext rd rs1 w s
  | .wnorm rd rs1 w sg => Sys2Proof.Machine.execWnorm rd rs1 w sg s
  | .wcmp rd rs1 rs2 w sg => Sys2Proof.Machine.execWcmp rd rs1 rs2 w sg s
  | .cnew rd => Sys2Proof.Machine.execCnew rd s
  | .cload rd rs1 => Sys2Proof.Machine.execCload rd rs1 s
  | .fget rd rs1 fid idx => Sys2Proof.Machine.execFget rd rs1 fid idx s
  | .fset rd rs1 rs2 fid idx => Sys2Proof.Machine.execFset rd rs1 rs2 fid idx s
  | .edec rd rs1 eid => Sys2Proof.Machine.execEdec rd rs1 eid s
  | .eenc rd rs1 eid => Sys2Proof.Machine.execEenc rd rs1 eid s
  | .sbegin => Sys2Proof.Machine.execSbegin s
  | .scont rs1 cw => Sys2Proof.Machine.execScont rs1 cw s
  | .sfield fid rs1 => Sys2Proof.Machine.execSfield fid rs1 s
  | .senum eid w exh => Sys2Proof.Machine.execSenum eid w exh s
  | .svar eid rs1 => Sys2Proof.Machine.execSvar eid rs1 s
  | .scommit => Sys2Proof.Machine.execScommit s
  | .rdcsr rd csr => Sys2Proof.Machine.execRdcsr rd csr s
  | .clrs => Sys2Proof.Machine.execClrs s

end Sys2Proof.Machine
end

