-- ==== Sys2Proof/Machine/HostPort.lean ====
section
/-! DEFINITION. The host port (20_memory.md R50 to R58): the accesses it takes, the host operations they stand for
(00_scope.md R11), and what each does. -/

namespace Sys2Proof.Machine

/-- The host operations (00_scope.md R11), and the write that the map calls "ignored" (20_memory.md R54; log 13). -/
inductive HostOp where
  | cmd (w : Word)
  | regWrite (n : Reg) (k : Fin 4) (v : Word)
  | regRead (n : Reg) (k : Fin 4)
  | csrRead (a : BitVec 12)
  | stickyClear (v : Word)
  | ignoredWrite
  deriving DecidableEq, Repr

/-- The decoded address bits `A[11:0]`; higher bits are not decoded (20_memory.md R53). -/
def offsetOf (addr : Nat) : BitVec 12 := BitVec.ofNat 12 addr

/-- An access of the platform at an absolute address, as a byte address counted from `BFCE_BASE` (20_memory.md R58). That
an address below the base is none of the engine's is the model's choice: DESIGN CHOICE, log 19. No step uses this. -/
def fromBase (addr : Nat) : Option Nat := if Config.bfceBase ≤ addr then some (addr - Config.bfceBase) else none

/-- The access is an aligned 32-bit one: address a multiple of 4, all four lanes enabled (20_memory.md R52). -/
def alignedWord (addr : Nat) (lanes : BitVec 4) : Bool := addr % 4 == 0 && lanes == 0xF#4

/-- The offset lies in the data-register window, 0x100 to 0x1FF (20_memory.md R54). -/
def inRegWindow (a : BitVec 12) : Bool := a.extractLsb' 8 4 == 1#4

/-- `n` of the offset `0x100 + 16n + 4k` (20_memory.md R54). -/
def regOfOffset (a : BitVec 12) : Reg := (a.extractLsb' 4 4).toFin

/-- `k` of the offset `0x100 + 16n + 4k`, and of `0x020 + 4k` (20_memory.md R54). -/
def wordOfOffset (a : BitVec 12) : Fin 4 := (a.extractLsb' 2 2).toFin

/-- The operation of a read (20_memory.md R54). -/
def readOp (a : BitVec 12) : HostOp :=
  if inRegWindow a then .regRead (regOfOffset a) (wordOfOffset a) else .csrRead a

/-- The operation of a write (20_memory.md R54). -/
def writeOp (a : BitVec 12) (v : Word) : HostOp :=
  if inRegWindow a then .regWrite (regOfOffset a) (wordOfOffset a) v
  else if a = 0x000 then .cmd v
  else if a = 0x008 then .stickyClear v
  else .ignoredWrite

/-- The operation an access stands for; none for an access the port does not define (20_memory.md R52, R54). -/
def HostAccess.op : HostAccess → Option HostOp
  | .read addr lanes => if alignedWord addr lanes then some (readOp (offsetOf addr)) else none
  | .write addr lanes v => if alignedWord addr lanes then some (writeOp (offsetOf addr) v) else none

/-- The word a read outside the data-register window returns: a CSR word, and 0 for CMD and every reserved offset
(20_memory.md R54). -/
def State.csrWord (s : State) (a : BitVec 12) : Word :=
  if a = 0x004 then s.status
  else if a = 0x008 then s.sticky.setWidth 32
  else if a = 0x00C then Config.idValue
  else if a = 0x010 then Config.versionValue
  else if a = 0x014 then Config.capValue
  else if a.extractLsb' 4 8 = 0x02 then wordOf s.errval (wordOfOffset a)
  else 0

/-- The state with the response of a host operation (00_scope.md R11; log 5). -/
def State.respond (r : Option Word) (s : State) : State := { s with response := r }

/-- Execute a command word: the command it decodes to, or the outcome ILLEGAL (30_encoding.md R78, R79). -/
def runCommand (w : Word) (s : State) : Result :=
  match decode w with
  | .ok i => exec i s
  | .error _ => failIllegal w s

/-- The response of a command is the new STATUS (00_scope.md R11). -/
def withStatusResponse : Result → Result
  | .next t => .next (t.respond (some t.status))
  | .fault r => .fault r
  | .refused r => .refused r

/-- One host operation (00_scope.md R11, 20_memory.md R54, R55). -/
def hostOp (op : HostOp) (s : State) : Result :=
  match op with
  | .cmd w => withStatusResponse (runCommand w s)
  | .regWrite n k v => .next ((s.setRegWord n k v).respond none)
  | .regRead n k =>
    .next ((if s.wordDefined n k then s else s.markUninit n).respond (some (wordOf (s.reg n) k)))
  | .csrRead a => .next (s.respond (some (s.csrWord a)))
  | .stickyClear v => .next ((s.clearSticky v).respond none)
  | .ignoredWrite => .next (s.respond none)

/-- Reset between two host operations: every piece of the machine at its reset value (70_reset_and_hazards.md R210).
What the outside still has to send and the run's `UninitRead` mark are not the machine's and stay (log 7). -/
def resetEvent (s : State) : State := { State.reset with pending := s.pending, uninit := s.uninit }

/-- One host event, already taken from the queue. -/
def hostEvent (ev : HostEvent) (s : State) : Result :=
  match ev with
  | .reset => .next (resetEvent s)
  | .access a =>
    match a.op with
    | some op => hostOp op s
    | none => .fault .hostAccessRefused

/-- The state with its queue of host events replaced. -/
def State.setPending (q : List HostEvent) (s : State) : State := { s with pending := q }

/-- The host's write of a command word to CMD (20_memory.md R54). -/
def cmdWrite (w : Word) : HostEvent := .access (.write 0x000 0xF#4 w)

end Sys2Proof.Machine
end

