-- ==== Sys2Proof/Machine/Step.lean ====
section
/-! DEFINITION. One step: the next host event, or nothing when none waits. -/

namespace Sys2Proof.Machine

/-- One step of the machine (00_scope.md R10): the oldest host event is taken from the queue and performed. With none
waiting the engine is idle and nothing changes (60_exceptions.md R206; log 6). -/
def step (s : State) : Host.Outcome State Fault Refusal :=
  match s.pending with
  | [] => .next s
  | ev :: rest => hostEvent ev (s.setPending rest)

/-- `s` with a command word as the next host event, so that the next step executes it (log 4). The word is numbered as
spec/opcode_table.json numbers it. -/
def State.withFetchWord (s : State) (nbits w : Nat) : State :=
  s.setPending (cmdWrite (BitVec.ofNat 32 (w % 2 ^ nbits)) :: s.pending)

end Sys2Proof.Machine
end

