-- ==== Sys2Proof/Machine/Assembler.lean ====
section
/-! DEFINITION. The assembler (30_encoding.md R81 to R84): pseudo-instructions and their expansions, and the reading of
one line of assembly. A line is a list of characters; a line the rules reject gives no words (R83). -/

namespace Sys2Proof.Machine

/-! ## Pseudo-instructions (R84) -/

/-- The pseudo-instructions. LDESC carries the descriptor its operands pack. -/
inductive Pseudo where
  | craw (rd rs1 : Reg)
  | clr (rd : Reg)
  | li32 (rd : Reg) (imm : BitVec 32)
  | li64 (rd : Reg) (imm : BitVec 64)
  | li128 (rd : Reg) (imm : Data)
  | ldesc (rd : Reg) (desc : BitVec 64)
  deriving DecidableEq, Repr

/-- The 16-bit chunk `k` of a constant. -/
def chunk {n : Nat} (imm : BitVec n) (k : Fin 8) : BitVec 16 := imm.extractLsb' (16 * k.val) 16

/-- LI of chunk 0, then LIC of each further chunk (R84). -/
def loadChunks {n : Nat} (rd : Reg) (imm : BitVec n) (ks : List (Fin 8)) : List Instr :=
  .li rd 0 (chunk imm 0) :: ks.map fun k => .lic rd k (chunk imm k)

/-- The expansion, always in full and in the order of R84. -/
def Pseudo.expand : Pseudo → List Instr
  | .craw rd rs1 => [.mov rd rs1]
  | .clr rd => [.li rd 0 0]
  | .li32 rd imm => loadChunks rd imm [1]
  | .li64 rd imm => loadChunks rd imm [1, 2, 3]
  | .li128 rd imm => loadChunks rd imm [1, 2, 3, 4, 5, 6, 7]
  | .ldesc rd desc => loadChunks rd desc [1, 2, 3]

/-- The FDESC of 10_state.md R35 from its fields, its low 64 bits. -/
def packFdesc (lo hi : Fin 128) (mode : BitVec 2) (kind : BitVec 3) (eid : EnumId) (rep : Bool)
    (count stride kw : BitVec 8) : BitVec 64 :=
  0#8 ++ kw ++ stride ++ count ++ 0#3 ++ BitVec.ofBool rep ++ BitVec.ofFin (w := 4) eid ++ 0#1 ++ kind ++ 0#2 ++ mode ++
    0#1 ++ BitVec.ofFin (w := 7) hi ++ 0#1 ++ BitVec.ofFin (w := 7) lo

/-! ## Operands (R81) -/

/-- The value of a digit in a base. The line is in lower case. -/
def digitOf (base : Nat) (c : Char) : Option Nat :=
  let v := if '0' ≤ c && c ≤ '9' then c.toNat - 48 else if 'a' ≤ c && c ≤ 'f' then c.toNat - 87 else base
  if v < base then some v else none

/-- Digits with single separators `_` between them (R81; log 17). -/
def digits (base : Nat) : Nat → Bool → List Char → Option Nat
  | acc, afterDigit, [] => if afterDigit then some acc else none
  | acc, afterDigit, c :: cs =>
    if c = '_' then (if afterDigit then digits base acc false cs else none)
    else
      match digitOf base c with
      | some d => digits base (acc * base + d) true cs
      | none => none

/-- A decimal number, or a hexadecimal one with the prefix `0x` (R81). -/
def number : List Char → Option Nat
  | '0' :: 'x' :: cs => digits 16 0 false cs
  | cs => digits 10 0 false cs

/-- A number below `n`; an operand that does not fit its field is rejected (R83). -/
def below (n : Nat) (v : Option Nat) : Option (Fin n) :=
  match v with
  | some v => if h : v < n then some ⟨v, h⟩ else none
  | none => none

/-- An index after a letter: `d<n>`, `f<n>`, `e<n>` (R81). That `n` is read as any decimal number is, with leading zeros
and `_` between digits, is the model's choice: DESIGN CHOICE, log 17. -/
def indexed (n : Nat) (letter : Char) : List Char → Option (Fin n)
  | c :: cs => if c = letter then below n (digits 10 0 false cs) else none
  | [] => none

/-- A register operand. -/
def regOperand : List Char → Option Reg := indexed Config.nreg 'd'

/-- A field id operand. -/
def fidOperand : List Char → Option FieldId := indexed Config.nf 'f'

/-- An enum id operand. -/
def eidOperand : List Char → Option EnumId := indexed Config.ne 'e'

/-- A width operand, 1 to 128 (R81). -/
def widthOperand (cs : List Char) : Option Nat :=
  match number cs with
  | some v => if widthOk v then some v else none
  | none => none

/-- A number operand below `n`. -/
def numOperand (n : Nat) (cs : List Char) : Option (Fin n) := below n (number cs)

/-- A bit range; `lo > hi` is rejected (R83). -/
def rangeOperand (lo hi : List Char) : Option (Fin 128 × Fin 128) :=
  match numOperand 128 lo, numOperand 128 hi with
  | some l, some h => if rangeOk l h then some (l, h) else none
  | _, _ => none

/-- `u` or `s` (R81). -/
def signOperand : List Char → Option Sign
  | ['u'] => some .unsigned
  | ['s'] => some .signed
  | _ => none

/-- `exh` or `part` (R81). -/
def exhOperand : List Char → Option Bool
  | ['e', 'x', 'h'] => some true
  | ['p', 'a', 'r', 't'] => some false
  | _ => none

/-- A CSR by name or by number 0 to 5 (R81). -/
def csrOperand : List Char → Option Csr
  | ['i', 'd'] => some .id
  | ['v', 'e', 'r', 's', 'i', 'o', 'n'] => some .version
  | ['c', 'a', 'p'] => some .cap
  | ['s', 't', 'a', 't', 'u', 's'] => some .status
  | ['s', 't', 'i', 'c', 'k', 'y'] => some .sticky
  | ['e', 'r', 'r', 'v', 'a', 'l'] => some .errval
  | cs => (number cs).bind csrOfNat

/-- An optional last operand with its default (R82). -/
def optional {α : Type} (dflt : α) (parse : List Char → Option α) : List (List Char) → Option α
  | [] => some dflt
  | [cs] => parse cs
  | _ => none

/-! ## Commands (R82) -/

/-- The move and bit-range commands. -/
def assembleMoveOrRange (m : List Char) (ops : List (List Char)) : Option Instr :=
  match m, ops with
  | ['m', 'o', 'v'], [d, a] => do return .mov (← regOperand d) (← regOperand a)
  | ['l', 'i'], d :: i :: rest => do
    return .li (← regOperand d) (← optional 0 (numOperand 8) rest) (BitVec.ofFin (← numOperand (2 ^ 16) i))
  | ['l', 'i', 'c'], [d, i, p] => do
    return .lic (← regOperand d) (← numOperand 8 p) (BitVec.ofFin (← numOperand (2 ^ 16) i))
  | ['m', 'a', 's', 'k'], [d, w] => do return .mask (← regOperand d) (← widthOperand w)
  | ['r', 'm', 'a', 's', 'k'], [d, l, h] => do
    let r ← rangeOperand l h
    return .rmask (← regOperand d) r.1 r.2
  | ['e', 'x', 't', 'r'], [d, a, l, h] => do
    let r ← rangeOperand l h
    return .extr (← regOperand d) (← regOperand a) r.1 r.2
  | ['i', 'n', 's'], [d, a, b, l, h] => do
    let r ← rangeOperand l h
    return .ins (← regOperand d) (← regOperand a) (← regOperand b) r.1 r.2
  | ['s', 'e', 'x', 't'], [d, a, w] => do return .sext (← regOperand d) (← regOperand a) (← widthOperand w)
  | _, _ => none

/-- The WidthInteger, container, field-access and enum commands. -/
def assembleAccessor (m : List Char) (ops : List (List Char)) : Option Instr :=
  match m, ops with
  | ['w', 'n', 'o', 'r', 'm'], [d, a, w, s] => do
    return .wnorm (← regOperand d) (← regOperand a) (← widthOperand w) (← signOperand s)
  | ['w', 'c', 'm', 'p'], [d, a, b, w, s] => do
    return .wcmp (← regOperand d) (← regOperand a) (← regOperand b) (← widthOperand w) (← signOperand s)
  | ['c', 'n', 'e', 'w'], [d] => do return .cnew (← regOperand d)
  | ['c', 'l', 'o', 'a', 'd'], [d, a] => do return .cload (← regOperand d) (← regOperand a)
  | ['f', 'g', 'e', 't'], d :: a :: f :: rest => do
    return .fget (← regOperand d) (← regOperand a) (← fidOperand f) (← optional 0 (numOperand 128) rest)
  | ['f', 's', 'e', 't'], d :: a :: b :: f :: rest => do
    return .fset (← regOperand d) (← regOperand a) (← regOperand b) (← fidOperand f)
      (← optional 0 (numOperand 128) rest)
  | ['e', 'd', 'e', 'c'], [d, a, e] => do return .edec (← regOperand d) (← regOperand a) (← eidOperand e)
  | ['e', 'e', 'n', 'c'], [d, a, e] => do return .eenc (← regOperand d) (← regOperand a) (← eidOperand e)
  | _, _ => none

/-- The schema and system commands. -/
def assembleSchemaOrSystem (m : List Char) (ops : List (List Char)) : Option Instr :=
  match m, ops with
  | ['s', 'b', 'e', 'g', 'i', 'n'], [] => some .sbegin
  | ['s', 'c', 'o', 'n', 't'], [a, w] => do return .scont (← regOperand a) (← widthOperand w)
  | ['s', 'f', 'i', 'e', 'l', 'd'], [f, a] => do return .sfield (← fidOperand f) (← regOperand a)
  | ['s', 'e', 'n', 'u', 'm'], [e, w, x] => do
    return .senum (← eidOperand e) (← widthOperand w) (← exhOperand x)
  | ['s', 'v', 'a', 'r'], [e, a] => do return .svar (← eidOperand e) (← regOperand a)
  | ['s', 'c', 'o', 'm', 'm', 'i', 't'], [] => some .scommit
  | ['r', 'd', 'c', 's', 'r'], [d, c] => do return .rdcsr (← regOperand d) (← csrOperand c)
  | ['c', 'l', 'r', 's'], [] => some .clrs
  | _, _ => none

/-! ## Pseudo-instructions as text (R84) -/

/-- The access mode of LDESC: `r`, `w` or `rw` (R84, 10_state.md R37). -/
def modeOperand : List Char → Option (BitVec 2)
  | ['r'] => some 1
  | ['w'] => some 2
  | ['r', 'w'] => some 3
  | _ => none

/-- The kind of LDESC: `bool`, `u`, `s`, `exh` or `part` (R84, 10_state.md R38). -/
def kindOperand : List Char → Option (BitVec 3)
  | ['b', 'o', 'o', 'l'] => some 0
  | ['u'] => some 1
  | ['s'] => some 2
  | ['e', 'x', 'h'] => some 3
  | ['p', 'a', 'r', 't'] => some 4
  | _ => none

/-- An option `key=value` at the head of the operands: its value if it stands there, and the operands after it. -/
def takeOption (key : List Char) : List (List Char) → Option (List Char) × List (List Char)
  | o :: rest => if key.isPrefixOf o then (some (o.drop key.length), rest) else (none, o :: rest)
  | [] => (none, [])

/-- The value of an option that may be absent, or its default. -/
def optionValue {α : Type} (dflt : α) (parse : List Char → Option α) : Option (List Char) → Option α
  | none => some dflt
  | some cs => parse cs

/-- An enum id as an option's value: `e<n>` or the number (log 17). -/
def eidOption (cs : List Char) : Option EnumId := (eidOperand cs).or (numOperand Config.ne cs)

/-- The value of an 8-bit descriptor field. -/
def byteOption (cs : List Char) : Option (BitVec 8) := (numOperand (2 ^ 8) cs).map BitVec.ofFin

/-- The descriptor of LDESC's operands after `rd`. The options stand in the order `kw`, `eid`, `count`, `stride`, each
at most once; `stride` needs `count`; giving `count` sets REP (R84; log 17). A missing `kw` of kind `u` or `s` packs KW = 0
and a missing `eid` of kind `exh` or `part` packs EID = 0: DESIGN CHOICE, log 17. -/
def fdescOperands : List (List Char) → Option (BitVec 64)
  | l :: h :: m :: k :: opts => do
    let r ← rangeOperand l h
    let (kw, opts) := takeOption ['k', 'w', '='] opts
    let (eid, opts) := takeOption ['e', 'i', 'd', '='] opts
    let (count, opts) := takeOption ['c', 'o', 'u', 'n', 't', '='] opts
    let (stride, opts) := takeOption ['s', 't', 'r', 'i', 'd', 'e', '='] opts
    if opts ≠ [] ∨ (stride.isSome ∧ count.isNone) then none
    let mode ← modeOperand m
    let kind ← kindOperand k
    let e ← optionValue 0 eidOption eid
    let c ← optionValue 0 byteOption count
    let st ← optionValue 0 byteOption stride
    let kw ← optionValue 0 byteOption kw
    return packFdesc r.1 r.2 mode kind e count.isSome c st kw
  | _ => none

/-- A pseudo-instruction and its operands. -/
def assemblePseudo (m : List Char) (ops : List (List Char)) : Option Pseudo :=
  match m, ops with
  | ['c', 'r', 'a', 'w'], [d, a] => do return .craw (← regOperand d) (← regOperand a)
  | ['c', 'l', 'r'], [d] => do return .clr (← regOperand d)
  | ['l', 'i', '3', '2'], [d, i] => do return .li32 (← regOperand d) (BitVec.ofFin (← numOperand (2 ^ 32) i))
  | ['l', 'i', '6', '4'], [d, i] => do return .li64 (← regOperand d) (BitVec.ofFin (← numOperand (2 ^ 64) i))
  | ['l', 'i', '1', '2', '8'], [d, i] => do return .li128 (← regOperand d) (BitVec.ofFin (← numOperand (2 ^ Config.dw) i))
  | ['l', 'd', 'e', 's', 'c'], d :: rest => do return .ldesc (← regOperand d) (← fdescOperands rest)
  | _, _ => none

/-! ## Lines (R81) -/

/-- A space or a tab. -/
def isBlank (c : Char) : Bool := c == ' ' || c == '\t'

/-- Spaces taken off both ends. -/
def strip (cs : List Char) : List Char := ((cs.dropWhile isBlank).reverse.dropWhile isBlank).reverse

/-- The pieces of a text between commas. -/
def splitCommas : List Char → List (List Char)
  | [] => [[]]
  | c :: cs =>
    match c == ',', splitCommas cs with
    | true, ps => [] :: ps
    | false, p :: ps => (c :: p) :: ps
    | false, [] => [[c]]

/-- The operands after a mnemonic: none for an empty text. -/
def operandsOf (cs : List Char) : List (List Char) :=
  if strip cs = [] then [] else (splitCommas cs).map strip

/-- The commands of a mnemonic and its operands. -/
def assembleParts (m : List Char) (ops : List (List Char)) : Option (List Instr) :=
  match ((assembleMoveOrRange m ops).or (assembleAccessor m ops)).or (assembleSchemaOrSystem m ops) with
  | some i => some [i]
  | none => (assemblePseudo m ops).map Pseudo.expand

/-- The commands of one line: the comment after `;` dropped, letters in either case, an empty line giving none (R81;
log 17). -/
def assembleInstrs (line : List Char) : Option (List Instr) :=
  let text := strip ((line.takeWhile (· != ';')).map Char.toLower)
  if text = [] then some []
  else assembleParts (text.takeWhile (!isBlank ·)) (operandsOf (text.dropWhile (!isBlank ·)))

/-- The command words of one line; none for a line the assembler rejects (R83). -/
def assemble (line : List Char) : Option (List Word) := (assembleInstrs line).map (List.map encode)

end Sys2Proof.Machine
end

