-- ==== Sys2Proof/Machine/Strict.lean ====
section
/-! DEFINITION. The strict step: `step`, stopping with the model fault `UninitRead(n)` where 60_exceptions.md R207 has
a model stop. `step` itself goes on as the hardware does (log 2). -/

namespace Sys2Proof.Machine

/-- Stop with `UninitRead(n)` if the mark is set (R207). -/
def faultIfMarked : Result → Result
  | .next t =>
    match t.uninit with
    | some n => .fault (.uninitRead n)
    | none => .next t
  | .fault r => .fault r
  | .refused r => .refused r

/-- One step under R207: a state whose mark is set is faulted for good. -/
def stepStrict (s : State) : Result :=
  match s.uninit with
  | some n => .fault (.uninitRead n)
  | none => faultIfMarked (step s)

end Sys2Proof.Machine
end

