-- ==== Sys2Proof/Safety.lean ====
section
/-! DEFINITION. What claims are stated in: safe runs, what a command changes and leaves alone, the invariant of every
reachable state, and the spec's own notions (valid schema, canonical value, least failing check) written from the
spec's words, not from the machine's functions. -/

namespace Sys2Proof.Safety

open Sys2Proof.Machine

/-! ## Safe runs -/

/-- A run is safe so far: no command or host read has read an undefined word (60_exceptions.md R207). What a safe run
computes does not depend on what the data registers hold at reset (log 1, 2). -/
def Clean (s : State) : Prop := s.uninit = none

/-- `Dn` has been written whole since reset (10_state.md R22). -/
def Defined (s : State) (n : Reg) : Prop := ∀ k < 4, s.defined[n].getLsbD k = true

/-- The first of the named registers with an undefined word (60_exceptions.md R207). -/
def firstUndefined (s : State) (ns : List Reg) : Option Reg :=
  ns.find? fun n => decide (∃ k : Fin 4, s.defined[n].getLsbD k.val = false)

/-- The column "registers read" of 60_exceptions.md R196. -/
def registersRead : Instr → List Reg
  | .mov _ rs1 | .extr _ rs1 _ _ | .sext _ rs1 _ | .wnorm _ rs1 _ _ | .cload _ rs1 | .fget _ rs1 _ _ | .edec _ rs1 _
  | .eenc _ rs1 _ | .scont rs1 _ | .sfield _ rs1 | .svar _ rs1 => [rs1]
  | .lic rd _ _ => [rd]
  | .ins _ rs1 rs2 _ _ | .wcmp _ rs1 rs2 _ _ | .fset _ rs1 rs2 _ _ => [rs1, rs2]
  | .li _ _ _ | .mask _ _ | .rmask _ _ _ | .cnew _ | .sbegin | .senum _ _ _ | .scommit | .rdcsr _ _ | .clrs => []

/-- The column "admitted in" of 60_exceptions.md R196: the one phase that admits the command, none for "all". -/
def admittedIn : Instr → Option Phase
  | .cnew _ | .cload _ _ | .fget _ _ _ _ | .fset _ _ _ _ _ | .edec _ _ _ | .eenc _ _ _ => some .ready
  | .scont _ _ | .sfield _ _ | .senum _ _ _ | .svar _ _ | .scommit => some .config
  | .mov _ _ | .li _ _ _ | .lic _ _ _ | .mask _ _ | .rmask _ _ _ | .extr _ _ _ _ | .ins _ _ _ _ _ | .sext _ _ _
  | .wnorm _ _ _ _ | .wcmp _ _ _ _ _ | .sbegin | .rdcsr _ _ | .clrs => none

/-- The column "outcomes besides OK and ILLEGAL" of 60_exceptions.md R196. -/
def outcomes : Instr → List Code
  | .cnew _ | .cload _ _ | .scont _ _ | .sfield _ _ | .svar _ _ | .senum _ _ _ => [.phase]
  | .fget _ _ _ _ => [.phase, .nofield, .access, .index, .unmatched]
  | .fset _ _ _ _ _ => [.phase, .nofield, .access, .index, .badvar]
  | .edec _ _ _ => [.phase, .nofield, .unmatched]
  | .eenc _ _ _ => [.phase, .nofield, .badvar]
  | .scommit => [.phase, .schema]
  | .mov _ _ | .li _ _ _ | .lic _ _ _ | .mask _ _ | .rmask _ _ _ | .extr _ _ _ _ | .ins _ _ _ _ _ | .sext _ _ _
  | .wnorm _ _ _ _ | .wcmp _ _ _ _ _ | .sbegin | .rdcsr _ _ | .clrs => []

/-- The destination register `rd` of a command that has one (30_encoding.md R74). -/
def destination : Instr → Option Reg
  | .mov rd _ | .li rd _ _ | .lic rd _ _ | .mask rd _ | .rmask rd _ _ | .extr rd _ _ _ | .ins rd _ _ _ _
  | .sext rd _ _ | .wnorm rd _ _ _ | .wcmp rd _ _ _ _ | .cnew rd | .cload rd _ | .fget rd _ _ _ | .fset rd _ _ _ _
  | .edec rd _ _ | .eenc rd _ _ | .rdcsr rd _ => some rd
  | .sbegin | .scont _ _ | .sfield _ _ | .senum _ _ _ | .svar _ _ | .scommit | .clrs => none

/-- The number of an outcome code (60_exceptions.md R191). -/
def codeNumber : Code → Nat
  | .ok => 0
  | .unmatched => 1
  | .index => 2
  | .access => 3
  | .nofield => 4
  | .badvar => 5
  | .phase => 6
  | .illegal => 7
  | .schema => 8

/-- The number of a schema phase (10_state.md R32). -/
def phaseNumber : Phase → Nat
  | .config => 0
  | .ready => 1
  | .failed => 2

/-! ## What a command changes -/

/-- The data registers and their defined bits are as before. -/
def SameRegs (s t : State) : Prop := t.regs = s.regs ∧ t.defined = s.defined

/-- Only `D[rd]` was written, and whole: every other register and its defined bits are as before, and all four defined
bits of `rd` are set (10_state.md R22). -/
def OnlyRegWritten (s t : State) (rd : Reg) : Prop :=
  (∀ r, r ≠ rd → t.reg r = s.reg r ∧ t.defined[r] = s.defined[r]) ∧ Defined t rd

/-- The schema phase and the schema store are as before. -/
def SameSchema (s t : State) : Prop := t.phase = s.phase ∧ t.store = s.store

/-- STICKY and ERRVAL are as before. -/
def SameRecord (s t : State) : Prop := t.sticky = s.sticky ∧ t.errval = s.errval

/-- The input still to come and the latest response are as before: a command touches neither. -/
def SamePort (s t : State) : Prop := t.pending = s.pending ∧ t.response = s.response

/-- The mark after a command that reads the registers `ns`: the first mark of the run is kept, else the first undefined
register read is marked (60_exceptions.md R207). That a mark stands for the model fault is log 2; that of two undefined
registers the first of `ns` is named is log 3. -/
def MarkAfter (s t : State) (ns : List Reg) : Prop := t.uninit = s.uninit.or (firstUndefined s ns)

/-- The completion update of a failing outcome (60_exceptions.md R192): CODE, one STICKY bit set and the others kept,
ERRVAL. -/
def Recorded (s t : State) (c : Code) (info : Nat) : Prop :=
  t.code = c ∧ (∀ b < 16, t.sticky.getLsbD b = (s.sticky.getLsbD b || decide (b = codeNumber c))) ∧
    t.errval.toNat = info

/-- The command completed with OK and wrote `D[rd]` and nothing else; its value is said beside this. -/
def WroteReg (s t : State) (rd : Reg) (ns : List Reg) : Prop :=
  t.code = .ok ∧ OnlyRegWritten s t rd ∧ SameSchema s t ∧ SameRecord s t ∧ SamePort s t ∧ MarkAfter s t ns

/-- The command failed with outcome `c` and wrote nothing but the completion update (60_exceptions.md R194). -/
def FailedWith (s t : State) (c : Code) (info : Nat) (ns : List Reg) : Prop :=
  Recorded s t c info ∧ SameRegs s t ∧ SameSchema s t ∧ SamePort s t ∧ MarkAfter s t ns

/-- UNMATCHED: as any failing outcome, but `D[rd]` is written with the raw discriminant (60_exceptions.md R194). -/
def FailedUnmatched (s t : State) (rd : Reg) (raw : Nat) (ns : List Reg) : Prop :=
  Recorded s t .unmatched raw ∧ OnlyRegWritten s t rd ∧ (t.reg rd).toNat = raw ∧ SameSchema s t ∧ SamePort s t ∧
    MarkAfter s t ns

/-- The command completed with OK and changed the schema store, or the phase, and nothing else; how is said beside
this. -/
def ChangedSchema (s t : State) (ns : List Reg) : Prop :=
  t.code = .ok ∧ SameRegs s t ∧ SameRecord s t ∧ SamePort s t ∧ MarkAfter s t ns

/-- PHASE raised: ERRVAL has PHASE in bits [1:0] and the opcode in bits [13:8] (60_exceptions.md R193). -/
def FailedPhase (s t : State) (opcode : Nat) (ns : List Reg) : Prop :=
  FailedWith s t .phase (256 * opcode + phaseNumber s.phase) ns

/-! ## Encodings (30_encoding.md R66, R67, R74, R78, R79) -/

/-- The field of `n` bits at bit `k` of a word. -/
def field (w : Word) (k n : Nat) : Nat := w.toNat / 2 ^ k % 2 ^ n

/-- A register field at bit `k`. -/
def fieldReg (w : Word) (k : Nat) : Reg := Fin.ofNat 16 (field w k 4)

/-- A 7-bit position field at bit `k`. -/
def fieldPos (w : Word) (k : Nat) : Fin 128 := Fin.ofNat 128 (field w k 7)

/-- The words of a command are exactly those that agree with `mtch` under `mask` and meet the value condition; each
decodes to the command `build` reads from its fields. Every other word of the same opcode is ILLEGAL. -/
def Encoded (mtch mask : Word) (cond : Word → Prop) (build : Word → Instr) : Prop :=
  ∀ w : Word, field w 26 6 = field mtch 26 6 →
    ((w &&& mask = mtch ∧ cond w) → decode w = .ok (build w)) ∧
      (¬(w &&& mask = mtch ∧ cond w) → ∀ i, decode w ≠ .ok i)

/-- No value condition. -/
def anyWord (_ : Word) : Prop := True

/-- The value condition `uint(A) ≤ uint(B)` (R79). -/
def orderedRange (w : Word) : Prop := field w 7 7 ≤ field w 0 7

/-- The CSR with a number 0 to 5 (10_state.md R25). -/
def csrNumbered (n : Nat) : Csr :=
  if n = 0 then .id else if n = 1 then .version else if n = 2 then .cap else if n = 3 then .status
  else if n = 4 then .sticky else .errval

/-- STATUS as a number: CODE in [3:0], PHASE in [5:4], SERRP in [8] (10_state.md R29). -/
def statusNumber (s : State) : Nat :=
  codeNumber s.code + 16 * phaseNumber s.phase + (if s.store.serr.check = 0 then 0 else 256)

/-! ## Values -/

/-- The `w`-bit pattern at bit `lo` of a register, as a number: `uint(x[lo+w-1:lo])` (00_scope.md R14, R16). -/
def pattern (x : Data) (lo w : Nat) : Nat := x.toNat / 2 ^ lo % 2 ^ w

/-- The logical value of the low `w` bits (41_widthint.md R100), by arithmetic. -/
def valueOf (x : Data) (w : Nat) (sg : Sign) : Int :=
  let n := x.toNat % 2 ^ w
  if sg = .signed ∧ 2 ^ (w - 1) ≤ n then (n : Int) - 2 ^ w else n

/-- The register holds the canonical form of a WidthInteger (00_scope.md R17): every bit from `w` up is zero, or for a
signed value a copy of bit `w-1`. -/
def Canonical (x : Data) (w : Nat) (sg : Sign) : Prop :=
  ∀ j, w ≤ j → j < 128 → x.getLsbD j = (decide (sg = .signed) && x.getLsbD (w - 1))

/-- The container in a register is well formed: its bits at and above `CW` are zero (44_container.md R143). -/
def ContainerOk (st : SchemaStore) (c : Data) : Prop := c.toNat < 2 ^ st.cw.val

/-! ## The valid schema (45_schema.md R174, from the checks of R159) -/

/-- The reserved bits of FDESC (10_state.md R35). -/
def reservedBits : List Nat := [7, 15, 18, 19, 23, 29, 30, 31] ++ List.range' 56 72

/-- Bit `b` belongs to an instance of the field (45_schema.md R173). -/
def Covers (d : Data) (b : Nat) : Prop := ∃ i < Fdesc.instances d, Fdesc.loAt d i ≤ b ∧ b ≤ Fdesc.hiAt d i

/-- Checks 5, 6 and 7 pass (45_schema.md R167). -/
structure EnumValid (e : EnumSlot) : Prop where
  inRange : ∀ j < e.nvar.val, (e.disc j).toNat < 2 ^ e.w.val
  distinct : ∀ i j, i < j → j < e.nvar.val → e.disc i ≠ e.disc j
  covers : e.exh = true → e.nvar.val = 2 ^ e.w.val

/-- The kind of an enum field: EXH, 1 for KIND 3 and 0 for KIND 4. -/
def EnumFieldOk (st : SchemaStore) (d : Data) (exh : Bool) : Prop :=
  (st.enumOf d).valid = true ∧ (st.enumOf d).w.val = Fdesc.width d ∧ (st.enumOf d).exh = exh

/-- Checks 8 to 12 pass (45_schema.md R168 to R172). -/
structure FieldValid (st : SchemaStore) (d : Data) : Prop where
  reservedClear : ∀ b ∈ reservedBits, d.getLsbD b = false
  modeLegal : Fdesc.mode d ≠ 0
  kindLegal : (Fdesc.kindBits d).toNat ≤ 4
  eidZero : Fdesc.kindBits d ≠ 3 → Fdesc.kindBits d ≠ 4 → Fdesc.eid d = 0
  repeatZero : Fdesc.rep d = false → Fdesc.count d = 0 ∧ Fdesc.strideBits d = 0
  kwZero : Fdesc.kindBits d ≠ 1 → Fdesc.kindBits d ≠ 2 → Fdesc.kw d = 0
  ordered : Fdesc.lo d ≤ Fdesc.hi d
  repeats : Fdesc.rep d = true → Fdesc.count d ≠ 0 ∧ (Fdesc.strideBits d ≠ 0 → Fdesc.width d ≤ Fdesc.strideBits d)
  inside : ∀ i < Fdesc.instances d, Fdesc.hiAt d i < st.cw.val
  boolWidth : Fdesc.kindBits d = 0 → Fdesc.width d = 1
  intWidth : Fdesc.kindBits d = 1 ∨ Fdesc.kindBits d = 2 → Fdesc.kw d = Fdesc.width d
  exhaustive : Fdesc.kindBits d = 3 → EnumFieldOk st d true
  partialEnum : Fdesc.kindBits d = 4 → EnumFieldOk st d false

/-- Every check from 3 to 13 passes (45_schema.md R174). -/
structure SchemaValid (st : SchemaStore) : Prop where
  declared : st.cwSet = true
  defaultFits : st.dflt.toNat < 2 ^ st.cw.val
  enums : ∀ e : EnumId, st.et[e].valid = true → EnumValid st.et[e]
  fields : ∀ f : FieldId, st.ft[f].valid = true → FieldValid st st.ft[f].desc
  disjoint : ∀ f g : FieldId, f ≠ g → st.ft[f].valid = true → st.ft[g].valid = true →
    ∀ b, ¬(Covers st.ft[f].desc b ∧ Covers st.ft[g].desc b)

/-! ## The failing checks and their order (45_schema.md R159, R162) -/

/-- A check that can fail, with its objects. -/
inductive FailingCheck where
  | latched
  | noContainer
  | defaultRange
  | discriminantRange (e : EnumId) (j : Fin Config.nv)
  | discriminantDuplicate (e : EnumId) (j : Fin Config.nv)
  | notExhaustive (e : EnumId)
  | reserved (f : FieldId)
  | range (f : FieldId)
  | repetition (f : FieldId)
  | bounds (f : FieldId)
  | kind (f : FieldId)
  | overlap (f g : FieldId)
  deriving DecidableEq, Repr

/-- The condition in the column "fails when" of R159, with R163 to R173, whatever the earlier checks say. -/
def FailingCheck.fails (st : SchemaStore) : FailingCheck → Prop
  | .latched => st.serr.check ≠ 0
  | .noContainer => st.cwSet = false
  | .defaultRange => 2 ^ st.cw.val ≤ st.dflt.toNat
  | .discriminantRange e j =>
    st.et[e].valid = true ∧ j.val < st.et[e].nvar.val ∧ 2 ^ st.et[e].w.val ≤ (st.et[e].disc j.val).toNat
  | .discriminantDuplicate e j =>
    st.et[e].valid = true ∧ j.val < st.et[e].nvar.val ∧ ∃ i < j.val, st.et[e].disc i = st.et[e].disc j.val
  | .notExhaustive e => st.et[e].valid = true ∧ st.et[e].exh = true ∧ st.et[e].nvar.val ≠ 2 ^ st.et[e].w.val
  | .reserved f =>
    let d := st.ft[f].desc
    st.ft[f].valid = true ∧
      ((∃ b ∈ reservedBits, d.getLsbD b = true) ∨ Fdesc.mode d = 0 ∨ 5 ≤ (Fdesc.kindBits d).toNat ∨
        (Fdesc.kindBits d ≠ 3 ∧ Fdesc.kindBits d ≠ 4 ∧ Fdesc.eid d ≠ 0) ∨
        (Fdesc.rep d = false ∧ (Fdesc.count d ≠ 0 ∨ Fdesc.strideBits d ≠ 0)) ∨
        (Fdesc.kindBits d ≠ 1 ∧ Fdesc.kindBits d ≠ 2 ∧ Fdesc.kw d ≠ 0))
  | .range f => st.ft[f].valid = true ∧ Fdesc.hi st.ft[f].desc < Fdesc.lo st.ft[f].desc
  | .repetition f =>
    let d := st.ft[f].desc
    st.ft[f].valid = true ∧ Fdesc.rep d = true ∧
      (Fdesc.count d = 0 ∨ (Fdesc.strideBits d ≠ 0 ∧ Fdesc.strideBits d < Fdesc.width d))
  | .bounds f =>
    let d := st.ft[f].desc
    st.ft[f].valid = true ∧
      st.cw.val ≤ Fdesc.lo d + (Fdesc.instances d - 1) * Fdesc.stride d + Fdesc.width d - 1
  | .kind f =>
    let d := st.ft[f].desc
    st.ft[f].valid = true ∧
      ((Fdesc.kindBits d = 0 ∧ Fdesc.width d ≠ 1) ∨
        ((Fdesc.kindBits d = 1 ∨ Fdesc.kindBits d = 2) ∧ Fdesc.kw d ≠ Fdesc.width d) ∨
        (Fdesc.kindBits d = 3 ∧ ¬EnumFieldOk st d true) ∨ (Fdesc.kindBits d = 4 ∧ ¬EnumFieldOk st d false))
  | .overlap f g =>
    g < f ∧ st.ft[f].valid = true ∧ st.ft[g].valid = true ∧
      ∃ b, Covers st.ft[f].desc b ∧ Covers st.ft[g].desc b

/-- The place of a check in the order of R162, as one number: the stage, then the objects and checks inside it. -/
def FailingCheck.place : FailingCheck → Nat
  | .latched => 0
  | .noContainer => 1
  | .defaultRange => 2
  | .discriminantRange e j => 10000 + 1000 * e.val + j.val
  | .discriminantDuplicate e j => 10000 + 1000 * e.val + 256 + j.val
  | .notExhaustive e => 10000 + 1000 * e.val + 512
  | .reserved f => 30000 + 10 * f.val
  | .range f => 30000 + 10 * f.val + 1
  | .repetition f => 30000 + 10 * f.val + 2
  | .bounds f => 30000 + 10 * f.val + 3
  | .kind f => 30000 + 10 * f.val + 4
  | .overlap f g => 40000 + 64 * f.val + g.val

/-- What ERRVAL holds when a check is reported: check number, OBJ1 and OBJ2 (R159, R160); the latch as latched (R166). -/
def FailingCheck.report (st : SchemaStore) : FailingCheck → Nat
  | .latched => st.serr.check.toNat + 256 * st.serr.obj1.toNat + 65536 * st.serr.obj2.toNat
  | .noContainer => 3
  | .defaultRange => 4
  | .discriminantRange e j => 5 + 256 * e.val + 65536 * j.val
  | .discriminantDuplicate e j => 6 + 256 * e.val + 65536 * j.val
  | .notExhaustive e => 7 + 256 * e.val
  | .reserved f => 8 + 256 * f.val
  | .range f => 9 + 256 * f.val
  | .repetition f => 10 + 256 * f.val
  | .bounds f => 11 + 256 * f.val
  | .kind f => 12 + 256 * f.val
  | .overlap f g => 13 + 256 * f.val + 65536 * g.val

/-- The check fails and every check before it in the order of R162 passes. -/
def FirstFailing (st : SchemaStore) (c : FailingCheck) : Prop :=
  c.fails st ∧ ∀ c' : FailingCheck, c'.fails st → c.place ≤ c'.place

/-- An empty schema store (45_schema.md R150, 10_state.md R44). -/
structure StoreEmptied (st : SchemaStore) : Prop where
  container : st.cwSet = false ∧ st.cw = 0 ∧ st.dflt = 0
  fields : ∀ f : FieldId, st.ft[f].valid = false ∧ st.ft[f].desc = 0
  enums : ∀ e : EnumId, st.et[e].valid = false ∧ st.et[e].w = 0 ∧ st.et[e].exh = false ∧ st.et[e].nvar = 0 ∧
    ∀ j < 256, st.et[e].disc j = 0
  latch : st.serr.check = 0 ∧ st.serr.obj1 = 0 ∧ st.serr.obj2 = 0

/-- The latch after `latch(c, o, 0)`: written only if it was empty (45_schema.md R156). The rest of the store is as
before. -/
def Latched (st st' : SchemaStore) (c o : Nat) : Prop :=
  st' = { st with serr := st'.serr } ∧
    (st.serr.check ≠ 0 → st'.serr = st.serr) ∧
    (st.serr.check = 0 → st'.serr.check.toNat = c ∧ st'.serr.obj1.toNat = o ∧ st'.serr.obj2 = 0)

/-- A valid value of a field (42_field_access.md R119). -/
def ValidValue (st : SchemaStore) (d x : Data) : Prop :=
  (Fdesc.kindBits d = 0 → x.toNat ≤ 1) ∧
    (Fdesc.kindBits d = 1 → Canonical x (Fdesc.width d) .unsigned) ∧
    (Fdesc.kindBits d = 2 → Canonical x (Fdesc.width d) .signed) ∧
    (Fdesc.kindBits d = 3 ∨ Fdesc.kindBits d = 4 → x.toNat < (st.enumOf d).nvar.val)

/-- FGET may name instance `idx` of field `fid` (42_field_access.md R110). -/
def MayGet (s : State) (fid : FieldId) (idx : Fin 128) : Prop :=
  s.phase = .ready ∧ s.store.ft[fid].valid = true ∧
    (Fdesc.mode s.store.ft[fid].desc = 1 ∨ Fdesc.mode s.store.ft[fid].desc = 3) ∧
    idx.val < Fdesc.instances s.store.ft[fid].desc

/-- FSET may name instance `idx` of field `fid` (42_field_access.md R110). -/
def MaySet (s : State) (fid : FieldId) (idx : Fin 128) : Prop :=
  s.phase = .ready ∧ s.store.ft[fid].valid = true ∧
    (Fdesc.mode s.store.ft[fid].desc = 2 ∨ Fdesc.mode s.store.ft[fid].desc = 3) ∧
    idx.val < Fdesc.instances s.store.ft[fid].desc

/-- Ordinal `j` is the variant with discriminant `raw`: the least such below NVAR (43_enum_codec.md R130). -/
def IsVariant (e : EnumSlot) (raw j : Nat) : Prop :=
  j < e.nvar.val ∧ (e.disc j).toNat = raw ∧ ∀ i < j, (e.disc i).toNat ≠ raw

/-- No declared variant has the discriminant `raw`. -/
def NoVariant (e : EnumSlot) (raw : Nat) : Prop := ∀ j < e.nvar.val, (e.disc j).toNat ≠ raw

/-! ## The invariant -/

/-- What the loading commands keep of the schema store (10_state.md R33, R34, R39, R40; 45_schema.md R150 to R158): a
width is in range once declared, an undeclared slot is empty, the variants past NVAR are 0, and the latch holds a check
of the loading commands or is empty. -/
structure StoreOk (st : SchemaStore) : Prop where
  widthSet : st.cwSet = true → 1 ≤ st.cw.val
  widthUnset : st.cwSet = false → st.cw = 0 ∧ st.dflt = 0
  fieldEmpty : ∀ f : FieldId, st.ft[f].valid = false → st.ft[f].desc = 0
  enumEmpty : ∀ e : EnumId, st.et[e].valid = false → st.et[e] = EnumSlot.empty
  enumWidth : ∀ e : EnumId, st.et[e].valid = true → 1 ≤ st.et[e].w.val
  enumTail : ∀ (e : EnumId) (j : Nat), st.et[e].nvar.val ≤ j → st.et[e].disc j = 0
  latchCheck : st.serr.check.toNat ≤ 2
  latchEmpty : st.serr.check = 0 → st.serr.obj1 = 0
  latchObject : st.serr.obj1.toNat < 16 ∧ st.serr.obj2 = 0

/-- The invariant of every reachable state: STICKY bits 0 and 9 to 15 are clear (93 I18), the store is as the loading
commands keep it, and in READY the schema is valid and the latch empty (45_schema.md R174). -/
structure Inv (s : State) : Prop where
  stickyClear : ∀ b < 16, b = 0 ∨ 9 ≤ b → s.sticky.getLsbD b = false
  storeOk : StoreOk s.store
  readyValid : s.phase = .ready → SchemaValid s.store ∧ s.store.serr.check = 0

/-! ## Independence of undefined words -/

/-- Two states agree on everything but the contents of words that are undefined in both (10_state.md R22). -/
structure AgreeOnDefined (s t : State) : Prop where
  words : ∀ (n : Reg) (k : Fin 4), s.defined[n].getLsbD k.val = true → wordOf (s.reg n) k = wordOf (t.reg n) k
  rest : t = { s with regs := t.regs }

/-! ## Running a list of commands -/

/-- The commands of a list one after the other, as the host would issue them. -/
def execAll : List Instr → State → Result
  | [], s => .next s
  | i :: is, s =>
    match exec i s with
    | .next t => execAll is t
    | .fault r => .fault r
    | .refused r => .refused r

end Sys2Proof.Safety
end

