-- ==== Sys2Proof/Certificates/Slice0/Obligations.lean ====
section
/-! DEFINITION. The statements about the machine, file by file of the spec. Each docstring names what it formalises. -/

open Sys2Proof Sys2Proof.Machine Sys2Proof.Safety

/-! ## Encoding (30_encoding.md) -/

/-- No bit of an operand is lost by encoding: every well-formed command is decoded from its own word. -/
def Obligations.EncodedCommandDecodesBack : Prop :=
  ∀ i : Instr, i.wf = true → decode (encode i) = .ok i

/-- Each legal word has one meaning and no bit of it is ignored: it is the encoding of the command it decodes to, and
that command is well formed. -/
def Obligations.DecodedWordIsTheEncoding : Prop :=
  ∀ (w : Word) (i : Instr), decode w = .ok i → i.wf = true ∧ encode i = w

/-- Words written in the spec's examples decode to the commands they stand for (40 to 46 files, "Example"). -/
def Obligations.ExampleWordsDecode : Prop :=
  decode 0x04480000 = .ok (.mov 1 2) ∧ decode 0x0C41DEAD = .ok (.lic 1 1 0xDEAD) ∧
    decode 0x14800207 = .ok (.rmask 2 4 7) ∧ decode 0x1D048207 = .ok (.ins 4 1 2 4 7) ∧
    decode 0x29C48381 = .ok (.wcmp 7 1 2 8 .signed) ∧ decode 0x44480000 = .ok (.cload 1 2) ∧
    decode 0x4C84C105 = .ok (.fset 2 1 3 2 5) ∧ decode 0x50840001 = .ok (.edec 2 1 1) ∧
    decode 0x84041F80 = .ok (.scont 1 64) ∧ decode 0x8C003F9F = .ok (.senum 15 128 true) ∧
    decode 0xA0C00280 = .ok (.rdcsr 3 .errval)

/-- R75: any word with a reserved opcode is ILLEGAL, the all-zeros and the all-ones word among them. -/
def Obligations.ReservedOpcodeIsIllegal : Prop :=
  ∀ (w : Word) (s : State),
    (field w 26 6 = 0x00 ∨ (0x0B ≤ field w 26 6 ∧ field w 26 6 ≤ 0x0F) ∨
        (0x16 ≤ field w 26 6 ∧ field w 26 6 ≤ 0x1F) ∨ field w 26 6 = 0x26 ∨ field w 26 6 = 0x27 ∨
        0x2A ≤ field w 26 6 ∨ w = 0x00000000 ∨ w = 0xFFFFFFFF) →
      ∃ t, runCommand w s = .next t ∧ FailedWith s t .illegal w.toNat []

/-- What an ILLEGAL word does (R79, 60_exceptions.md R193, R194, R207): outcome ILLEGAL with the word in ERRVAL, and
nothing else; it reads no register. -/
def Obligations.UndecodableWordFailsIllegal : Prop :=
  ∀ (w : Word) (s : State), (∀ i, decode w ≠ .ok i) →
    ∃ t, runCommand w s = .next t ∧ FailedWith s t .illegal w.toNat []

/-! ## Steps, reset and the host port (00_scope.md, 20_memory.md, 70_reset_and_hazards.md) -/

/-- A host write to CMD executes its word: the step is the decoded command's, with the new STATUS as the response
(00_scope.md R11, 20_memory.md R54). -/
def Obligations.StepExecutesTheWordWrittenToCmd : Prop :=
  ∀ (s : State) (rest : List HostEvent) (addr : Nat) (w : Word), addr % 4096 = 0 →
    s.pending = .access (.write addr 0xF w) :: rest →
      let q : State := { s with pending := rest }
      (∀ i, decode w = .ok i →
        (∀ t, exec i q = .next t → step s = .next { t with response := some t.status }) ∧
          (∀ r, exec i q = .fault r → step s = .fault r) ∧ (∀ r, exec i q = .refused r → step s = .refused r)) ∧
        ((∀ i, decode w ≠ .ok i) →
          ∃ t, runCommand w q = .next t ∧ step s = .next { t with response := some t.status })

/-- With no host access waiting nothing changes; a reset between two accesses replaces the machine's state by the reset
state (60_exceptions.md R206, 70_reset_and_hazards.md R210). That the waiting input and the mark survive a reset is the
model's choice, log 7; that the response is then none, log 5. -/
def Obligations.IdleAndResetSteps : Prop :=
  ∀ (s : State) (rest : List HostEvent),
    (s.pending = [] → step s = .next s) ∧
      (s.pending = .reset :: rest → step s = .next { State.reset with pending := rest, uninit := s.uninit })

/-- R44: the reset value of every piece of state the spec gives one. The data registers have none there. -/
def Obligations.ResetStateHoldsResetValues : Prop :=
  let s := State.reset
  (∀ (n : Reg) (k : Fin 4), s.defined[n].getLsbD k.val = false) ∧ s.code = .ok ∧ s.sticky = 0 ∧ s.errval = 0 ∧
    s.phase = .config ∧ StoreEmptied s.store ∧ statusNumber s = 0 ∧ s.status = 0 ∧
    s.csr .id = 0x42464345 ∧ s.csr .version = 0x00010000 ∧ s.csr .cap = 0xFF0F3F7F

/-- The read column of the host address map (20_memory.md R54), word order (R51), and that no read changes the machine
(R55). A read of an undefined word marks its register (60_exceptions.md R207; log 2). -/
def Obligations.HostReadReturnsTheMappedWord : Prop :=
  ∀ (s : State) (rest : List HostEvent) (addr : Nat), addr % 4 = 0 →
    s.pending = .access (.read addr 0xF) :: rest →
      ∃ (t : State) (r : Word), step s = .next t ∧
        t = { s with pending := rest, response := some r, uninit := t.uninit } ∧
        (addr % 4096 = 0x000 → r = 0) ∧ (addr % 4096 = 0x004 → r.toNat = statusNumber s) ∧
        (addr % 4096 = 0x008 → r.toNat = s.sticky.toNat) ∧ (addr % 4096 = 0x00C → r = 0x42464345) ∧
        (addr % 4096 = 0x010 → r = 0x00010000) ∧ (addr % 4096 = 0x014 → r = 0xFF0F3F7F) ∧
        (addr % 4096 = 0x018 ∨ addr % 4096 = 0x01C → r = 0) ∧
        (∀ k : Fin 4, addr % 4096 = 0x020 + 4 * k.val → r.toNat = pattern s.errval (32 * k.val) 32) ∧
        (0x030 ≤ addr % 4096 → addr % 4096 ≤ 0x0FC → r = 0) ∧ (0x200 ≤ addr % 4096 → r = 0) ∧
        (∀ (n : Reg) (k : Fin 4), addr % 4096 = 0x100 + 16 * n.val + 4 * k.val →
          r.toNat = pattern (s.reg n) (32 * k.val) 32 ∧
            t.uninit = if s.defined[n].getLsbD k.val = true then s.uninit else s.uninit.or (some n)) ∧
        (addr % 4096 < 0x100 ∨ 0x200 ≤ addr % 4096 → t.uninit = s.uninit)

/-- A host write to word `k` of `Dn` writes that word and its defined bit alone (20_memory.md R54, R56,
70_reset_and_hazards.md R216, 10_state.md R22). That the response is then none is the model's choice, log 5. -/
def Obligations.HostWriteSetsOneRegisterWord : Prop :=
  ∀ (s : State) (rest : List HostEvent) (addr : Nat) (v : Word) (n : Reg) (k : Fin 4),
    addr % 4096 = 0x100 + 16 * n.val + 4 * k.val → s.pending = .access (.write addr 0xF v) :: rest →
      ∃ t, step s = .next t ∧ wordOf (t.reg n) k = v ∧ t.defined[n].getLsbD k.val = true ∧
        (∀ k' : Fin 4, k' ≠ k → wordOf (t.reg n) k' = wordOf (s.reg n) k' ∧
          t.defined[n].getLsbD k'.val = s.defined[n].getLsbD k'.val) ∧
        (∀ m : Reg, m ≠ n → t.reg m = s.reg m ∧ t.defined[m] = s.defined[m]) ∧
        t = { s with regs := t.regs, defined := t.defined, pending := rest, response := none }

/-- The other host writes: STICKY is write-1-to-clear, and every other write outside CMD and the data registers is
ignored (20_memory.md R54, R55). That the response is then none is the model's choice, log 5. -/
def Obligations.HostWriteClearsStickyOrIsIgnored : Prop :=
  ∀ (s : State) (rest : List HostEvent) (addr : Nat) (v : Word), addr % 4 = 0 →
    s.pending = .access (.write addr 0xF v) :: rest →
      (addr % 4096 = 0x008 → ∃ t, step s = .next t ∧
        (∀ b < 16, t.sticky.getLsbD b = (s.sticky.getLsbD b && !v.getLsbD b)) ∧
        t = { s with sticky := t.sticky, pending := rest, response := none }) ∧
        (addr % 4096 ≠ 0x000 → addr % 4096 ≠ 0x008 → (addr % 4096 < 0x100 ∨ 0x200 ≤ addr % 4096) →
          step s = .next { s with pending := rest, response := none })

/-- R52: an access that is not an aligned 32-bit one is refused. -/
def Obligations.MisalignedOrNarrowAccessIsRefused : Prop :=
  ∀ (s : State) (rest : List HostEvent) (addr : Nat) (lanes : BitVec 4) (v : Word), addr % 4 ≠ 0 ∨ lanes ≠ 0xF →
    s.pending = .access (.read addr lanes) :: rest ∨ s.pending = .access (.write addr lanes v) :: rest →
      step s = .fault .hostAccessRefused

/-- R53: address bits above bit 11 are not decoded. -/
def Obligations.AddressBitsAbove11AreNotDecoded : Prop :=
  ∀ (s : State) (rest : List HostEvent) (addr addr' : Nat) (lanes : BitVec 4) (v : Word),
    addr % 4096 = addr' % 4096 →
      step { s with pending := .access (.read addr lanes) :: rest } =
          step { s with pending := .access (.read addr' lanes) :: rest } ∧
        step { s with pending := .access (.write addr lanes v) :: rest } =
          step { s with pending := .access (.write addr' lanes v) :: rest }

/-- Every access but a write to CMD may be repeated without changing the result (20_memory.md R55). -/
def Obligations.RepeatedAccessChangesNothing : Prop :=
  ∀ (s t : State) (rest : List HostEvent) (a : HostAccess),
    (∀ addr lanes v, a = .write addr lanes v → addr % 4096 ≠ 0) →
      s.pending = .access a :: .access a :: rest → step s = .next t →
        step t = .next { t with pending := rest }

/-! ## Data movement (46_move_system.md) -/

/-- R180: MOV copies a register. -/
def Obligations.MovCopiesTheRegister : Prop :=
  Encoded 0x04000000 0xFC03FFFF anyWord (fun w => .mov (fieldReg w 22) (fieldReg w 18)) ∧
    ∀ (s : State) (rd rs1 : Reg),
      ∃ t, exec (.mov rd rs1) s = .next t ∧ WroteReg s t rd [rs1] ∧ t.reg rd = s.reg rs1

/-- R181, R182: LI writes a chunk and clears the rest; LIC replaces a chunk and keeps the rest. -/
def Obligations.LiAndLicLoadSixteenBitChunks : Prop :=
  Encoded 0x08000000 0xFC380000 anyWord
      (fun w => .li (fieldReg w 22) (Fin.ofNat 8 (field w 16 3)) (BitVec.ofNat 16 (field w 0 16))) ∧
    Encoded 0x0C000000 0xFC380000 anyWord
      (fun w => .lic (fieldReg w 22) (Fin.ofNat 8 (field w 16 3)) (BitVec.ofNat 16 (field w 0 16))) ∧
    ∀ (s : State) (rd : Reg) (pos : Fin 8) (imm : BitVec 16),
      (∃ t, exec (.li rd pos imm) s = .next t ∧ WroteReg s t rd [] ∧
        ∀ j < 128, (t.reg rd).getLsbD j =
          if 16 * pos.val ≤ j ∧ j < 16 * pos.val + 16 then imm.getLsbD (j - 16 * pos.val) else false) ∧
        (∃ t, exec (.lic rd pos imm) s = .next t ∧ WroteReg s t rd [rd] ∧
          ∀ j < 128, (t.reg rd).getLsbD j =
            if 16 * pos.val ≤ j ∧ j < 16 * pos.val + 16 then imm.getLsbD (j - 16 * pos.val)
            else (s.reg rd).getLsbD j)

/-! ## Bit-range arithmetic (40_bitrange.md) -/

/-- R90, R91: MASK gives `w` ones from bit 0, RMASK gives ones from bit `lo` to bit `hi`. -/
def Obligations.MaskAndRmaskGiveOnesInTheRange : Prop :=
  Encoded 0x10000000 0xFC3FC07F anyWord (fun w => .mask (fieldReg w 22) (field w 7 7 + 1)) ∧
    Encoded 0x14000000 0xFC3FC000 orderedRange (fun w => .rmask (fieldReg w 22) (fieldPos w 7) (fieldPos w 0)) ∧
    (∀ (s : State) (rd : Reg) (w : Nat), 1 ≤ w → w ≤ 128 →
      ∃ t, exec (.mask rd w) s = .next t ∧ WroteReg s t rd [] ∧ (t.reg rd).toNat = 2 ^ w - 1) ∧
    ∀ (s : State) (rd : Reg) (lo hi : Fin 128), lo ≤ hi →
      ∃ t, exec (.rmask rd lo hi) s = .next t ∧ WroteReg s t rd [] ∧
        ∀ j < 128, (t.reg rd).getLsbD j = decide (lo.val ≤ j ∧ j ≤ hi.val)

/-- R92: EXTR gives `D[rs1][hi:lo]`, zero-extended. -/
def Obligations.ExtrGivesTheBitsOfTheRange : Prop :=
  Encoded 0x18000000 0xFC03C000 orderedRange
      (fun w => .extr (fieldReg w 22) (fieldReg w 18) (fieldPos w 7) (fieldPos w 0)) ∧
    ∀ (s : State) (rd rs1 : Reg) (lo hi : Fin 128), lo ≤ hi →
      ∃ t, exec (.extr rd rs1 lo hi) s = .next t ∧ WroteReg s t rd [rs1] ∧
        (t.reg rd).toNat = pattern (s.reg rs1) lo.val (hi.val - lo.val + 1)

/-- INS replaces the bits of the range by the low bits of `D[rs2]` and keeps every other bit of `D[rs1]` (the pseudocode
of 40_bitrange.md R93). The rule's corner case for `rd = rs1 = rs2` with `lo > 0` says otherwise; that its pseudocode holds is the model's choice,
log 20. That the mark names `rs1` before `rs2` is the model's choice, log 3. -/
def Obligations.InsReplacesTheBitsOfTheRange : Prop :=
  Encoded 0x1C000000 0xFC000000 orderedRange
      (fun w => .ins (fieldReg w 22) (fieldReg w 18) (fieldReg w 14) (fieldPos w 7) (fieldPos w 0)) ∧
    ∀ (s : State) (rd rs1 rs2 : Reg) (lo hi : Fin 128), lo ≤ hi →
      ∃ t, exec (.ins rd rs1 rs2 lo hi) s = .next t ∧ WroteReg s t rd [rs1, rs2] ∧
        ∀ j < 128, (t.reg rd).getLsbD j =
          if lo.val ≤ j ∧ j ≤ hi.val then (s.reg rs2).getLsbD (j - lo.val) else (s.reg rs1).getLsbD j

/-- R94: SEXT gives the low `w` bits as a 128-bit two's-complement value; bits at and above `w` are ignored. -/
def Obligations.SextSignExtendsTheLowBits : Prop :=
  Encoded 0x20000000 0xFC03C07F anyWord (fun w => .sext (fieldReg w 22) (fieldReg w 18) (field w 7 7 + 1)) ∧
    ∀ (s : State) (rd rs1 : Reg) (w : Nat), 1 ≤ w → w ≤ 128 →
      ∃ t, exec (.sext rd rs1 w) s = .next t ∧ WroteReg s t rd [rs1] ∧
        (t.reg rd).toInt = valueOf (s.reg rs1) w .signed

/-- R95: the seven laws of the bit-range primitives. -/
def Obligations.BitRangePrimitivesObeyTheSevenLaws : Prop :=
  ∀ (r v u : Data) (lo hi : Fin 128), lo ≤ hi →
    let w := hi.val - lo.val + 1
    extract (insert r lo.val hi.val v) lo.val hi.val = v &&& mask w ∧
      (∀ j < 128, j < lo.val ∨ hi.val < j → (insert r lo.val hi.val v).getLsbD j = r.getLsbD j) ∧
      insert r lo.val hi.val (extract r lo.val hi.val) = r ∧
      insert (insert r lo.val hi.val v) lo.val hi.val u = insert r lo.val hi.val u ∧
      (∀ lo' hi' : Fin 128, lo' ≤ hi' → hi < lo' ∨ hi' < lo →
        insert (insert r lo.val hi.val v) lo'.val hi'.val u = insert (insert r lo'.val hi'.val u) lo.val hi.val v) ∧
      (extract r lo.val hi.val).toNat < 2 ^ w ∧
      signExtend (extract r lo.val hi.val) w = (r.extractLsb' lo.val w).signExtend 128

/-! ## WidthInteger (41_widthint.md) -/

/-- R101: WNORM truncates to `w` bits and extends by the signedness; the result is canonical, has the input's logical
value, and is not changed by a second WNORM. -/
def Obligations.WnormMakesTheCanonicalForm : Prop :=
  Encoded 0x24000000 0xFC03C07E anyWord
      (fun w => .wnorm (fieldReg w 22) (fieldReg w 18) (field w 7 7 + 1)
        (if field w 0 1 = 1 then .signed else .unsigned)) ∧
    ∀ (s : State) (rd rs1 : Reg) (w : Nat) (sg : Sign), 1 ≤ w → w ≤ 128 →
      ∃ t, exec (.wnorm rd rs1 w sg) s = .next t ∧ WroteReg s t rd [rs1] ∧
        (∀ j < w, (t.reg rd).getLsbD j = (s.reg rs1).getLsbD j) ∧ Canonical (t.reg rd) w sg ∧
        valueOf (t.reg rd) w sg = valueOf (s.reg rs1) w sg ∧
        ∀ r, ∃ u, exec (.wnorm r rd w sg) t = .next u ∧ u.reg r = t.reg rd

/-- WCMP gives 0 for equal, 1 for less, 2 for greater, by logical value (41_widthint.md R102). That the mark names `rs1`
before `rs2` is the model's choice, log 3. -/
def Obligations.WcmpComparesLogicalValues : Prop :=
  Encoded 0x28000000 0xFC00007E anyWord
      (fun w => .wcmp (fieldReg w 22) (fieldReg w 18) (fieldReg w 14) (field w 7 7 + 1)
        (if field w 0 1 = 1 then .signed else .unsigned)) ∧
    ∀ (s : State) (rd rs1 rs2 : Reg) (w : Nat) (sg : Sign), 1 ≤ w → w ≤ 128 →
      ∃ t, exec (.wcmp rd rs1 rs2 w sg) s = .next t ∧ WroteReg s t rd [rs1, rs2] ∧
        (t.reg rd).toNat =
          if valueOf (s.reg rs1) w sg = valueOf (s.reg rs2) w sg then 0
          else if valueOf (s.reg rs1) w sg < valueOf (s.reg rs2) w sg then 1 else 2

/-- R103: equality under WCMP is equality of the low `w` bits; WCMP is a total order, antisymmetric and transitive;
swapping the operands swaps 1 and 2; a value compares equal to its normalised form. -/
def Obligations.WcmpIsATotalOrder : Prop :=
  ∀ (s : State) (w : Nat) (sg : Sign), 1 ≤ w → w ≤ 128 → ∀ d a b c : Reg,
    ∃ tab tba tbc tac tn tna : State,
      exec (.wcmp d a b w sg) s = .next tab ∧ exec (.wcmp d b a w sg) s = .next tba ∧
        exec (.wcmp d b c w sg) s = .next tbc ∧ exec (.wcmp d a c w sg) s = .next tac ∧
        exec (.wnorm b a w sg) s = .next tn ∧
        (a ≠ b → exec (.wcmp d b a w sg) tn = .next tna ∧ tna.reg d = 0) ∧
        (tab.reg d = 0 ↔ pattern (s.reg a) 0 w = pattern (s.reg b) 0 w) ∧
        (tab.reg d = 0 ∨ tab.reg d = 1 ∨ tab.reg d = 2) ∧
        (tab.reg d = 1 ↔ tba.reg d = 2) ∧
        (tab.reg d ≠ 2 → tba.reg d ≠ 2 → tab.reg d = 0) ∧
        (tab.reg d ≠ 2 → tbc.reg d ≠ 2 → tac.reg d ≠ 2)

/-! ## Container (44_container.md) -/

/-- R140: CNEW gives the schema's default in READY, a well-formed container in every reachable state, and raises PHASE
otherwise. -/
def Obligations.CnewGivesTheDefault : Prop :=
  Encoded 0x40000000 0xFC3FFFFF anyWord (fun w => .cnew (fieldReg w 22)) ∧
    ∀ (s : State) (rd : Reg),
      (s.phase = .ready → ∃ t, exec (.cnew rd) s = .next t ∧ WroteReg s t rd [] ∧ t.reg rd = s.store.dflt ∧
        (Inv s → ContainerOk s.store (t.reg rd))) ∧
        (s.phase ≠ .ready → ∃ t, exec (.cnew rd) s = .next t ∧ FailedPhase s t 0x10 [])

/-- R141: CLOAD truncates to the container width in READY, and raises PHASE otherwise. -/
def Obligations.CloadTruncatesToTheContainerWidth : Prop :=
  Encoded 0x44000000 0xFC03FFFF anyWord (fun w => .cload (fieldReg w 22) (fieldReg w 18)) ∧
    ∀ (s : State) (rd rs1 : Reg),
      (s.phase = .ready → ∃ t, exec (.cload rd rs1) s = .next t ∧ WroteReg s t rd [rs1] ∧
        (t.reg rd).toNat = (s.reg rs1).toNat % 2 ^ s.store.cw.val ∧ ContainerOk s.store (t.reg rd)) ∧
        (s.phase ≠ .ready → ∃ t, exec (.cload rd rs1) s = .next t ∧ FailedPhase s t 0x11 [rs1])

/-! ## Field access (42_field_access.md) -/

/-- The conditions 2 to 5 of FGET and FSET, in order, and what each failing one reports (42_field_access.md R110). That
the mark names `rs1` before `rs2` for FSET is the model's choice, log 3. -/
def Obligations.FieldAccessChecksInOrder : Prop :=
  ∀ (s : State) (rd rs1 rs2 : Reg) (fid : FieldId) (idx : Fin 128),
    let f := s.store.ft[fid]
    let got := fun (c : Code) (info : Nat) =>
      ∃ t, exec (.fget rd rs1 fid idx) s = .next t ∧ FailedWith s t c info [rs1]
    let set := fun (c : Code) (info : Nat) =>
      ∃ t, exec (.fset rd rs1 rs2 fid idx) s = .next t ∧ FailedWith s t c info [rs1, rs2]
    (s.phase ≠ .ready → got .phase (256 * 0x12 + phaseNumber s.phase) ∧ set .phase (256 * 0x13 + phaseNumber s.phase)) ∧
      (s.phase = .ready → f.valid = false → got .nofield fid.val ∧ set .nofield fid.val) ∧
      (s.phase = .ready → f.valid = true → Fdesc.mode f.desc ≠ 1 → Fdesc.mode f.desc ≠ 3 → got .access fid.val) ∧
      (s.phase = .ready → f.valid = true → Fdesc.mode f.desc ≠ 2 → Fdesc.mode f.desc ≠ 3 →
        set .access (256 + fid.val)) ∧
      (s.phase = .ready → f.valid = true → (Fdesc.mode f.desc = 1 ∨ Fdesc.mode f.desc = 3) →
        Fdesc.instances f.desc ≤ idx.val → got .index (256 * fid.val + idx.val)) ∧
      (s.phase = .ready → f.valid = true → (Fdesc.mode f.desc = 2 ∨ Fdesc.mode f.desc = 3) →
        Fdesc.instances f.desc ≤ idx.val → set .index (256 * fid.val + idx.val))

/-- FGET of a Bool, UnsignedInt or SignedInt field (R111, R112, R114): the nonzero test, the bits, or the bits
sign-extended, in canonical form. -/
def Obligations.FgetReadsBoolAndIntegerFields : Prop :=
  Encoded 0x48000000 0xFC03E000 anyWord
      (fun w => .fget (fieldReg w 22) (fieldReg w 18) (Fin.ofNat 64 (field w 7 6)) (fieldPos w 0)) ∧
    ∀ (s : State) (rd rs1 : Reg) (fid : FieldId) (idx : Fin 128), MayGet s fid idx →
      let d := s.store.ft[fid].desc
      let w := Fdesc.width d
      let bits := pattern (s.reg rs1) (Fdesc.lo d + idx.val * Fdesc.stride d) w
      (Fdesc.kindBits d).toNat ≤ 2 →
        ∃ t, exec (.fget rd rs1 fid idx) s = .next t ∧ WroteReg s t rd [rs1] ∧
          (Fdesc.kindBits d = 0 → (t.reg rd).toNat = if bits = 0 then 0 else 1) ∧
          (Fdesc.kindBits d = 1 → (t.reg rd).toNat = bits ∧ Canonical (t.reg rd) w .unsigned) ∧
          (Fdesc.kindBits d = 2 →
            (t.reg rd).toInt = valueOf (BitVec.ofNat 128 bits) w .signed ∧ Canonical (t.reg rd) w .signed)

/-- FGET of an enum field (R112, R114, 43_enum_codec.md R130, R132): the ordinal of the matching variant, or UNMATCHED
with the raw discriminant for a partial enum. -/
def Obligations.FgetDecodesEnumFields : Prop :=
  ∀ (s : State) (rd rs1 : Reg) (fid : FieldId) (idx : Fin 128), MayGet s fid idx →
    let d := s.store.ft[fid].desc
    let e := s.store.enumOf d
    let bits := pattern (s.reg rs1) (Fdesc.lo d + idx.val * Fdesc.stride d) (Fdesc.width d)
    (∀ j, Fdesc.kindBits d = 3 ∨ Fdesc.kindBits d = 4 → IsVariant e bits j →
      ∃ t, exec (.fget rd rs1 fid idx) s = .next t ∧ WroteReg s t rd [rs1] ∧ (t.reg rd).toNat = j) ∧
      (Fdesc.kindBits d = 4 → NoVariant e bits →
        ∃ t, exec (.fget rd rs1 fid idx) s = .next t ∧ FailedUnmatched s t rd bits [rs1])

/-- FSET of a Bool, UnsignedInt or SignedInt field (R111, R113, R115, R117): the instance's bits are bit 0, or the low
bits, of the value; every other bit of the container is kept. That the mark names
`rs1` before `rs2` is the model's choice, log 3. -/
def Obligations.FsetWritesBoolAndIntegerFields : Prop :=
  Encoded 0x4C000000 0xFC002000 anyWord
      (fun w => .fset (fieldReg w 22) (fieldReg w 18) (fieldReg w 14) (Fin.ofNat 64 (field w 7 6)) (fieldPos w 0)) ∧
    ∀ (s : State) (rd rs1 rs2 : Reg) (fid : FieldId) (idx : Fin 128), MaySet s fid idx →
      let d := s.store.ft[fid].desc
      let lo := Fdesc.lo d + idx.val * Fdesc.stride d
      (Fdesc.kindBits d).toNat ≤ 2 →
        ∃ t, exec (.fset rd rs1 rs2 fid idx) s = .next t ∧ WroteReg s t rd [rs1, rs2] ∧
          ∀ j < 128, (t.reg rd).getLsbD j =
            if lo ≤ j ∧ j < lo + Fdesc.width d then
              (s.reg rs2).getLsbD (j - lo) && decide (Fdesc.kindBits d = 0 → j = lo)
            else (s.reg rs1).getLsbD j

/-- FSET of an enum field (R113, R115): the instance's bits are the variant's discriminant, or BADVAR for an ordinal
that names no variant. The mark names `rs1` before `rs2` by the model's choice, log 3. -/
def Obligations.FsetEncodesEnumFields : Prop :=
  ∀ (s : State) (rd rs1 rs2 : Reg) (fid : FieldId) (idx : Fin 128), MaySet s fid idx →
    let d := s.store.ft[fid].desc
    let e := s.store.enumOf d
    let lo := Fdesc.lo d + idx.val * Fdesc.stride d
    Fdesc.kindBits d = 3 ∨ Fdesc.kindBits d = 4 →
      ((s.reg rs2).toNat < e.nvar.val →
        ∃ t, exec (.fset rd rs1 rs2 fid idx) s = .next t ∧ WroteReg s t rd [rs1, rs2] ∧
          ∀ j < 128, (t.reg rd).getLsbD j =
            if lo ≤ j ∧ j < lo + Fdesc.width d then (e.disc (s.reg rs2).toNat).getLsbD (j - lo)
            else (s.reg rs1).getLsbD j) ∧
        (e.nvar.val ≤ (s.reg rs2).toNat →
          ∃ t, exec (.fset rd rs1 rs2 fid idx) s = .next t ∧
            FailedWith s t .badvar (s.reg rs2).toNat [rs1, rs2])

/-- Where the accessors stop (log 10): a descriptor with a reserved KIND, or an exhaustive enum with no match. No
reachable state has one. -/
def Obligations.UnvalidatedDescriptorStopsTheModel : Prop :=
  ∀ (s : State) (rd rs1 rs2 : Reg) (fid : FieldId) (idx : Fin 128),
    let d := s.store.ft[fid].desc
    let bits := pattern (s.reg rs1) (Fdesc.lo d + idx.val * Fdesc.stride d) (Fdesc.width d)
    (MayGet s fid idx → 5 ≤ (Fdesc.kindBits d).toNat →
      exec (.fget rd rs1 fid idx) s = .fault .unvalidatedDescriptor) ∧
      (MayGet s fid idx → Fdesc.kindBits d = 3 → NoVariant (s.store.enumOf d) bits →
        exec (.fget rd rs1 fid idx) s = .fault .unvalidatedDescriptor) ∧
      (MaySet s fid idx → 5 ≤ (Fdesc.kindBits d).toNat →
        exec (.fset rd rs1 rs2 fid idx) s = .fault .unvalidatedDescriptor)

/-- R118, round trip: in every reachable READY state, setting a field to a valid value and getting it back gives the
value, both with outcome OK. -/
def Obligations.FieldValueRoundTrips : Prop :=
  ∀ (s : State) (c rs1 rs2 rd : Reg) (fid : FieldId) (idx : Fin 128), Inv s → MayGet s fid idx → MaySet s fid idx →
    ValidValue s.store s.store.ft[fid].desc (s.reg rs2) →
      ∃ t u, exec (.fset c rs1 rs2 fid idx) s = .next t ∧ t.code = .ok ∧
        exec (.fget rd c fid idx) t = .next u ∧ u.code = .ok ∧ u.reg rd = s.reg rs2

/-- R118, non-interference: setting one instance leaves every bit outside it, and every other field or instance as
FGET shows it. -/
def Obligations.FieldWritesDoNotInterfere : Prop :=
  ∀ (s t : State) (c rs1 rs2 rd : Reg) (fid gid : FieldId) (idx k : Fin 128), Inv s →
    exec (.fset c rs1 rs2 fid idx) s = .next t → t.code = .ok →
      (∀ j < 128, j < Fdesc.loAt s.store.ft[fid].desc idx.val ∨ Fdesc.hiAt s.store.ft[fid].desc idx.val < j →
        (t.reg c).getLsbD j = (s.reg rs1).getLsbD j) ∧
        (gid ≠ fid ∨ k ≠ idx → ∃ u v, exec (.fget rd rs1 gid k) s = .next u ∧ exec (.fget rd c gid k) t = .next v ∧
          v.code = u.code ∧ (u.code = .ok ∨ u.code = .unmatched → v.reg rd = u.reg rd))

/-- FSET keeps a container well formed (44_container.md R143, 42_field_access.md R117, 45_schema.md R171). -/
def Obligations.FsetKeepsTheContainerWellFormed : Prop :=
  ∀ (s t : State) (rd rs1 rs2 : Reg) (fid : FieldId) (idx : Fin 128), Inv s → ContainerOk s.store (s.reg rs1) →
    exec (.fset rd rs1 rs2 fid idx) s = .next t → t.code = .ok → ContainerOk t.store (t.reg rd)

/-! ## Enum codec (43_enum_codec.md) -/

/-- EDEC looks up the low `W` bits: the ordinal, or UNMATCHED with the raw value; PHASE and NOFIELD before
(43_enum_codec.md R134). That the unmatched case does not look at EXH is the model's choice, log 11: the rule has it only
for a partial enum, and in every reachable state only a partial enum takes it. -/
def Obligations.EdecDecodesTheDiscriminant : Prop :=
  Encoded 0x50000000 0xFC03FFF0 anyWord
      (fun w => .edec (fieldReg w 22) (fieldReg w 18) (Fin.ofNat 16 (field w 0 4))) ∧
    ∀ (s : State) (rd rs1 : Reg) (eid : EnumId),
      let e := s.store.et[eid]
      let raw := (s.reg rs1).toNat % 2 ^ e.w.val
      (s.phase ≠ .ready → ∃ t, exec (.edec rd rs1 eid) s = .next t ∧ FailedPhase s t 0x14 [rs1]) ∧
        (s.phase = .ready → e.valid = false →
          ∃ t, exec (.edec rd rs1 eid) s = .next t ∧ FailedWith s t .nofield (256 + eid.val) [rs1]) ∧
        (s.phase = .ready → e.valid = true → ∀ j, IsVariant e raw j →
          ∃ t, exec (.edec rd rs1 eid) s = .next t ∧ WroteReg s t rd [rs1] ∧ (t.reg rd).toNat = j) ∧
        (s.phase = .ready → e.valid = true → NoVariant e raw →
          ∃ t, exec (.edec rd rs1 eid) s = .next t ∧ FailedUnmatched s t rd raw [rs1]) ∧
        (Inv s → s.phase = .ready → e.valid = true → e.exh = true → ¬NoVariant e raw)

/-- R135: EENC gives the discriminant of the ordinal, or BADVAR with the whole register; PHASE and NOFIELD before. -/
def Obligations.EencEncodesTheOrdinal : Prop :=
  Encoded 0x54000000 0xFC03FFF0 anyWord
      (fun w => .eenc (fieldReg w 22) (fieldReg w 18) (Fin.ofNat 16 (field w 0 4))) ∧
    ∀ (s : State) (rd rs1 : Reg) (eid : EnumId),
      let e := s.store.et[eid]
      (s.phase ≠ .ready → ∃ t, exec (.eenc rd rs1 eid) s = .next t ∧ FailedPhase s t 0x15 [rs1]) ∧
        (s.phase = .ready → e.valid = false →
          ∃ t, exec (.eenc rd rs1 eid) s = .next t ∧ FailedWith s t .nofield (256 + eid.val) [rs1]) ∧
        (s.phase = .ready → e.valid = true → (s.reg rs1).toNat < e.nvar.val →
          ∃ t, exec (.eenc rd rs1 eid) s = .next t ∧ WroteReg s t rd [rs1] ∧
            t.reg rd = e.disc (s.reg rs1).toNat ∧ (Inv s → (t.reg rd).toNat < 2 ^ e.w.val)) ∧
        (s.phase = .ready → e.valid = true → e.nvar.val ≤ (s.reg rs1).toNat →
          ∃ t, exec (.eenc rd rs1 eid) s = .next t ∧ FailedWith s t .badvar (s.reg rs1).toNat [rs1])

/-- R136: the laws of a declared enum in every reachable READY state: decode after encode, encode after decode,
totality of an exhaustive enum, partiality of a partial one. -/
def Obligations.EnumCodecLaws : Prop :=
  ∀ (s : State) (a b c : Reg) (eid : EnumId), Inv s → s.phase = .ready → s.store.et[eid].valid = true →
    let e := s.store.et[eid]
    let x := (s.reg a).toNat
    (x < e.nvar.val → ∃ t u, exec (.eenc b a eid) s = .next t ∧ t.code = .ok ∧
      exec (.edec c b eid) t = .next u ∧ u.code = .ok ∧ (u.reg c).toNat = x) ∧
      (x < 2 ^ e.w.val → ¬NoVariant e x → ∃ t u, exec (.edec b a eid) s = .next t ∧ t.code = .ok ∧
        exec (.eenc c b eid) t = .next u ∧ u.code = .ok ∧ (u.reg c).toNat = x) ∧
      (e.exh = true → ∃ t, exec (.edec b a eid) s = .next t ∧ t.code = .ok) ∧
      (e.exh = false → x < 2 ^ e.w.val → ∃ t, exec (.edec b a eid) s = .next t ∧
        (t.code = .unmatched ↔ NoVariant e x) ∧ (NoVariant e x → t.errval.toNat = x))

/-! ## Schema (45_schema.md) -/

/-- R150: SBEGIN empties the schema store and enters CONFIG, from every phase, and touches no register, STICKY or
ERRVAL. -/
def Obligations.SbeginEmptiesTheSchema : Prop :=
  Encoded 0x80000000 0xFFFFFFFF anyWord (fun _ => .sbegin) ∧
    ∀ s : State, ∃ t, exec .sbegin s = .next t ∧ ChangedSchema s t [] ∧ t.phase = .config ∧ StoreEmptied t.store

/-- R152: SCONT declares the container in CONFIG, replacing an earlier declaration, and raises PHASE otherwise. -/
def Obligations.ScontDeclaresTheContainer : Prop :=
  Encoded 0x84000000 0xFFC3C07F anyWord (fun w => .scont (fieldReg w 18) (field w 7 7 + 1)) ∧
    ∀ (s : State) (rs1 : Reg) (cw : Nat), 1 ≤ cw → cw ≤ 128 →
      (s.phase = .config → ∃ t, exec (.scont rs1 cw) s = .next t ∧ ChangedSchema s t [rs1] ∧ t.phase = s.phase ∧
        t.store.cw.val = cw ∧
        t.store = { s.store with cwSet := true, cw := t.store.cw, dflt := s.reg rs1 }) ∧
        (s.phase ≠ .config → ∃ t, exec (.scont rs1 cw) s = .next t ∧ FailedPhase s t 0x21 [rs1])

/-- R153: SFIELD stores the descriptor as it is in CONFIG, replacing an earlier one, and raises PHASE otherwise. -/
def Obligations.SfieldDeclaresTheField : Prop :=
  Encoded 0x88000000 0xFFC3E07F anyWord (fun w => .sfield (Fin.ofNat 64 (field w 7 6)) (fieldReg w 18)) ∧
    ∀ (s : State) (fid : FieldId) (rs1 : Reg),
      (s.phase = .config → ∃ t, exec (.sfield fid rs1) s = .next t ∧ ChangedSchema s t [rs1] ∧ t.phase = s.phase ∧
        t.store.ft[fid] = ⟨true, s.reg rs1⟩ ∧ (∀ g : FieldId, g ≠ fid → t.store.ft[g] = s.store.ft[g]) ∧
        t.store = { s.store with ft := t.store.ft }) ∧
        (s.phase ≠ .config → ∃ t, exec (.sfield fid rs1) s = .next t ∧ FailedPhase s t 0x22 [rs1])

/-- R154: SENUM declares an enum with no variants in CONFIG, discarding an earlier one, and raises PHASE otherwise. -/
def Obligations.SenumDeclaresTheEnum : Prop :=
  Encoded 0x8C000000 0xFFFFC060 anyWord
      (fun w => .senum (Fin.ofNat 16 (field w 0 4)) (field w 7 7 + 1) (decide (field w 4 1 = 1))) ∧
    ∀ (s : State) (eid : EnumId) (w : Nat) (exh : Bool), 1 ≤ w → w ≤ 128 →
      (s.phase = .config → ∃ t, exec (.senum eid w exh) s = .next t ∧ ChangedSchema s t [] ∧ t.phase = s.phase ∧
        t.store.et[eid].valid = true ∧ t.store.et[eid].w.val = w ∧ t.store.et[eid].exh = exh ∧
        t.store.et[eid].nvar = 0 ∧ (∀ j < 256, t.store.et[eid].disc j = 0) ∧
        (∀ g : EnumId, g ≠ eid → t.store.et[g] = s.store.et[g]) ∧ t.store = { s.store with et := t.store.et }) ∧
        (s.phase ≠ .config → ∃ t, exec (.senum eid w exh) s = .next t ∧ FailedPhase s t 0x23 [])

/-- R155 to R158: SVAR appends a variant with the old NVAR as its ordinal; on an undeclared enum it latches SEQ, on a
full one VARCAP, storing nothing; it reports OK in all three cases, and PHASE outside CONFIG. -/
def Obligations.SvarAppendsAVariantOrLatches : Prop :=
  Encoded 0x90000000 0xFFC3FFF0 anyWord (fun w => .svar (Fin.ofNat 16 (field w 0 4)) (fieldReg w 18)) ∧
    ∀ (s : State) (eid : EnumId) (rs1 : Reg),
      let e := s.store.et[eid]
      (s.phase ≠ .config → ∃ t, exec (.svar eid rs1) s = .next t ∧ FailedPhase s t 0x24 [rs1]) ∧
        (s.phase = .config → ∃ t, exec (.svar eid rs1) s = .next t ∧ ChangedSchema s t [rs1] ∧ t.phase = s.phase ∧
          (e.valid = false → Latched s.store t.store 1 eid.val) ∧
          (e.valid = true → e.nvar.val = 256 → Latched s.store t.store 2 eid.val) ∧
          (e.valid = true → e.nvar.val ≠ 256 →
            let e' := t.store.et[eid]
            e'.nvar.val = e.nvar.val + 1 ∧ e'.disc e.nvar.val = s.reg rs1 ∧
              (∀ j, j ≠ e.nvar.val → e'.disc j = e.disc j) ∧ e' = { e with nvar := e'.nvar, vt := e'.vt } ∧
              (∀ g : EnumId, g ≠ eid → t.store.et[g] = s.store.et[g]) ∧
              t.store = { s.store with et := t.store.et }))

/-- SCOMMIT in CONFIG enters READY exactly when no error is latched and the schema is valid (R161, R165, R174), and
then changes nothing else. -/
def Obligations.ScommitAcceptsExactlyTheValidSchemas : Prop :=
  Encoded 0x94000000 0xFFFFFFFF anyWord (fun _ => .scommit) ∧
    ∀ s : State, s.phase = .config → ∃ t, exec .scommit s = .next t ∧ t.store = s.store ∧
      (t.phase = .ready ↔ s.store.serr.check = 0 ∧ SchemaValid s.store) ∧
      (t.phase = .ready → ChangedSchema s t [])

/-- SCOMMIT reports the first failing check in the order of R162, with its objects (R159, R160, R165, R166). -/
def Obligations.ScommitReportsTheFirstFailingCheck : Prop :=
  ∀ (s : State) (c : FailingCheck), s.phase = .config → FirstFailing s.store c →
    ∃ t, exec .scommit s = .next t ∧ t.phase = .failed ∧ Recorded s t .schema (c.report s.store) ∧ SameRegs s t ∧
      t.store = s.store ∧ SamePort s t ∧ MarkAfter s t []

/-! ## System (46_move_system.md) -/

/-- R183: RDCSR reads each CSR as it stood before the command. -/
def Obligations.RdcsrReadsTheRegister : Prop :=
  Encoded 0xA0000000 0xFC3FC07F (fun w => field w 7 7 ≤ 5)
      (fun w => .rdcsr (fieldReg w 22) (csrNumbered (field w 7 7))) ∧
    ∀ (s : State) (rd : Reg),
      let reads := fun (n v : Nat) =>
        ∃ t, exec (.rdcsr rd (csrNumbered n)) s = .next t ∧ WroteReg s t rd [] ∧ (t.reg rd).toNat = v
      reads 0 0x42464345 ∧ reads 1 0x00010000 ∧ reads 2 0xFF0F3F7F ∧ reads 3 (statusNumber s) ∧
        reads 4 s.sticky.toNat ∧ reads 5 s.errval.toNat

/-- R184: CLRS clears STICKY and ERRVAL and nothing else. -/
def Obligations.ClrsClearsStickyAndErrval : Prop :=
  Encoded 0xA4000000 0xFFFFFFFF anyWord (fun _ => .clrs) ∧
    ∀ s : State, ∃ t, exec .clrs s = .next t ∧ t.code = .ok ∧ t.sticky = 0 ∧ t.errval = 0 ∧ SameRegs s t ∧
      SameSchema s t ∧ SamePort s t ∧ MarkAfter s t []

/-! ## All commands (60_exceptions.md, 10_state.md) -/

/-- A command outside its phase raises PHASE and changes no register and no schema state: the schema commands outside
CONFIG (45_schema.md R151), the accessors outside READY (45_schema.md R165), with the phases of 60_exceptions.md R196.
That the mark names `rs1` before `rs2` for FSET is the model's choice, log 3. -/
def Obligations.CommandOutsideItsPhaseRaisesPhase : Prop :=
  ∀ (i : Instr) (s : State) (p : Phase), admittedIn i = some p → s.phase ≠ p →
    ∃ t, exec i s = .next t ∧ FailedPhase s t i.opcode.toNat (registersRead i)

/-- R194: what a failing command writes. -/
def Obligations.FailuresArePrecise : Prop :=
  ∀ (i : Instr) (s t : State), exec i s = .next t → t.code ≠ .ok →
    (t.code ≠ .unmatched → SameRegs s t) ∧
      (t.code = .unmatched → ∃ rd, destination i = some rd ∧ OnlyRegWritten s t rd ∧ t.reg rd = t.errval) ∧
      t.store = s.store ∧ (t.code ≠ .schema → t.phase = s.phase) ∧
      (t.code = .schema → i = .scommit ∧ t.phase = .failed) ∧ SamePort s t ∧
      ∃ info, Recorded s t t.code info

/-- R196: the outcomes each command can report, and the registers it reads, as the `UninitRead` mark shows them. That
the mark names the first of two undefined registers is the model's choice, log 3. -/
def Obligations.CommandsReportTheirOutcomesAndReadTheirRegisters : Prop :=
  ∀ (i : Instr) (s t : State), exec i s = .next t →
    (t.code = .ok ∨ t.code ∈ outcomes i) ∧ MarkAfter s t (registersRead i)

/-- A committed or failed schema changes only by SBEGIN, and the phase changes only by SBEGIN, or by SCOMMIT in CONFIG
(10_state.md R41, 45_schema.md R150, R151, R165). -/
def Obligations.CommittedSchemaIsImmutable : Prop :=
  ∀ (i : Instr) (s t : State), exec i s = .next t → i ≠ .sbegin →
    (s.phase ≠ .config → SameSchema s t) ∧ (i ≠ .scommit → t.phase = s.phase) ∧
      (i = .scommit → t.store = s.store)

/-- The completion update of every command but CLRS (60_exceptions.md R192, 10_state.md R30, R31): OK leaves STICKY and
ERRVAL alone, a failure sets its one STICKY bit. CODE and PHASE are what STATUS then shows. -/
def Obligations.StickyAccumulatesFailures : Prop :=
  ∀ (i : Instr) (s t : State), exec i s = .next t → i ≠ .clrs →
    (t.code = .ok → SameRecord s t) ∧
      (∀ b < 16, t.sticky.getLsbD b =
        (s.sticky.getLsbD b || (decide (t.code ≠ .ok) && decide (b = codeNumber t.code)))) ∧
      t.status.toNat = statusNumber t

/-- The model faults of 60_exceptions.md R207, as the strict step raises them. A command that reads an undefined
register, or a host read of an undefined word, stops with `UninitRead`, before any other condition; an access that is not
an aligned word is refused; an ILLEGAL word causes neither; a faulted state is final. That the stop is a step of its own
beside `step` is the model's choice, log 2; which of two undefined sources `n` names (`rs1` before `rs2`), log 3. -/
def Obligations.StrictStepRaisesTheModelFaults : Prop :=
  ∀ (s : State) (rest : List HostEvent), Inv s →
    (∀ n, s.uninit = some n → stepStrict s = .fault (.uninitRead n)) ∧
      (s.uninit = none →
        (∀ w i n, s.pending = cmdWrite w :: rest → decode w = .ok i → firstUndefined s (registersRead i) = some n →
          stepStrict s = .fault (.uninitRead n)) ∧
        (∀ w i, s.pending = cmdWrite w :: rest → decode w = .ok i → firstUndefined s (registersRead i) = none →
          ∃ t, stepStrict s = .next t ∧ step s = .next t) ∧
        (∀ w, s.pending = cmdWrite w :: rest → (∀ i, decode w ≠ .ok i) → ∃ t, stepStrict s = .next t) ∧
        (∀ (n : Reg) (k : Fin 4), s.pending = .access (.read (0x100 + 16 * n.val + 4 * k.val) 0xF) :: rest →
          s.defined[n].getLsbD k.val = false → stepStrict s = .fault (.uninitRead n)) ∧
        (∀ addr lanes v, addr % 4 ≠ 0 ∨ lanes ≠ 0xF →
          s.pending = .access (.read addr lanes) :: rest ∨ s.pending = .access (.write addr lanes v) :: rest →
            stepStrict s = .fault .hostAccessRefused))

/-- What an unmarked run computes does not depend on the contents of undefined words: two states that agree on every
defined word step alike (10_state.md R22, 93 I8). It is why the named reset value of log 1 can be trusted there. -/
def Obligations.UndefinedWordsDoNotMatter : Prop :=
  ∀ s₁ s₂ t₁ : State, AgreeOnDefined s₁ s₂ → step s₁ = .next t₁ → Clean t₁ →
    ∃ t₂, step s₂ = .next t₂ ∧ AgreeOnDefined t₁ t₂

/-- Every step keeps the invariant: STICKY's unused bits stay clear, the schema store stays well formed, and in READY
the schema is valid (93 I18, 45_schema.md R174, 10_state.md R30 to R40). -/
def Obligations.EveryStepKeepsTheInvariant : Prop :=
  ∀ s t : State, Inv s → step s = .next t → Inv t

/-- The invariant holds at reset. -/
def Obligations.ResetMeetsTheInvariant : Prop := Inv State.reset

/-- In every state that meets the invariant every command completes: no schema defect shows during an access, and an
exhaustive enum always decodes (45_schema.md R175, 43_enum_codec.md R131). -/
def Obligations.EveryCommandCompletesUnderTheInvariant : Prop :=
  ∀ (i : Instr) (s : State), Inv s → ∃ t, exec i s = .next t

/-! ## The assembler (30_encoding.md R81 to R84) -/

/-- R83: the assembler never emits a word that decodes as ILLEGAL. -/
def Obligations.AssemblerEmitsOnlyLegalWords : Prop :=
  ∀ (line : List Char) (ws : List Word), assemble line = some ws → ∀ w ∈ ws, ∃ i, decode w = .ok i

/-- R84: what the pseudo-instructions do when their expansions run, and the descriptor LDESC packs (10_state.md R35). -/
def Obligations.PseudoInstructionsHaveTheirMeaning : Prop :=
  (∀ (s : State) (rd : Reg) (p : Pseudo) (v : Data),
    (p = .clr rd ∧ v = 0) ∨ (∃ x, p = .li32 rd x ∧ v = x.setWidth 128) ∨ (∃ x, p = .li64 rd x ∧ v = x.setWidth 128) ∨
        p = .li128 rd v ∨ (∃ x, p = .ldesc rd x ∧ v = x.setWidth 128) ∨ (∃ r, p = .craw rd r ∧ v = s.reg r) →
      ∃ t, execAll p.expand s = .next t ∧ t.code = .ok ∧ t.reg rd = v ∧ (∀ r, r ≠ rd → t.reg r = s.reg r)) ∧
    ∀ (lo hi : Fin 128) (mode : BitVec 2) (kind : BitVec 3) (eid : EnumId) (rep : Bool) (count stride kw : BitVec 8),
      let d : Data := (packFdesc lo hi mode kind eid rep count stride kw).setWidth 128
      Fdesc.lo d = lo.val ∧ Fdesc.hi d = hi.val ∧ Fdesc.mode d = mode ∧ Fdesc.kindBits d = kind ∧ Fdesc.eid d = eid ∧
        Fdesc.rep d = rep ∧ Fdesc.count d = count.toNat ∧ Fdesc.strideBits d = stride.toNat ∧
        Fdesc.kw d = kw.toNat ∧ ∀ b ∈ reservedBits, d.getLsbD b = false
end

