-- ==== Sys2Proof/Laws/State.lean ====
section
/-! SUPPORT. The values of the configuration constants, the bounds they give as plain numbers, and one lemma per field
per update of State, each true by rfl, so that no proof unfolds a record update. -/

namespace Sys2Proof.Config

/-! ## Constants (00_scope.md R8) -/

@[simp] theorem dw_eq : dw = 128 := rfl
@[simp] theorem nreg_eq : nreg = 16 := rfl
@[simp] theorem nf_eq : nf = 64 := rfl
@[simp] theorem ne_eq : ne = 16 := rfl
@[simp] theorem nv_eq : nv = 256 := rfl

/-- The constants as facts for `omega`, which does not look inside them. -/
theorem values : dw = 128 ∧ nreg = 16 ∧ nf = 64 ∧ ne = 16 ∧ nv = 256 ∧ 2 ^ dw = 2 ^ 128 := ⟨rfl, rfl, rfl, rfl, rfl, rfl⟩

/-- CAP holds each capacity minus one, in its byte (10_state.md R28). -/
theorem capValue_eq : capValue.toNat = (dw - 1) + 2 ^ 8 * (nf - 1) + 2 ^ 16 * (ne - 1) + 2 ^ 24 * (nv - 1) := rfl

end Sys2Proof.Config

namespace Sys2Proof.Machine

/-! ## Bounds -/

theorem Data.toNat_lt (x : Data) : x.toNat < 2 ^ 128 := x.isLt
theorem Reg.val_lt (n : Reg) : n.val < 16 := n.isLt
theorem FieldId.val_lt (f : FieldId) : f.val < 64 := f.isLt
theorem EnumId.val_lt (e : EnumId) : e.val < 16 := e.isLt
theorem SchemaStore.cw_le (st : SchemaStore) : st.cw.val ≤ 128 := Nat.le_of_lt_succ st.cw.isLt
theorem EnumSlot.w_le (e : EnumSlot) : e.w.val ≤ 128 := Nat.le_of_lt_succ e.w.isLt
theorem EnumSlot.nvar_le (e : EnumSlot) : e.nvar.val ≤ 256 := Nat.le_of_lt_succ e.nvar.isLt

/-! ## setReg -/

@[simp] theorem State.setReg_regs (s : State) (n : Reg) (v : Data) : (s.setReg n v).regs = s.regs.set n v := rfl
@[simp] theorem State.setReg_defined (s : State) (n : Reg) (v : Data) : (s.setReg n v).defined = s.defined.set n 0xF#4 := rfl
@[simp] theorem State.setReg_code (s : State) (n : Reg) (v : Data) : (s.setReg n v).code = s.code := rfl
@[simp] theorem State.setReg_sticky (s : State) (n : Reg) (v : Data) : (s.setReg n v).sticky = s.sticky := rfl
@[simp] theorem State.setReg_errval (s : State) (n : Reg) (v : Data) : (s.setReg n v).errval = s.errval := rfl
@[simp] theorem State.setReg_phase (s : State) (n : Reg) (v : Data) : (s.setReg n v).phase = s.phase := rfl
@[simp] theorem State.setReg_store (s : State) (n : Reg) (v : Data) : (s.setReg n v).store = s.store := rfl
@[simp] theorem State.setReg_pending (s : State) (n : Reg) (v : Data) : (s.setReg n v).pending = s.pending := rfl
@[simp] theorem State.setReg_response (s : State) (n : Reg) (v : Data) : (s.setReg n v).response = s.response := rfl
@[simp] theorem State.setReg_uninit (s : State) (n : Reg) (v : Data) : (s.setReg n v).uninit = s.uninit := rfl

/-! ## setRegWord -/

@[simp] theorem State.setRegWord_regs (s : State) (n : Reg) (k : Fin 4) (x : Word) : (s.setRegWord n k x).regs = s.regs.set n (setWordOf s.regs[n] k x) := rfl
@[simp] theorem State.setRegWord_defined (s : State) (n : Reg) (k : Fin 4) (x : Word) : (s.setRegWord n k x).defined = s.defined.set n (s.defined[n] ||| (1#4 <<< k.val)) := rfl
@[simp] theorem State.setRegWord_code (s : State) (n : Reg) (k : Fin 4) (x : Word) : (s.setRegWord n k x).code = s.code := rfl
@[simp] theorem State.setRegWord_sticky (s : State) (n : Reg) (k : Fin 4) (x : Word) : (s.setRegWord n k x).sticky = s.sticky := rfl
@[simp] theorem State.setRegWord_errval (s : State) (n : Reg) (k : Fin 4) (x : Word) : (s.setRegWord n k x).errval = s.errval := rfl
@[simp] theorem State.setRegWord_phase (s : State) (n : Reg) (k : Fin 4) (x : Word) : (s.setRegWord n k x).phase = s.phase := rfl
@[simp] theorem State.setRegWord_store (s : State) (n : Reg) (k : Fin 4) (x : Word) : (s.setRegWord n k x).store = s.store := rfl
@[simp] theorem State.setRegWord_pending (s : State) (n : Reg) (k : Fin 4) (x : Word) : (s.setRegWord n k x).pending = s.pending := rfl
@[simp] theorem State.setRegWord_response (s : State) (n : Reg) (k : Fin 4) (x : Word) : (s.setRegWord n k x).response = s.response := rfl
@[simp] theorem State.setRegWord_uninit (s : State) (n : Reg) (k : Fin 4) (x : Word) : (s.setRegWord n k x).uninit = s.uninit := rfl

/-! ## markUninit -/

@[simp] theorem State.markUninit_regs (s : State) (n : Reg) : (s.markUninit n).regs = s.regs := rfl
@[simp] theorem State.markUninit_defined (s : State) (n : Reg) : (s.markUninit n).defined = s.defined := rfl
@[simp] theorem State.markUninit_code (s : State) (n : Reg) : (s.markUninit n).code = s.code := rfl
@[simp] theorem State.markUninit_sticky (s : State) (n : Reg) : (s.markUninit n).sticky = s.sticky := rfl
@[simp] theorem State.markUninit_errval (s : State) (n : Reg) : (s.markUninit n).errval = s.errval := rfl
@[simp] theorem State.markUninit_phase (s : State) (n : Reg) : (s.markUninit n).phase = s.phase := rfl
@[simp] theorem State.markUninit_store (s : State) (n : Reg) : (s.markUninit n).store = s.store := rfl
@[simp] theorem State.markUninit_pending (s : State) (n : Reg) : (s.markUninit n).pending = s.pending := rfl
@[simp] theorem State.markUninit_response (s : State) (n : Reg) : (s.markUninit n).response = s.response := rfl
@[simp] theorem State.markUninit_uninit (s : State) (n : Reg) : (s.markUninit n).uninit = s.uninit.or (some n) := rfl

/-! ## done -/

@[simp] theorem State.done_regs (s : State) : (s.done).regs = s.regs := rfl
@[simp] theorem State.done_defined (s : State) : (s.done).defined = s.defined := rfl
@[simp] theorem State.done_code (s : State) : (s.done).code = .ok := rfl
@[simp] theorem State.done_sticky (s : State) : (s.done).sticky = s.sticky := rfl
@[simp] theorem State.done_errval (s : State) : (s.done).errval = s.errval := rfl
@[simp] theorem State.done_phase (s : State) : (s.done).phase = s.phase := rfl
@[simp] theorem State.done_store (s : State) : (s.done).store = s.store := rfl
@[simp] theorem State.done_pending (s : State) : (s.done).pending = s.pending := rfl
@[simp] theorem State.done_response (s : State) : (s.done).response = s.response := rfl
@[simp] theorem State.done_uninit (s : State) : (s.done).uninit = s.uninit := rfl

/-! ## failWith -/

@[simp] theorem State.failWith_regs (s : State) (e : Failure) : (s.failWith e).regs = s.regs := rfl
@[simp] theorem State.failWith_defined (s : State) (e : Failure) : (s.failWith e).defined = s.defined := rfl
@[simp] theorem State.failWith_code (s : State) (e : Failure) : (s.failWith e).code = e.code := rfl
@[simp] theorem State.failWith_sticky (s : State) (e : Failure) : (s.failWith e).sticky = s.sticky ||| e.code.stickyBit := rfl
@[simp] theorem State.failWith_errval (s : State) (e : Failure) : (s.failWith e).errval = e.info := rfl
@[simp] theorem State.failWith_phase (s : State) (e : Failure) : (s.failWith e).phase = s.phase := rfl
@[simp] theorem State.failWith_store (s : State) (e : Failure) : (s.failWith e).store = s.store := rfl
@[simp] theorem State.failWith_pending (s : State) (e : Failure) : (s.failWith e).pending = s.pending := rfl
@[simp] theorem State.failWith_response (s : State) (e : Failure) : (s.failWith e).response = s.response := rfl
@[simp] theorem State.failWith_uninit (s : State) (e : Failure) : (s.failWith e).uninit = s.uninit := rfl

/-! ## clearSticky -/

@[simp] theorem State.clearSticky_regs (s : State) (v : Word) : (s.clearSticky v).regs = s.regs := rfl
@[simp] theorem State.clearSticky_defined (s : State) (v : Word) : (s.clearSticky v).defined = s.defined := rfl
@[simp] theorem State.clearSticky_code (s : State) (v : Word) : (s.clearSticky v).code = s.code := rfl
@[simp] theorem State.clearSticky_sticky (s : State) (v : Word) : (s.clearSticky v).sticky = s.sticky &&& ~~~(v.setWidth 16) := rfl
@[simp] theorem State.clearSticky_errval (s : State) (v : Word) : (s.clearSticky v).errval = s.errval := rfl
@[simp] theorem State.clearSticky_phase (s : State) (v : Word) : (s.clearSticky v).phase = s.phase := rfl
@[simp] theorem State.clearSticky_store (s : State) (v : Word) : (s.clearSticky v).store = s.store := rfl
@[simp] theorem State.clearSticky_pending (s : State) (v : Word) : (s.clearSticky v).pending = s.pending := rfl
@[simp] theorem State.clearSticky_response (s : State) (v : Word) : (s.clearSticky v).response = s.response := rfl
@[simp] theorem State.clearSticky_uninit (s : State) (v : Word) : (s.clearSticky v).uninit = s.uninit := rfl

/-! ## clearOutcomes -/

@[simp] theorem State.clearOutcomes_regs (s : State) : (s.clearOutcomes).regs = s.regs := rfl
@[simp] theorem State.clearOutcomes_defined (s : State) : (s.clearOutcomes).defined = s.defined := rfl
@[simp] theorem State.clearOutcomes_code (s : State) : (s.clearOutcomes).code = s.code := rfl
@[simp] theorem State.clearOutcomes_sticky (s : State) : (s.clearOutcomes).sticky = 0 := rfl
@[simp] theorem State.clearOutcomes_errval (s : State) : (s.clearOutcomes).errval = 0 := rfl
@[simp] theorem State.clearOutcomes_phase (s : State) : (s.clearOutcomes).phase = s.phase := rfl
@[simp] theorem State.clearOutcomes_store (s : State) : (s.clearOutcomes).store = s.store := rfl
@[simp] theorem State.clearOutcomes_pending (s : State) : (s.clearOutcomes).pending = s.pending := rfl
@[simp] theorem State.clearOutcomes_response (s : State) : (s.clearOutcomes).response = s.response := rfl
@[simp] theorem State.clearOutcomes_uninit (s : State) : (s.clearOutcomes).uninit = s.uninit := rfl

/-! ## setStore -/

@[simp] theorem State.setStore_regs (s : State) (st : SchemaStore) : (s.setStore st).regs = s.regs := rfl
@[simp] theorem State.setStore_defined (s : State) (st : SchemaStore) : (s.setStore st).defined = s.defined := rfl
@[simp] theorem State.setStore_code (s : State) (st : SchemaStore) : (s.setStore st).code = s.code := rfl
@[simp] theorem State.setStore_sticky (s : State) (st : SchemaStore) : (s.setStore st).sticky = s.sticky := rfl
@[simp] theorem State.setStore_errval (s : State) (st : SchemaStore) : (s.setStore st).errval = s.errval := rfl
@[simp] theorem State.setStore_phase (s : State) (st : SchemaStore) : (s.setStore st).phase = s.phase := rfl
@[simp] theorem State.setStore_store (s : State) (st : SchemaStore) : (s.setStore st).store = st := rfl
@[simp] theorem State.setStore_pending (s : State) (st : SchemaStore) : (s.setStore st).pending = s.pending := rfl
@[simp] theorem State.setStore_response (s : State) (st : SchemaStore) : (s.setStore st).response = s.response := rfl
@[simp] theorem State.setStore_uninit (s : State) (st : SchemaStore) : (s.setStore st).uninit = s.uninit := rfl

/-! ## setPhase -/

@[simp] theorem State.setPhase_regs (s : State) (p : Phase) : (s.setPhase p).regs = s.regs := rfl
@[simp] theorem State.setPhase_defined (s : State) (p : Phase) : (s.setPhase p).defined = s.defined := rfl
@[simp] theorem State.setPhase_code (s : State) (p : Phase) : (s.setPhase p).code = s.code := rfl
@[simp] theorem State.setPhase_sticky (s : State) (p : Phase) : (s.setPhase p).sticky = s.sticky := rfl
@[simp] theorem State.setPhase_errval (s : State) (p : Phase) : (s.setPhase p).errval = s.errval := rfl
@[simp] theorem State.setPhase_phase (s : State) (p : Phase) : (s.setPhase p).phase = p := rfl
@[simp] theorem State.setPhase_store (s : State) (p : Phase) : (s.setPhase p).store = s.store := rfl
@[simp] theorem State.setPhase_pending (s : State) (p : Phase) : (s.setPhase p).pending = s.pending := rfl
@[simp] theorem State.setPhase_response (s : State) (p : Phase) : (s.setPhase p).response = s.response := rfl
@[simp] theorem State.setPhase_uninit (s : State) (p : Phase) : (s.setPhase p).uninit = s.uninit := rfl

/-! ## respond -/

@[simp] theorem State.respond_regs (s : State) (r : Option Word) : (s.respond r).regs = s.regs := rfl
@[simp] theorem State.respond_defined (s : State) (r : Option Word) : (s.respond r).defined = s.defined := rfl
@[simp] theorem State.respond_code (s : State) (r : Option Word) : (s.respond r).code = s.code := rfl
@[simp] theorem State.respond_sticky (s : State) (r : Option Word) : (s.respond r).sticky = s.sticky := rfl
@[simp] theorem State.respond_errval (s : State) (r : Option Word) : (s.respond r).errval = s.errval := rfl
@[simp] theorem State.respond_phase (s : State) (r : Option Word) : (s.respond r).phase = s.phase := rfl
@[simp] theorem State.respond_store (s : State) (r : Option Word) : (s.respond r).store = s.store := rfl
@[simp] theorem State.respond_pending (s : State) (r : Option Word) : (s.respond r).pending = s.pending := rfl
@[simp] theorem State.respond_response (s : State) (r : Option Word) : (s.respond r).response = r := rfl
@[simp] theorem State.respond_uninit (s : State) (r : Option Word) : (s.respond r).uninit = s.uninit := rfl

/-! ## setPending -/

@[simp] theorem State.setPending_regs (s : State) (q : List HostEvent) : (s.setPending q).regs = s.regs := rfl
@[simp] theorem State.setPending_defined (s : State) (q : List HostEvent) : (s.setPending q).defined = s.defined := rfl
@[simp] theorem State.setPending_code (s : State) (q : List HostEvent) : (s.setPending q).code = s.code := rfl
@[simp] theorem State.setPending_sticky (s : State) (q : List HostEvent) : (s.setPending q).sticky = s.sticky := rfl
@[simp] theorem State.setPending_errval (s : State) (q : List HostEvent) : (s.setPending q).errval = s.errval := rfl
@[simp] theorem State.setPending_phase (s : State) (q : List HostEvent) : (s.setPending q).phase = s.phase := rfl
@[simp] theorem State.setPending_store (s : State) (q : List HostEvent) : (s.setPending q).store = s.store := rfl
@[simp] theorem State.setPending_pending (s : State) (q : List HostEvent) : (s.setPending q).pending = q := rfl
@[simp] theorem State.setPending_response (s : State) (q : List HostEvent) : (s.setPending q).response = s.response := rfl
@[simp] theorem State.setPending_uninit (s : State) (q : List HostEvent) : (s.setPending q).uninit = s.uninit := rfl

/-! ## The views of a state -/

@[simp] theorem State.setReg_reg_self (s : State) (n : Reg) (v : Data) : (s.setReg n v).reg n = v := by
  simp [State.reg]

theorem State.setReg_reg_ne (s : State) {n m : Reg} (v : Data) (h : m ≠ n) : (s.setReg n v).reg m = s.reg m := by
  have h' : n.val ≠ m.val := fun e => h (Fin.ext e.symm)
  simp [State.reg, Vector.getElem_set_ne, h']

theorem State.setReg_defined_self (s : State) (n : Reg) (v : Data) : (s.setReg n v).defined[n] = 0xF#4 := by simp

theorem State.setReg_defined_ne (s : State) {n m : Reg} (v : Data) (h : m ≠ n) :
    (s.setReg n v).defined[m] = s.defined[m] := by
  have h' : n.val ≠ m.val := fun e => h (Fin.ext e.symm)
  simp [Vector.getElem_set_ne, h']

/-- A view that reads no field an update changes is unchanged. -/
@[simp] theorem State.done_reg (s : State) (n : Reg) : s.done.reg n = s.reg n := rfl
@[simp] theorem State.failWith_reg (s : State) (e : Failure) (n : Reg) : (s.failWith e).reg n = s.reg n := rfl
@[simp] theorem State.markUninit_reg (s : State) (m n : Reg) : (s.markUninit m).reg n = s.reg n := rfl
@[simp] theorem State.setStore_reg (s : State) (st : SchemaStore) (n : Reg) : (s.setStore st).reg n = s.reg n := rfl
@[simp] theorem State.setPhase_reg (s : State) (p : Phase) (n : Reg) : (s.setPhase p).reg n = s.reg n := rfl
@[simp] theorem State.clearOutcomes_reg (s : State) (n : Reg) : s.clearOutcomes.reg n = s.reg n := rfl
@[simp] theorem State.setPending_reg (s : State) (q : List HostEvent) (n : Reg) : (s.setPending q).reg n = s.reg n := rfl
@[simp] theorem State.respond_reg (s : State) (r : Option Word) (n : Reg) : (s.respond r).reg n = s.reg n := rfl

end Sys2Proof.Machine
end

