-- ==== Sys2Proof/Laws/Ops.lean ====
section
/-! SUPPORT. What the shared operations do, once each: the bit-range primitives bit by bit, the noting of register
reads, the four ways a command ends, and the phase check. -/

namespace Sys2Proof.Machine

/-! ## Bit-range primitives -/

@[simp] theorem getLsbD_mask (k j : Nat) : (mask k).getLsbD j = (decide (j < 128) && decide (j < k)) := by
  simp only [mask, BitVec.getLsbD_setWidth, BitVec.getLsbD_allOnes]

theorem toNat_mask {k : Nat} (h : k ≤ 128) : (mask k).toNat = 2 ^ k - 1 := by
  have : 2 ^ k ≤ 2 ^ 128 := Nat.pow_le_pow_right (by decide) h
  simp only [mask, BitVec.toNat_setWidth, BitVec.toNat_allOnes]
  exact Nat.mod_eq_of_lt (show _ < 2 ^ 128 by omega)

/-- The source's formula `(1 << k) - 1` gives the same mask (00_scope.md R15). -/
theorem mask_eq_shift_sub_one {k : Nat} (h : k ≤ 128) : mask k = (1#128 <<< k) - 1#128 := by
  interval_cases k <;> rfl

theorem getLsbD_extract (c : Data) (lo hi j : Nat) :
    (extract c lo hi).getLsbD j = (decide (j < 128) && decide (j < hi - lo + 1) && c.getLsbD (lo + j)) := by
  simp only [extract, BitVec.getLsbD_and, BitVec.getLsbD_ushiftRight, getLsbD_mask]
  rw [Bool.and_comm]

/-- The bits of `insert` by position: the value's low bits inside the range, the old bits outside it (00_scope.md R16). -/
theorem getLsbD_insert (c v : Data) {lo hi j : Nat} (h : lo ≤ hi) (hj : j < 128) :
    (insert c lo hi v).getLsbD j = if lo ≤ j ∧ j ≤ hi then v.getLsbD (j - lo) else c.getLsbD j := by
  simp only [insert, BitVec.getLsbD_or, BitVec.getLsbD_and, BitVec.getLsbD_not, BitVec.getLsbD_shiftLeft, getLsbD_mask, hj]
  by_cases h1 : lo ≤ j <;> by_cases h2 : j ≤ hi
  · have a : j - lo < hi - lo + 1 := by omega
    have b : ¬ j < lo := by omega
    have c : j - lo < 128 := by omega
    simp [h1, h2, a, b, c]
  · have a : ¬ j - lo < hi - lo + 1 := by omega
    simp [h2, a]
  · have b : j < lo := by omega
    simp [h1, b]
  · have b : j < lo := by omega
    simp [h1, b]

/-- `extract` as arithmetic: shift down, keep `hi - lo + 1` bits. -/
theorem toNat_extract (c : Data) {lo hi : Nat} (hw : hi - lo + 1 ≤ 128) :
    (extract c lo hi).toNat = c.toNat / 2 ^ lo % 2 ^ (hi - lo + 1) := by
  rw [extract, BitVec.toNat_and, toNat_mask hw, BitVec.toNat_ushiftRight, Nat.shiftRight_eq_div_pow,
    Nat.and_two_pow_sub_one_eq_mod]

theorem toNat_and_mask (x : Data) {w : Nat} (hw : w ≤ 128) : (x &&& mask w).toNat = x.toNat % 2 ^ w := by
  rw [BitVec.toNat_and, toNat_mask hw, Nat.and_two_pow_sub_one_eq_mod]

/-- Masking before truncation changes nothing, so `signExtend` sees the low `w` bits alone. -/
theorem setWidth_and_mask (x : Data) (w : Nat) : (x &&& mask w).setWidth w = x.setWidth w := by
  apply BitVec.eq_of_getLsbD_eq
  intro i hi
  simp only [BitVec.getLsbD_setWidth, BitVec.getLsbD_and, getLsbD_mask, hi]
  by_cases h : i < 128
  · simp [h]
  · simp [h, BitVec.getLsbD_of_ge x i (Nat.le_of_not_lt h)]

theorem signExtend_eq (x : Data) (w : Nat) : signExtend x w = (x.setWidth w).signExtend 128 := by
  rw [signExtend, setWidth_and_mask]

/-! ## Words of a register -/

/-- Writing a word changes that word alone (20_memory.md R56). -/
theorem wordOf_setWordOf (v : Data) (k k' : Fin 4) (x : Word) :
    wordOf (setWordOf v k x) k' = if k' = k then x else wordOf v k' := by
  have hk := k.isLt
  have hk' := k'.isLt
  apply BitVec.eq_of_getLsbD_eq
  intro i hi
  simp only [wordOf, BitVec.getLsbD_extractLsb', hi, decide_true, Bool.true_and, setWordOf]
  rw [getLsbD_insert _ _ (by omega) (by omega)]
  by_cases h : k' = k
  · subst h
    have a : 32 * k'.val ≤ 32 * k'.val + i ∧ 32 * k'.val + i ≤ 32 * k'.val + 31 := by omega
    have b : 32 * k'.val + i - 32 * k'.val = i := by omega
    have c : i < 128 := by omega
    rw [if_pos a, if_pos rfl, b, BitVec.getLsbD_setWidth]
    simp [c]
  · have h' : k'.val ≠ k.val := fun e => h (Fin.ext e)
    have a : ¬(32 * k.val ≤ 32 * k'.val + i ∧ 32 * k'.val + i ≤ 32 * k.val + 31) := by omega
    rw [if_neg a, if_neg h, BitVec.getLsbD_extractLsb']
    simp [hi]

/-! ## Noting register reads -/

/-- All that noting reads does is to the mark: it takes the first undefined register if it is still empty
(60_exceptions.md R207). -/
theorem State.noteReads_eq (ns : List Reg) (s : State) :
    s.noteReads ns = { s with uninit := s.uninit.or (ns.find? fun n => !s.regDefined n) } := by
  induction ns generalizing s with
  | nil => simp [State.noteReads]
  | cons n ns ih =>
    have step : s.noteReads (n :: ns) = (s.noteRead n).noteReads ns := rfl
    rw [step, ih, List.find?_cons]
    by_cases h : s.regDefined n = true
    · simp [State.noteRead, h]
    · have h' : s.regDefined n = false := by simpa using h
      cases hu : s.uninit <;> simp [State.noteRead, State.markUninit, h', hu]

@[simp] theorem State.noteReads_regs (ns : List Reg) (s : State) : (s.noteReads ns).regs = s.regs := by
  rw [State.noteReads_eq]
@[simp] theorem State.noteReads_defined (ns : List Reg) (s : State) : (s.noteReads ns).defined = s.defined := by
  rw [State.noteReads_eq]
@[simp] theorem State.noteReads_code (ns : List Reg) (s : State) : (s.noteReads ns).code = s.code := by
  rw [State.noteReads_eq]
@[simp] theorem State.noteReads_sticky (ns : List Reg) (s : State) : (s.noteReads ns).sticky = s.sticky := by
  rw [State.noteReads_eq]
@[simp] theorem State.noteReads_errval (ns : List Reg) (s : State) : (s.noteReads ns).errval = s.errval := by
  rw [State.noteReads_eq]
@[simp] theorem State.noteReads_phase (ns : List Reg) (s : State) : (s.noteReads ns).phase = s.phase := by
  rw [State.noteReads_eq]
@[simp] theorem State.noteReads_store (ns : List Reg) (s : State) : (s.noteReads ns).store = s.store := by
  rw [State.noteReads_eq]
@[simp] theorem State.noteReads_pending (ns : List Reg) (s : State) : (s.noteReads ns).pending = s.pending := by
  rw [State.noteReads_eq]
@[simp] theorem State.noteReads_response (ns : List Reg) (s : State) : (s.noteReads ns).response = s.response := by
  rw [State.noteReads_eq]
theorem State.noteReads_uninit (ns : List Reg) (s : State) :
    (s.noteReads ns).uninit = s.uninit.or (ns.find? fun n => !s.regDefined n) := by
  rw [State.noteReads_eq]
@[simp] theorem State.noteReads_reg (ns : List Reg) (s : State) (n : Reg) : (s.noteReads ns).reg n = s.reg n := by
  rw [State.noteReads_eq]; rfl
@[simp] theorem State.noteReads_nil (s : State) : s.noteReads [] = s := rfl

/-! ## How a command ends -/

@[simp] theorem finish_next_iff {s t : State} : finish s = .next t ↔ t = s.done := by
  simp [finish, eq_comm]

@[simp] theorem finishWith_next_iff {rd : Reg} {v : Data} {s t : State} :
    finishWith rd v s = .next t ↔ t = (s.setReg rd v).done := by
  simp [finishWith, eq_comm]

@[simp] theorem fail_next_iff {e : Failure} {s t : State} : fail e s = .next t ↔ t = s.failWith e := by
  simp [fail, eq_comm]

@[simp] theorem failUnmatched_next_iff {rd : Reg} {raw : Data} {s t : State} :
    failUnmatched rd raw s = .next t ↔ t = (s.setReg rd raw).failWith ⟨.unmatched, raw⟩ := by
  simp [failUnmatched, eq_comm]

/-- A guarded ending either raises its failure or is the ending itself. -/
theorem unlessFails_next_iff {e : Option Failure} {s t : State} {go : Result} :
    unlessFails e s go = .next t ↔ (∃ f, e = some f ∧ t = s.failWith f) ∨ (e = none ∧ go = .next t) := by
  cases e <;> simp [unlessFails]

@[simp] theorem unlessFails_none {s : State} {go : Result} : unlessFails none s go = go := rfl

@[simp] theorem unlessFails_some {f : Failure} {s : State} {go : Result} :
    unlessFails (some f) s go = .next (s.failWith f) := rfl

/-! ## The phase check -/

@[simp] theorem admitIn_of_phase {p : Phase} {op : BitVec 6} {s : State} (h : s.phase = p) : admitIn p op s = none := by
  simp [admitIn, h]

theorem admitIn_of_ne {p : Phase} {op : BitVec 6} {s : State} (h : s.phase ≠ p) :
    admitIn p op s = some ⟨.phase, phaseInfo op s.phase⟩ := by
  simp [admitIn, h]

/-- The phase check fails with PHASE or not at all. -/
theorem admitIn_some {p : Phase} {op : BitVec 6} {s : State} {f : Failure} (h : admitIn p op s = some f) :
    s.phase ≠ p ∧ f = ⟨.phase, phaseInfo op s.phase⟩ := by
  by_cases hp : s.phase = p
  · simp [admitIn, hp] at h
  · rw [admitIn_of_ne hp] at h; exact ⟨hp, (Option.some.inj h).symm⟩

/-- PHASE's information value as a number (60_exceptions.md R193). -/
theorem toNat_phaseInfo (op : BitVec 6) (p : Phase) : (phaseInfo op p).toNat = 256 * op.toNat + p.bits.toNat := by
  cases p <;> revert op <;> decide

end Sys2Proof.Machine
end

