-- ==== Sys2Proof/Laws/Operands.lean ====
section
/-! SUPPORT. What the operand forms do, once each: the descriptor's quantities, the enum lookup, and the admission of
fields and enums. -/

namespace Sys2Proof.Machine

/-! ## The descriptor (10_state.md R36) -/

theorem Fdesc.lo_lt (d : Data) : Fdesc.lo d < 128 := (d.extractLsb' 0 7).isLt

theorem Fdesc.hi_lt (d : Data) : Fdesc.hi d < 128 := (d.extractLsb' 8 7).isLt

theorem Fdesc.width_pos (d : Data) : 1 ≤ Fdesc.width d := by simp [Fdesc.width]

theorem Fdesc.width_le (d : Data) : Fdesc.width d ≤ 128 := by
  have := Fdesc.hi_lt d
  simp only [Fdesc.width]
  omega

/-- An instance spans `width` bits. -/
theorem Fdesc.hiAt_eq (d : Data) (i : Nat) : Fdesc.hiAt d i + 1 = Fdesc.loAt d i + Fdesc.width d := by
  have := Fdesc.width_pos d
  simp only [Fdesc.hiAt]
  omega

theorem Fdesc.loAt_le_hiAt (d : Data) (i : Nat) : Fdesc.loAt d i ≤ Fdesc.hiAt d i := by
  have := Fdesc.hiAt_eq d i
  have := Fdesc.width_pos d
  omega

/-- The span of an instance, as `extract` and `insert` count it. -/
theorem Fdesc.span_eq (d : Data) (i : Nat) : Fdesc.hiAt d i - Fdesc.loAt d i + 1 = Fdesc.width d := by
  have := Fdesc.hiAt_eq d i
  have := Fdesc.loAt_le_hiAt d i
  omega

/-- KIND below 5 names a kind and KIND from 5 up names none (10_state.md R38). -/
theorem Fdesc.kind_eq_none_iff (d : Data) : Fdesc.kind d = none ↔ 5 ≤ (Fdesc.kindBits d).toNat := by
  unfold Fdesc.kind
  generalize Fdesc.kindBits d = k
  revert k
  decide

theorem Fdesc.kind_eq_some_iff (d : Data) (k : ValueKind) :
    Fdesc.kind d = some k ↔ Fdesc.kindBits d =
      (match k with | .bool => 0#3 | .unsigned => 1#3 | .signed => 2#3 | .enumExhaustive => 3#3 | .enumPartial => 4#3) := by
  unfold Fdesc.kind
  generalize Fdesc.kindBits d = b
  cases k <;> revert b <;> decide

/-! ## The enum lookup (43_enum_codec.md R130) -/

/-- What `find` answers is the least ordinal below NVAR with the discriminant. -/
theorem EnumSlot.find_eq_some_iff (e : EnumSlot) (raw : Data) (j : Nat) :
    e.find raw = some j ↔ j < e.nvar.val ∧ e.disc j = raw ∧ ∀ i < j, e.disc i ≠ raw := by
  simp only [EnumSlot.find, List.find?_range_eq_some, beq_iff_eq, List.mem_range, Bool.not_eq_true', beq_eq_false_iff_ne]
  constructor
  · rintro ⟨a, b, c⟩; exact ⟨b, a, c⟩
  · rintro ⟨a, b, c⟩; exact ⟨b, a, c⟩

/-- `find` answers nothing exactly when no declared variant has the discriminant. -/
theorem EnumSlot.find_eq_none_iff (e : EnumSlot) (raw : Data) :
    e.find raw = none ↔ ∀ j < e.nvar.val, e.disc j ≠ raw := by
  simp [EnumSlot.find]

theorem EnumSlot.disc_of_ge (e : EnumSlot) {j : Nat} (h : 256 ≤ j) : e.disc j = 0 := by
  simp [EnumSlot.disc, h]

/-- Appending a variant changes the discriminant at the old NVAR alone (45_schema.md R155). -/
theorem EnumSlot.append_disc (e : EnumSlot) (h : e.nvar.val < 256) (d : Data) (j : Nat) :
    (e.append h d).disc j = if j = e.nvar.val then d else e.disc j := by
  simp only [EnumSlot.append, EnumSlot.disc]
  by_cases hj : j = e.nvar.val
  · subst hj; simp [h]
  · simp [hj, Ne.symm hj]

/-! ## Admission (42_field_access.md R110) -/

/-- A field access is admitted by `admitField` when the slot is valid, the mode allows it and the index is in range. -/
theorem admitField_none_iff (dir : Direction) (fid : FieldId) (idx : Fin 128) (s : State) :
    admitField dir fid idx s = none ↔
      s.store.ft[fid].valid = true ∧ dir.allowed s.store.ft[fid].desc = true ∧
        idx.val < Fdesc.instances s.store.ft[fid].desc := by
  simp only [admitField]
  cases s.store.ft[fid].valid <;> cases dir.allowed s.store.ft[fid].desc <;> simp

/-- A refused field access fails with NOFIELD, ACCESS or INDEX. -/
theorem admitField_code {dir : Direction} {fid : FieldId} {idx : Fin 128} {s : State} {f : Failure}
    (h : admitField dir fid idx s = some f) : f.code = .nofield ∨ f.code = .access ∨ f.code = .index := by
  simp only [admitField] at h
  split at h
  · cases h; simp
  · split at h
    · cases h; simp
    · split at h
      · cases h
      · cases h; simp

theorem admitEnum_code {eid : EnumId} {s : State} {f : Failure} (h : admitEnum eid s = some f) :
    s.store.et[eid].valid = false ∧ f.code = .nofield := by
  simp only [admitEnum] at h
  split at h
  · cases h
  · cases h; simp_all

theorem admitOrdinal_code {e : EnumSlot} {x : Data} {f : Failure} (h : admitOrdinal e x = some f) :
    e.nvar.val ≤ x.toNat ∧ f = ⟨.badvar, x⟩ := by
  simp only [admitOrdinal] at h
  split at h
  · cases h
  · cases h; exact ⟨by omega, rfl⟩

theorem Direction.allowed_get_iff (d : Data) :
    Direction.get.allowed d = true ↔ Fdesc.mode d = 1 ∨ Fdesc.mode d = 3 := by
  simp [Direction.allowed, Fdesc.canGet]

theorem Direction.allowed_set_iff (d : Data) :
    Direction.set.allowed d = true ↔ Fdesc.mode d = 2 ∨ Fdesc.mode d = 3 := by
  simp [Direction.allowed, Fdesc.canSet]

/-! ## Overlap (45_schema.md R173) -/

/-- The interval test of the validator finds a shared bit exactly when there is one. -/
theorem fieldsOverlap_iff_shared_bit (d e : Data) :
    fieldsOverlap d e = true ↔ ∃ b, Safety.Covers d b ∧ Safety.Covers e b := by
  simp only [fieldsOverlap, List.any_eq_true, List.mem_range, Bool.and_eq_true, decide_eq_true_eq]
  constructor
  · rintro ⟨i, hi, k, hk, h1, h2⟩
    have a := Fdesc.loAt_le_hiAt d i
    have b := Fdesc.loAt_le_hiAt e k
    exact ⟨max (Fdesc.loAt d i) (Fdesc.loAt e k), ⟨i, hi, by omega, by omega⟩, ⟨k, hk, by omega, by omega⟩⟩
  · rintro ⟨b, ⟨i, hi, h1, h2⟩, ⟨k, hk, h3, h4⟩⟩
    exact ⟨i, hi, k, hk, by omega, by omega⟩

end Sys2Proof.Machine
end

