-- ==== Sys2Proof/Laws/Endings.lean ====
section
/-! SUPPORT. The ways a command ends, in the terms of the claims: what each writes and what it leaves alone. -/

namespace Sys2Proof.Machine

open Sys2Proof.Safety

/-! ## Numbers of codes, phases and STATUS -/

theorem Phase.toNat_bits (p : Phase) : p.bits.toNat = phaseNumber p := by cases p <;> rfl

theorem Code.getLsbD_stickyBit (c : Code) : ∀ b < 16, c.stickyBit.getLsbD b = decide (b = codeNumber c) := by
  cases c <;> decide

/-- STATUS as the claims number it (10_state.md R29). -/
theorem State.status_toNat (s : State) : s.status.toNat = statusNumber s := by
  simp only [State.status, statusNumber, SchemaLatch.pending]
  by_cases hc : s.store.serr.check = 0
  · simp only [hc]; cases s.phase <;> cases s.code <;> rfl
  · have hb : (s.store.serr.check != 0) = true := bne_iff_ne.2 hc
    simp only [hc, hb]; cases s.phase <;> cases s.code <;> rfl

/-! ## The mark -/

theorem firstUndefined_eq (s : State) (ns : List Reg) : firstUndefined s ns = ns.find? fun n => !s.regDefined n := by
  have h : ∀ b : BitVec 4, decide (∃ k : Fin 4, b.getLsbD k.val = false) = !(b == 0xF#4) := by decide
  unfold firstUndefined
  congr 1
  funext n
  exact h _

/-- Noting the reads is the only thing that moves the mark (60_exceptions.md R207). -/
theorem State.noteReads_mark (s : State) (ns : List Reg) : MarkAfter s (s.noteReads ns) ns := by
  rw [MarkAfter, State.noteReads_uninit, firstUndefined_eq]

theorem markAfter_nil {s t : State} (h : t.uninit = s.uninit) : MarkAfter s t [] := by
  simp [MarkAfter, firstUndefined, h]

/-! ## Writing one register -/

@[simp] theorem reg_setReg_done (n : State) (rd : Reg) (v : Data) : (n.setReg rd v).done.reg rd = v := by simp

@[simp] theorem reg_setReg_failWith (n : State) (rd : Reg) (v : Data) (e : Failure) :
    ((n.setReg rd v).failWith e).reg rd = v := by simp

theorem onlyRegWritten_setReg (s : State) (ns : List Reg) (rd : Reg) (v : Data) :
    OnlyRegWritten s ((s.noteReads ns).setReg rd v) rd := by
  refine ⟨fun r hr => ⟨?_, ?_⟩, fun k hk => ?_⟩
  · rw [State.setReg_reg_ne _ _ hr, State.noteReads_reg]
  · rw [State.setReg_defined_ne _ _ hr, State.noteReads_defined]
  · rw [State.setReg_defined_self]
    interval_cases k <;> rfl

/-! ## The endings -/

/-- OK, with one register written. -/
theorem wroteReg (s : State) (ns : List Reg) (rd : Reg) (v : Data) :
    WroteReg s ((s.noteReads ns).setReg rd v).done rd ns :=
  have h := onlyRegWritten_setReg s ns rd v
  ⟨rfl, ⟨h.1, h.2⟩, ⟨by simp, by simp⟩, ⟨by simp, by simp⟩, ⟨by simp, by simp⟩, s.noteReads_mark ns⟩

/-- The completion update of a failing outcome (60_exceptions.md R192). -/
theorem recorded_failWith {s n : State} {e : Failure} {info : Nat} (hs : n.sticky = s.sticky)
    (hi : e.info.toNat = info) : Recorded s (n.failWith e) e.code info := by
  refine ⟨rfl, fun b hb => ?_, hi⟩
  rw [State.failWith_sticky, hs, BitVec.getLsbD_or, e.code.getLsbD_stickyBit b hb]

/-- A failing outcome that writes nothing else (60_exceptions.md R194). -/
theorem failedWith (s : State) (ns : List Reg) (e : Failure) {info : Nat} (hi : e.info.toNat = info) :
    FailedWith s ((s.noteReads ns).failWith e) e.code info ns :=
  ⟨recorded_failWith (by simp) hi, ⟨by simp, by simp⟩, ⟨by simp, by simp⟩, ⟨by simp, by simp⟩,
    s.noteReads_mark ns⟩

/-- PHASE (60_exceptions.md R193). -/
theorem failedPhase (s : State) (ns : List Reg) (op : BitVec 6) :
    FailedPhase s ((s.noteReads ns).failWith ⟨.phase, phaseInfo op s.phase⟩) op.toNat ns :=
  failedWith s ns ⟨.phase, _⟩ (by rw [toNat_phaseInfo, Phase.toNat_bits])

/-- UNMATCHED (60_exceptions.md R194). -/
theorem failedUnmatched (s : State) (ns : List Reg) (rd : Reg) (raw : Data) :
    FailedUnmatched s (((s.noteReads ns).setReg rd raw).failWith ⟨.unmatched, raw⟩) rd raw.toNat ns :=
  have h := onlyRegWritten_setReg s ns rd raw
  ⟨recorded_failWith (e := ⟨.unmatched, raw⟩) (by simp) rfl, ⟨h.1, h.2⟩, by simp, ⟨by simp, by simp⟩,
    ⟨by simp, by simp⟩, s.noteReads_mark ns⟩

/-- OK, with another schema store. -/
theorem changedSchema (s : State) (ns : List Reg) (st : SchemaStore) :
    ChangedSchema s ((s.noteReads ns).setStore st).done ns :=
  ⟨rfl, ⟨by simp, by simp⟩, ⟨by simp, by simp⟩, ⟨by simp, by simp⟩, s.noteReads_mark ns⟩

end Sys2Proof.Machine
end

