-- ==== Sys2Proof/Laws/Access.lean ====
section
/-! SUPPORT. The field accessors and the enum commands, one equation for each of their paths. -/

namespace Sys2Proof.Machine

open Sys2Proof.Safety

/-! ## WidthInteger (41_widthint.md) -/

theorem valueOf_signed (x : Data) {w : Nat} (h : 1 ≤ w) : valueOf x w .signed = (x.setWidth w).toInt := by
  have hp : 2 ^ w = 2 * 2 ^ (w - 1) := by rw [← Nat.pow_succ']; congr 1; omega
  have hl : x.toNat % 2 ^ w < 2 ^ w := Nat.mod_lt _ (by positivity)
  rw [BitVec.toInt_eq_toNat_cond, valueOf, BitVec.toNat_setWidth]
  simp only [true_and]
  split <;> split <;> first | omega | simp

theorem valueOf_unsigned (x : Data) (w : Nat) : valueOf x w .unsigned = (x.setWidth w).toNat := by simp [valueOf]

theorem logicalValue_eq_valueOf (x : Data) {w : Nat} (h : 1 ≤ w) (sg : Sign) : logicalValue x w sg = valueOf x w sg := by
  cases sg
  · rw [valueOf_unsigned]; rfl
  · rw [valueOf_signed _ h]; rfl

/-- The bits of a canonical form: the low bits, and above them zeros or copies of the sign bit. -/
theorem getLsbD_canonical (x : Data) {w : Nat} (h : 1 ≤ w) (sg : Sign) {j : Nat} (hj : j < 128) :
    (canonical x w sg).getLsbD j = if j < w then x.getLsbD j else decide (sg = .signed) && x.getLsbD (w - 1) := by
  cases sg
  · simp only [canonical, BitVec.getLsbD_setWidth, hj]
    by_cases hw : j < w <;> simp [hw]
  · have hl : w - 1 < w := by omega
    simp only [canonical, BitVec.getLsbD_signExtend, hj, BitVec.msb_eq_getLsbD_last, BitVec.getLsbD_setWidth]
    by_cases hw : j < w <;> simp [hw, hl]

/-! ## Information values (60_exceptions.md R193) -/

theorem toNat_accessInfo_set : ∀ f : FieldId, (0x100#128 ||| BitVec.ofNat 128 f.val).toNat = 256 + f.val := by decide

theorem toNat_enumInfo : ∀ e : EnumId, (0x100#128 ||| BitVec.ofNat 128 e.val).toNat = 256 + e.val := by decide

theorem toNat_indexInfo (f : FieldId) (i : Fin 128) : (indexInfo f i).toNat = 256 * f.val + i.val := by
  have hf : f.val < 64 := f.isLt
  have hi := i.isLt
  simp only [indexInfo, BitVec.toNat_setWidth, BitVec.toNat_append, BitVec.toNat_ofNat]
  rw [Nat.mod_eq_of_lt (show f.val < 2 ^ 8 by omega), Nat.mod_eq_of_lt (show i.val < 2 ^ 8 by omega),
    ← Nat.shiftLeft_add_eq_or_of_lt (by omega), Nat.shiftLeft_eq, Nat.mod_eq_of_lt (show _ < 2 ^ 128 by omega)]
  omega

/-! ## The bits of an instance (42_field_access.md R111) -/

theorem toNat_fieldBits (d : Data) (idx : Fin 128) (c : Data) :
    (fieldBits d idx c).toNat = pattern c (Fdesc.loAt d idx.val) (Fdesc.width d) := by
  rw [fieldBits, toNat_extract _ (by rw [Fdesc.span_eq]; exact Fdesc.width_le d), Fdesc.span_eq]
  rfl

theorem getLsbD_fieldBits (d : Data) (idx : Fin 128) (c : Data) {j : Nat} (hj : j < 128) :
    (fieldBits d idx c).getLsbD j = (decide (j < Fdesc.width d) && c.getLsbD (Fdesc.loAt d idx.val + j)) := by
  rw [fieldBits, getLsbD_extract, Fdesc.span_eq]
  simp [hj]

theorem getLsbD_withField (d : Data) (idx : Fin 128) (c v : Data) {j : Nat} (hj : j < 128) :
    (withField d idx c v).getLsbD j =
      if Fdesc.loAt d idx.val ≤ j ∧ j < Fdesc.loAt d idx.val + Fdesc.width d then v.getLsbD (j - Fdesc.loAt d idx.val)
      else c.getLsbD j := by
  have h := Fdesc.hiAt_eq d idx.val
  have hr : Fdesc.loAt d idx.val ≤ j ∧ j ≤ Fdesc.hiAt d idx.val ↔
      Fdesc.loAt d idx.val ≤ j ∧ j < Fdesc.loAt d idx.val + Fdesc.width d := by omega
  rw [withField, getLsbD_insert _ _ (Fdesc.loAt_le_hiAt ..) hj]
  simp only [hr]

/-! ## FGET (42_field_access.md R112, R114) -/

theorem admitAccess_get {s : State} {fid : FieldId} {idx : Fin 128} (h : MayGet s fid idx) :
    admitAccess .get Opcode.fget fid idx s = none := by
  obtain ⟨h1, h2, h3, h4⟩ := h
  rw [admitAccess, admitIn_of_phase h1, (admitField_none_iff ..).2 ⟨h2, (Direction.allowed_get_iff _).2 h3, h4⟩]
  rfl

theorem admitAccess_set {s : State} {fid : FieldId} {idx : Fin 128} (h : MaySet s fid idx) :
    admitAccess .set Opcode.fset fid idx s = none := by
  obtain ⟨h1, h2, h3, h4⟩ := h
  rw [admitAccess, admitIn_of_phase h1, (admitField_none_iff ..).2 ⟨h2, (Direction.allowed_set_iff _).2 h3, h4⟩]
  rfl

/-- A refused FGET. -/
theorem fget_refused {s : State} {rd rs1 : Reg} {fid : FieldId} {idx : Fin 128} {e : Failure}
    (h : admitAccess .get Opcode.fget fid idx s = some e) :
    exec (.fget rd rs1 fid idx) s = .next ((s.noteReads [rs1]).failWith e) := by
  show execFget rd rs1 fid idx s = _
  rw [execFget, h]
  rfl

theorem fget_bool {s : State} {rd rs1 : Reg} {fid : FieldId} {idx : Fin 128} (h : MayGet s fid idx)
    (hk : Fdesc.kind s.store.ft[fid].desc = some .bool) :
    exec (.fget rd rs1 fid idx) s = .next ((s.noteReads [rs1]).setReg rd
      (if fieldBits s.store.ft[fid].desc idx (s.reg rs1) = 0 then 0 else 1)).done := by
  show execFget rd rs1 fid idx s = _
  rw [execFget, admitAccess_get h, hk]
  rfl

theorem fget_unsigned {s : State} {rd rs1 : Reg} {fid : FieldId} {idx : Fin 128} (h : MayGet s fid idx)
    (hk : Fdesc.kind s.store.ft[fid].desc = some .unsigned) :
    exec (.fget rd rs1 fid idx) s =
      .next ((s.noteReads [rs1]).setReg rd (fieldBits s.store.ft[fid].desc idx (s.reg rs1))).done := by
  show execFget rd rs1 fid idx s = _
  rw [execFget, admitAccess_get h, hk]
  rfl

theorem fget_signed {s : State} {rd rs1 : Reg} {fid : FieldId} {idx : Fin 128} (h : MayGet s fid idx)
    (hk : Fdesc.kind s.store.ft[fid].desc = some .signed) :
    exec (.fget rd rs1 fid idx) s = .next ((s.noteReads [rs1]).setReg rd
      (signExtend (fieldBits s.store.ft[fid].desc idx (s.reg rs1)) (Fdesc.width s.store.ft[fid].desc))).done := by
  show execFget rd rs1 fid idx s = _
  rw [execFget, admitAccess_get h, hk]
  rfl

/-- An enum field whose bits are a declared discriminant. -/
theorem fget_matched {s : State} {rd rs1 : Reg} {fid : FieldId} {idx : Fin 128} {j : Nat} (h : MayGet s fid idx)
    (hk : Fdesc.kind s.store.ft[fid].desc = some .enumExhaustive ∨ Fdesc.kind s.store.ft[fid].desc = some .enumPartial)
    (hf : (s.store.enumOf s.store.ft[fid].desc).find (fieldBits s.store.ft[fid].desc idx (s.reg rs1)) = some j) :
    exec (.fget rd rs1 fid idx) s = .next ((s.noteReads [rs1]).setReg rd (ordinal j)).done := by
  show execFget rd rs1 fid idx s = _
  rcases hk with hk | hk <;> (rw [execFget, admitAccess_get h, hk]; simp only [unlessFails_none, hf]; rfl)

/-- A partial enum field whose bits are no declared discriminant. -/
theorem fget_unmatched {s : State} {rd rs1 : Reg} {fid : FieldId} {idx : Fin 128} (h : MayGet s fid idx)
    (hk : Fdesc.kind s.store.ft[fid].desc = some .enumPartial)
    (hf : (s.store.enumOf s.store.ft[fid].desc).find (fieldBits s.store.ft[fid].desc idx (s.reg rs1)) = none) :
    exec (.fget rd rs1 fid idx) s =
      .next (((s.noteReads [rs1]).setReg rd (fieldBits s.store.ft[fid].desc idx (s.reg rs1))).failWith
        ⟨.unmatched, fieldBits s.store.ft[fid].desc idx (s.reg rs1)⟩) := by
  show execFget rd rs1 fid idx s = _
  rw [execFget, admitAccess_get h, hk]
  simp only [unlessFails_none, hf]
  rfl

/-! ## FSET (42_field_access.md R113, R115) -/

/-- A refused FSET. -/
theorem fset_refused {s : State} {rd rs1 rs2 : Reg} {fid : FieldId} {idx : Fin 128} {e : Failure}
    (h : admitAccess .set Opcode.fset fid idx s = some e) :
    exec (.fset rd rs1 rs2 fid idx) s = .next ((s.noteReads [rs1, rs2]).failWith e) := by
  show execFset rd rs1 rs2 fid idx s = _
  rw [execFset, h]
  rfl

theorem fset_bool {s : State} {rd rs1 rs2 : Reg} {fid : FieldId} {idx : Fin 128} (h : MaySet s fid idx)
    (hk : Fdesc.kind s.store.ft[fid].desc = some .bool) :
    exec (.fset rd rs1 rs2 fid idx) s = .next ((s.noteReads [rs1, rs2]).setReg rd
      (withField s.store.ft[fid].desc idx (s.reg rs1) (s.reg rs2 &&& 1))).done := by
  show execFset rd rs1 rs2 fid idx s = _
  rw [execFset, admitAccess_set h, hk]
  rfl

theorem fset_integer {s : State} {rd rs1 rs2 : Reg} {fid : FieldId} {idx : Fin 128} (h : MaySet s fid idx)
    (hk : Fdesc.kind s.store.ft[fid].desc = some .unsigned ∨ Fdesc.kind s.store.ft[fid].desc = some .signed) :
    exec (.fset rd rs1 rs2 fid idx) s = .next ((s.noteReads [rs1, rs2]).setReg rd
      (withField s.store.ft[fid].desc idx (s.reg rs1) (s.reg rs2 &&& mask (Fdesc.width s.store.ft[fid].desc)))).done := by
  show execFset rd rs1 rs2 fid idx s = _
  rcases hk with hk | hk <;> (rw [execFset, admitAccess_set h, hk]; rfl)

/-- An enum field: BADVAR, or the discriminant stored. -/
theorem fset_enum {s : State} {rd rs1 rs2 : Reg} {fid : FieldId} {idx : Fin 128} (h : MaySet s fid idx)
    (hk : Fdesc.kind s.store.ft[fid].desc = some .enumExhaustive ∨
      Fdesc.kind s.store.ft[fid].desc = some .enumPartial) :
    exec (.fset rd rs1 rs2 fid idx) s =
      unlessFails (admitOrdinal (s.store.enumOf s.store.ft[fid].desc) (s.reg rs2)) (s.noteReads [rs1, rs2])
        (.next ((s.noteReads [rs1, rs2]).setReg rd (withField s.store.ft[fid].desc idx (s.reg rs1)
          ((s.store.enumOf s.store.ft[fid].desc).disc (s.reg rs2).toNat))).done) := by
  show execFset rd rs1 rs2 fid idx s = _
  rcases hk with hk | hk <;> (rw [execFset, admitAccess_set h, hk]; rfl)

/-! ## EDEC and EENC (43_enum_codec.md R134, R135) -/

theorem edec_matched {s : State} {rd rs1 : Reg} {eid : EnumId} {j : Nat} (h : s.phase = .ready)
    (hv : s.store.et[eid].valid = true)
    (hf : s.store.et[eid].find (s.reg rs1 &&& mask s.store.et[eid].w.val) = some j) :
    exec (.edec rd rs1 eid) s = .next ((s.noteReads [rs1]).setReg rd (ordinal j)).done := by
  show execEdec rd rs1 eid s = _
  rw [execEdec, admitIn_of_phase h, admitEnum, if_pos hv]
  simp only [Option.none_or, unlessFails_none, hf]
  rfl

theorem edec_unmatched {s : State} {rd rs1 : Reg} {eid : EnumId} (h : s.phase = .ready)
    (hv : s.store.et[eid].valid = true)
    (hf : s.store.et[eid].find (s.reg rs1 &&& mask s.store.et[eid].w.val) = none) :
    exec (.edec rd rs1 eid) s = .next (((s.noteReads [rs1]).setReg rd (s.reg rs1 &&& mask s.store.et[eid].w.val)).failWith
      ⟨.unmatched, s.reg rs1 &&& mask s.store.et[eid].w.val⟩) := by
  show execEdec rd rs1 eid s = _
  rw [execEdec, admitIn_of_phase h, admitEnum, if_pos hv]
  simp only [Option.none_or, unlessFails_none, hf]
  rfl

theorem eenc_encoded {s : State} {rd rs1 : Reg} {eid : EnumId} (h : s.phase = .ready)
    (hv : s.store.et[eid].valid = true) (hx : (s.reg rs1).toNat < s.store.et[eid].nvar.val) :
    exec (.eenc rd rs1 eid) s =
      .next ((s.noteReads [rs1]).setReg rd (s.store.et[eid].disc (s.reg rs1).toNat)).done := by
  show execEenc rd rs1 eid s = _
  rw [execEenc, admitIn_of_phase h, admitEnum, if_pos hv, admitOrdinal, if_pos hx]
  rfl

end Sys2Proof.Machine
end

