-- ==== Sys2Proof/Laws/Encoding.lean ====
section
/-! SUPPORT. What the packed words are: each field reader gives back the field that was packed, and a packed word meets
the match and mask words of its row. -/

namespace Sys2Proof

/-! ## The fields of a format R word (30_encoding.md R66) -/

/-- OP of a packed word, bit by bit. The five fields below go the same way. -/
theorem extract_op (op : BitVec 6) (rd rs1 rs2 : Reg) (a b : BitVec 7) :
    (packR op rd rs1 rs2 a b).extractLsb' 26 6 = op := by
  apply BitVec.eq_of_getLsbD_eq
  intro i hi
  simp only [packR, BitVec.getLsbD_extractLsb', BitVec.getLsbD_append, hi, decide_true, Bool.true_and]
  interval_cases i <;> simp

theorem extract_rd (op : BitVec 6) (rd rs1 rs2 : Reg) (a b : BitVec 7) :
    (packR op rd rs1 rs2 a b).extractLsb' 22 4 = BitVec.ofFin (w := 4) rd := by
  apply BitVec.eq_of_getLsbD_eq
  intro i hi
  simp only [packR, BitVec.getLsbD_extractLsb', BitVec.getLsbD_append, hi, decide_true, Bool.true_and]
  interval_cases i <;> simp

theorem extract_rs1 (op : BitVec 6) (rd rs1 rs2 : Reg) (a b : BitVec 7) :
    (packR op rd rs1 rs2 a b).extractLsb' 18 4 = BitVec.ofFin (w := 4) rs1 := by
  apply BitVec.eq_of_getLsbD_eq
  intro i hi
  simp only [packR, BitVec.getLsbD_extractLsb', BitVec.getLsbD_append, hi, decide_true, Bool.true_and]
  interval_cases i <;> simp

theorem extract_rs2 (op : BitVec 6) (rd rs1 rs2 : Reg) (a b : BitVec 7) :
    (packR op rd rs1 rs2 a b).extractLsb' 14 4 = BitVec.ofFin (w := 4) rs2 := by
  apply BitVec.eq_of_getLsbD_eq
  intro i hi
  simp only [packR, BitVec.getLsbD_extractLsb', BitVec.getLsbD_append, hi, decide_true, Bool.true_and]
  interval_cases i <;> simp

theorem extract_a (op : BitVec 6) (rd rs1 rs2 : Reg) (a b : BitVec 7) :
    (packR op rd rs1 rs2 a b).extractLsb' 7 7 = a := by
  apply BitVec.eq_of_getLsbD_eq
  intro i hi
  simp only [packR, BitVec.getLsbD_extractLsb', BitVec.getLsbD_append, hi, decide_true, Bool.true_and]
  interval_cases i <;> simp

theorem extract_b (op : BitVec 6) (rd rs1 rs2 : Reg) (a b : BitVec 7) :
    (packR op rd rs1 rs2 a b).extractLsb' 0 7 = b := by
  apply BitVec.eq_of_getLsbD_eq
  intro i hi
  simp only [packR, BitVec.getLsbD_extractLsb', BitVec.getLsbD_append, hi, decide_true, Bool.true_and]
  interval_cases i <;> simp

@[simp] theorem opOf_packR (op : BitVec 6) (rd rs1 rs2 : Reg) (a b : BitVec 7) : opOf (packR op rd rs1 rs2 a b) = op :=
  extract_op ..

@[simp] theorem rdOf_packR (op : BitVec 6) (rd rs1 rs2 : Reg) (a b : BitVec 7) : rdOf (packR op rd rs1 rs2 a b) = rd := by
  rw [rdOf, extract_rd]

@[simp] theorem rs1Of_packR (op : BitVec 6) (rd rs1 rs2 : Reg) (a b : BitVec 7) :
    rs1Of (packR op rd rs1 rs2 a b) = rs1 := by
  rw [rs1Of, extract_rs1]

@[simp] theorem rs2Of_packR (op : BitVec 6) (rd rs1 rs2 : Reg) (a b : BitVec 7) :
    rs2Of (packR op rd rs1 rs2 a b) = rs2 := by
  rw [rs2Of, extract_rs2]

@[simp] theorem aOf_packR (op : BitVec 6) (rd rs1 rs2 : Reg) (a b : BitVec 7) :
    aOf (packR op rd rs1 rs2 a b) = a.toFin := by
  rw [aOf, extract_a]

@[simp] theorem bOf_packR (op : BitVec 6) (rd rs1 rs2 : Reg) (a b : BitVec 7) :
    bOf (packR op rd rs1 rs2 a b) = b.toFin := by
  rw [bOf, extract_b]

/-! ## The fields of a format I word (R67) -/

@[simp] theorem opOf_packI (op : BitVec 6) (rd : Reg) (pos : Fin 8) (imm : BitVec 16) : opOf (packI op rd pos imm) = op := by
  apply BitVec.eq_of_getLsbD_eq
  intro i hi
  simp only [opOf, packI, BitVec.getLsbD_extractLsb', BitVec.getLsbD_append, hi, decide_true, Bool.true_and]
  interval_cases i <;> simp

@[simp] theorem rdOf_packI (op : BitVec 6) (rd : Reg) (pos : Fin 8) (imm : BitVec 16) : rdOf (packI op rd pos imm) = rd := by
  have h : (packI op rd pos imm).extractLsb' 22 4 = BitVec.ofFin (w := 4) rd := by
    apply BitVec.eq_of_getLsbD_eq
    intro i hi
    simp only [packI, BitVec.getLsbD_extractLsb', BitVec.getLsbD_append, hi, decide_true, Bool.true_and]
    interval_cases i <;> simp
  rw [rdOf, h]

@[simp] theorem posOf_packI (op : BitVec 6) (rd : Reg) (pos : Fin 8) (imm : BitVec 16) :
    posOf (packI op rd pos imm) = pos := by
  have h : (packI op rd pos imm).extractLsb' 16 3 = BitVec.ofFin (w := 3) pos := by
    apply BitVec.eq_of_getLsbD_eq
    intro i hi
    simp only [packI, BitVec.getLsbD_extractLsb', BitVec.getLsbD_append, hi, decide_true, Bool.true_and]
    interval_cases i <;> simp
  rw [posOf, h]

@[simp] theorem immOf_packI (op : BitVec 6) (rd : Reg) (pos : Fin 8) (imm : BitVec 16) :
    immOf (packI op rd pos imm) = imm := by
  apply BitVec.eq_of_getLsbD_eq
  intro i hi
  simp only [immOf, packI, BitVec.getLsbD_extractLsb', BitVec.getLsbD_append, hi, decide_true, Bool.true_and]
  interval_cases i <;> simp

/-! ## The operand fields R69 to R71 -/

/-- A width survives its field (R69). -/
theorem widthField_toFin {w : Nat} (h : widthOk w = true) : (widthField w).toFin.val + 1 = w := by
  simp only [widthOk, Config.dw, Bool.and_eq_true, decide_eq_true_eq] at h
  have : w - 1 < 2 ^ 7 := by omega
  simp only [widthField, BitVec.val_toFin, BitVec.toNat_ofNat, Nat.mod_eq_of_lt this]
  omega

@[simp] theorem posField_toFin (n : Fin 128) : (posField n).toFin = n := rfl

theorem fidField_low (f : FieldId) : (fidField f).extractLsb' 0 6 = BitVec.ofFin (w := 6) f := by revert f; decide

theorem eidField_low (e : EnumId) : (eidField e).extractLsb' 0 4 = BitVec.ofFin (w := 4) e := by revert e; decide

/-- Reading a CSR number back (10_state.md R25). -/
theorem csrOfNat_number (c : Csr) : csrOfNat c.number.toNat = some c := by cases c <;> rfl

/-- Packing the fields of a word gives the word back. -/
theorem packR_of_fields (w : Word) :
    packR (opOf w) (rdOf w) (rs1Of w) (rs2Of w) (w.extractLsb' 7 7) (w.extractLsb' 0 7) = w := by
  apply BitVec.eq_of_getLsbD_eq
  intro i hi
  simp only [packR, opOf, rdOf, rs1Of, rs2Of, BitVec.ofFin_toFin, BitVec.getLsbD_append, BitVec.getLsbD_extractLsb']
  interval_cases i <;> simp

/-! ## Match and mask (R74) -/

/-- A format R word masked by a word given field by field. -/
theorem packR_and_append (op op' : BitVec 6) (rd rs1 rs2 : Reg) (rd' rs1' rs2' : BitVec 4) (a a' b b' : BitVec 7) :
    packR op rd rs1 rs2 a b &&& (op' ++ rd' ++ rs1' ++ rs2' ++ a' ++ b') =
      (op &&& op') ++ (BitVec.ofFin (w := 4) rd &&& rd') ++ (BitVec.ofFin (w := 4) rs1 &&& rs1') ++
        (BitVec.ofFin (w := 4) rs2 &&& rs2') ++ (a &&& a') ++ (b &&& b') := by
  apply BitVec.eq_of_getLsbD_eq
  intro i _
  simp only [packR, BitVec.getLsbD_and, BitVec.getLsbD_append]
  split_ifs <;> rfl

/-- A format R word whose must-be-zero fields are zero meets its match word. -/
theorem packR_meets {op : BitVec 6} {rd rs1 rs2 : Reg} {a b : BitVec 7} {m t : Word} (d s1 s2 : BitVec 4)
    (x y : BitVec 7) (hm : m = 0x3F#6 ++ d ++ s1 ++ s2 ++ x ++ y) (ht : t = packR op 0 0 0 0 0)
    (hd : BitVec.ofFin (w := 4) rd &&& d = 0) (h1 : BitVec.ofFin (w := 4) rs1 &&& s1 = 0)
    (h2 : BitVec.ofFin (w := 4) rs2 &&& s2 = 0) (ha : a &&& x = 0) (hb : b &&& y = 0) :
    packR op rd rs1 rs2 a b &&& m = t := by
  have hop : op &&& 0x3F#6 = op := by simpa using BitVec.and_allOnes (x := op)
  rw [hm, ht, packR_and_append, hd, h1, h2, ha, hb, hop]
  rfl

/-- A format I word meets its match word (R67: Z = 0). -/
theorem packI_meets {op : BitVec 6} (rd : Reg) (pos : Fin 8) (imm : BitVec 16) {t : Word} (ht : t = packI op 0 0 0) :
    packI op rd pos imm &&& 0xFC380000#32 = t := by
  have hm : 0xFC380000#32 = 0x3F#6 ++ 0#4 ++ 7#3 ++ 0#3 ++ 0#16 := by decide
  have hop : op &&& 0x3F#6 = op := by simpa using BitVec.and_allOnes (x := op)
  have h : packI op rd pos imm &&& (0x3F#6 ++ 0#4 ++ 7#3 ++ 0#3 ++ 0#16) =
      (op &&& 0x3F#6) ++ (BitVec.ofFin (w := 4) rd &&& 0#4) ++ (0#3 &&& 7#3) ++ (BitVec.ofFin (w := 3) pos &&& 0#3) ++
        (imm &&& 0#16) := by
    apply BitVec.eq_of_getLsbD_eq
    intro i _
    simp only [packI, BitVec.getLsbD_and, BitVec.getLsbD_append]
    split_ifs <;> rfl
  rw [hm, ht, h, hop]
  simp [packI]

/-! ## What the decoder answers -/

/-- A word whose opcode has a row decodes by that row alone. -/
theorem decode_of_row {w : Word} {r : Row} (hr : opcodeRows.find? (fun r => r.op == opOf w) = some r) :
    decode w = if w &&& r.mask = r.mtch then r.operands w else .error .mustBeZero := by
  rw [decode, hr]

/-- A word that decodes lies in a row, meets it, and is read by it. -/
theorem row_of_decode {w : Word} {i : Instr} (h : decode w = .ok i) :
    ∃ r, opcodeRows.find? (fun r => r.op == opOf w) = some r ∧ w &&& r.mask = r.mtch ∧ r.operands w = .ok i := by
  rw [decode] at h
  split at h
  · cases h
  · next r hr =>
    split at h
    · next hm => exact ⟨r, hr, hm, h⟩
    · cases h

end Sys2Proof
end

