-- ==== Sys2Proof/Laws/Exec.lean ====
section
/-! SUPPORT. What a command can do, said once: every next state of `exec` is one of the nine endings below. Invariants
and whole-machine rules are derived from this, without unfolding a meaning again. -/

namespace Sys2Proof.Machine

open Sys2Proof.Safety

/-- The schema store a declaration leaves in CONFIG; none for a command that declares nothing. -/
def declaredStore (i : Instr) (s : State) : Option SchemaStore :=
  match i with
  | .scont rs1 cw => some (s.store.declareContainer cw (s.reg rs1))
  | .sfield fid rs1 => some (s.store.declareField fid (s.reg rs1))
  | .senum eid w exh => some (s.store.declareEnum eid w exh)
  | .svar eid rs1 => some (s.store.addVariant eid (s.reg rs1))
  | .mov _ _ | .li _ _ _ | .lic _ _ _ | .mask _ _ | .rmask _ _ _ | .extr _ _ _ _ | .ins _ _ _ _ _ | .sext _ _ _
  | .wnorm _ _ _ _ | .wcmp _ _ _ _ _ | .cnew _ | .cload _ _ | .fget _ _ _ _ | .fset _ _ _ _ _ | .edec _ _ _
  | .eenc _ _ _ | .sbegin | .scommit | .rdcsr _ _ | .clrs => none

/-- How a command that answers a next state ends. `n` is the state with the command's register reads noted. -/
inductive Ends (i : Instr) (s n : State) : State → Prop
  /-- OK with `D[rd]` written -/
  | wrote (rd : Reg) (v : Data) (hd : destination i = some rd) (hc : i ≠ .clrs) : Ends i s n (n.setReg rd v).done
  /-- UNMATCHED, with the raw discriminant in `D[rd]` -/
  | unmatched (rd : Reg) (raw : Data) (hd : destination i = some rd) (ho : Code.unmatched ∈ outcomes i) :
      Ends i s n ((n.setReg rd raw).failWith ⟨.unmatched, raw⟩)
  /-- PHASE -/
  | phase (p : Phase) (hp : admittedIn i = some p) (hs : s.phase ≠ p) (ho : Code.phase ∈ outcomes i) :
      Ends i s n (n.failWith ⟨.phase, phaseInfo i.opcode s.phase⟩)
  /-- NOFIELD, ACCESS, INDEX or BADVAR -/
  | failed (f : Failure) (hr : s.phase = .ready) (ho : f.code ∈ outcomes i)
      (hf : f.code = .nofield ∨ f.code = .access ∨ f.code = .index ∨ f.code = .badvar) : Ends i s n (n.failWith f)
  /-- a declaration in CONFIG -/
  | declared (st : SchemaStore) (hp : s.phase = .config) (hd : declaredStore i s = some st) :
      Ends i s n (n.setStore st).done
  /-- SBEGIN -/
  | began (hi : i = .sbegin) : Ends i s n ((n.setPhase .config).setStore SchemaStore.empty).done
  /-- a successful SCOMMIT -/
  | committed (hi : i = .scommit) (hp : s.phase = .config) (he : firstError s.store = none) :
      Ends i s n (n.setPhase .ready).done
  /-- a failing SCOMMIT -/
  | rejected (e : SchemaError) (hi : i = .scommit) (hp : s.phase = .config) (he : firstError s.store = some e) :
      Ends i s n ((n.setPhase .failed).failWith ⟨.schema, e.info⟩)
  /-- CLRS -/
  | cleared (hi : i = .clrs) : Ends i s n n.clearOutcomes.done

/-- A declaration in CONFIG, or PHASE. -/
theorem ends_of_declaration {i : Instr} {s n t : State} {st : SchemaStore} {op : BitVec 6}
    (ha : admittedIn i = some .config) (hop : op = i.opcode) (ho : Code.phase ∈ outcomes i)
    (hd : declaredStore i s = some st)
    (h : unlessFails (admitIn .config op s) n (finish (n.setStore st)) = .next t) : Ends i s n t := by
  subst hop
  rcases unlessFails_next_iff.1 h with ⟨f, hf, rfl⟩ | ⟨hf, hgo⟩
  · obtain ⟨hp, rfl⟩ := admitIn_some hf
    exact .phase _ ha hp ho
  · rw [finish_next_iff.1 hgo]
    refine .declared st ?_ hd
    by_contra hp
    rw [admitIn_of_ne hp] at hf
    cases hf

/-- The phase check passed. -/
theorem phase_of_admitIn_none {p : Phase} {op : BitVec 6} {s : State} (h : admitIn p op s = none) : s.phase = p := by
  by_contra hp
  rw [admitIn_of_ne hp] at h
  cases h

/-- An accessor's guard: PHASE first, then the rest of its conditions. -/
theorem ends_of_guard {i : Instr} {s n t : State} {g : Option Failure} {go : Result} {op : BitVec 6}
    (ha : admittedIn i = some .ready) (hop : op = i.opcode) (ho : Code.phase ∈ outcomes i)
    (hg : ∀ f, g = some f → f.code ∈ outcomes i ∧
      (f.code = .nofield ∨ f.code = .access ∨ f.code = .index ∨ f.code = .badvar))
    (hgo : s.phase = .ready → g = none → go = .next t → Ends i s n t)
    (h : unlessFails ((admitIn .ready op s).or g) n go = .next t) : Ends i s n t := by
  subst hop
  rcases unlessFails_next_iff.1 h with ⟨f, hf, rfl⟩ | ⟨hf, hgo'⟩
  · rcases Option.or_eq_some_iff.1 hf with hf | ⟨hn, hf⟩
    · obtain ⟨hp, rfl⟩ := admitIn_some hf
      exact .phase _ ha hp ho
    · exact .failed f (phase_of_admitIn_none hn) (hg f hf).1 (hg f hf).2
  · obtain ⟨hn, hg'⟩ := Option.or_eq_none_iff.1 hf
    exact hgo (phase_of_admitIn_none hn) hg' hgo'

/-- Every next state of a command is one of its endings. -/
theorem exec_ends {i : Instr} {s t : State} (h : exec i s = .next t) :
    Ends i s (s.noteReads (registersRead i)) t := by
  cases i with
  | mov | li | lic | mask | rmask | extr | ins | sext | wnorm | wcmp | rdcsr =>
    exact finishWith_next_iff.1 h ▸ .wrote _ _ rfl (by simp)
  | cnew rd =>
    refine ends_of_guard (g := none) rfl rfl (by simp [outcomes]) (by simp) (fun _ _ hgo => ?_)
      (by rw [Option.or_none]; exact h)
    exact finishWith_next_iff.1 hgo ▸ .wrote _ _ rfl (by simp)
  | cload rd rs1 =>
    refine ends_of_guard (g := none) rfl rfl (by simp [outcomes]) (by simp) (fun _ _ hgo => ?_)
      (by rw [Option.or_none]; exact h)
    exact finishWith_next_iff.1 hgo ▸ .wrote _ _ rfl (by simp)
  | fget rd rs1 fid idx =>
    refine ends_of_guard rfl rfl (by simp [outcomes]) (fun f hf => ?_) (fun _ _ hgo => ?_) h
    · rcases admitField_code hf with h | h | h <;> simp [outcomes, h]
    · split at hgo
      · exact finishWith_next_iff.1 hgo ▸ .wrote _ _ rfl (by simp)
      · exact finishWith_next_iff.1 hgo ▸ .wrote _ _ rfl (by simp)
      · exact finishWith_next_iff.1 hgo ▸ .wrote _ _ rfl (by simp)
      · split at hgo
        · exact finishWith_next_iff.1 hgo ▸ .wrote _ _ rfl (by simp)
        · cases hgo
      · split at hgo
        · exact finishWith_next_iff.1 hgo ▸ .wrote _ _ rfl (by simp)
        · exact failUnmatched_next_iff.1 hgo ▸ .unmatched _ _ rfl (by simp [outcomes])
      · cases hgo
  | fset rd rs1 rs2 fid idx =>
    refine ends_of_guard rfl rfl (by simp [outcomes]) (fun f hf => ?_) (fun hr _ hgo => ?_) h
    · rcases admitField_code hf with h | h | h <;> simp [outcomes, h]
    · split at hgo
      · exact finishWith_next_iff.1 hgo ▸ .wrote _ _ rfl (by simp)
      · exact finishWith_next_iff.1 hgo ▸ .wrote _ _ rfl (by simp)
      · exact finishWith_next_iff.1 hgo ▸ .wrote _ _ rfl (by simp)
      · rcases unlessFails_next_iff.1 hgo with ⟨f, hf, rfl⟩ | ⟨-, hgo⟩
        · obtain ⟨-, rfl⟩ := admitOrdinal_code hf
          exact .failed _ hr (by simp [outcomes]) (by simp)
        · exact finishWith_next_iff.1 hgo ▸ .wrote _ _ rfl (by simp)
      · rcases unlessFails_next_iff.1 hgo with ⟨f, hf, rfl⟩ | ⟨-, hgo⟩
        · obtain ⟨-, rfl⟩ := admitOrdinal_code hf
          exact .failed _ hr (by simp [outcomes]) (by simp)
        · exact finishWith_next_iff.1 hgo ▸ .wrote _ _ rfl (by simp)
      · cases hgo
  | edec rd rs1 eid =>
    refine ends_of_guard rfl rfl (by simp [outcomes]) (fun f hf => ?_) (fun _ _ hgo => ?_) h
    · obtain ⟨-, hc⟩ := admitEnum_code hf
      simp [outcomes, hc]
    · split at hgo
      · exact finishWith_next_iff.1 hgo ▸ .wrote _ _ rfl (by simp)
      · exact failUnmatched_next_iff.1 hgo ▸ .unmatched _ _ rfl (by simp [outcomes])
  | eenc rd rs1 eid =>
    refine ends_of_guard (g := (admitEnum eid s).or (admitOrdinal s.store.et[eid] (s.reg rs1))) rfl rfl
      (by simp [outcomes]) (fun f hf => ?_) (fun _ _ hgo => ?_) (by rw [← Option.or_assoc]; exact h)
    · rcases Option.or_eq_some_iff.1 hf with hf | ⟨-, hf⟩
      · obtain ⟨-, hc⟩ := admitEnum_code hf
        simp [outcomes, hc]
      · obtain ⟨-, rfl⟩ := admitOrdinal_code hf
        simp [outcomes]
    · exact finishWith_next_iff.1 hgo ▸ .wrote _ _ rfl (by simp)
  | sbegin => exact finish_next_iff.1 h ▸ .began rfl
  | scont | sfield | senum | svar => exact ends_of_declaration rfl rfl (by simp [outcomes]) rfl h
  | scommit =>
    rcases unlessFails_next_iff.1 h with ⟨f, hf, rfl⟩ | ⟨hf, hgo⟩
    · obtain ⟨hp, rfl⟩ := admitIn_some hf
      exact .phase _ rfl hp (by simp [outcomes])
    · have hp := phase_of_admitIn_none hf
      split at hgo
      · next he => exact finish_next_iff.1 hgo ▸ .committed rfl hp he
      · next e he => exact fail_next_iff.1 hgo ▸ .rejected e rfl hp he
  | clrs => exact finish_next_iff.1 h ▸ .cleared rfl

end Sys2Proof.Machine
end

