-- ==== Sys2Proof/Laws/Fields.lean ====
section
/-! SUPPORT. The field readers of the decoder as the arithmetic of the claims, and the encodings of a row. -/

namespace Sys2Proof

open Sys2Proof.Safety

/-! ## The readers as arithmetic on the word (30_encoding.md R66 to R71) -/

theorem field_eq_extract (w : Word) (k n : Nat) : field w k n = (w.extractLsb' k n).toNat := by
  simp [field, BitVec.extractLsb'_toNat, Nat.shiftRight_eq_div_pow]

theorem opOf_toNat (w : Word) : (opOf w).toNat = field w 26 6 := (field_eq_extract ..).symm

theorem rdOf_eq (w : Word) : rdOf w = fieldReg w 22 := by
  apply Fin.ext; simp [rdOf, fieldReg, field_eq_extract]

theorem rs1Of_eq (w : Word) : rs1Of w = fieldReg w 18 := by
  apply Fin.ext; simp [rs1Of, fieldReg, field_eq_extract]

theorem rs2Of_eq (w : Word) : rs2Of w = fieldReg w 14 := by
  apply Fin.ext; simp [rs2Of, fieldReg, field_eq_extract]

theorem aOf_eq (w : Word) : aOf w = fieldPos w 7 := by
  apply Fin.ext; simp [aOf, fieldPos, field_eq_extract]

theorem bOf_eq (w : Word) : bOf w = fieldPos w 0 := by
  apply Fin.ext; simp [bOf, fieldPos, field_eq_extract]

theorem fidOf_eq (w : Word) : fidOf w = Fin.ofNat 64 (field w 7 6) := by
  apply Fin.ext; simp [fidOf, field_eq_extract]

theorem eidOf_eq (w : Word) : eidOf w = Fin.ofNat 16 (field w 0 4) := by
  apply Fin.ext; simp [eidOf, field_eq_extract]

theorem posOf_eq (w : Word) : posOf w = Fin.ofNat 8 (field w 16 3) := by
  apply Fin.ext; simp [posOf, field_eq_extract]

theorem immOf_eq (w : Word) : immOf w = BitVec.ofNat 16 (field w 0 16) := by
  apply BitVec.eq_of_toNat_eq; simp [immOf, field_eq_extract]

theorem widthOf_eq (w : Word) : widthOf w = field w 7 7 + 1 := by
  simp [widthOf, aOf, field_eq_extract]

theorem signOf_eq (w : Word) : signOf w = if field w 0 1 = 1 then .signed else .unsigned := by
  have h : w.getLsbD 0 = decide (field w 0 1 = 1) := by simp [field, BitVec.getLsbD, Nat.testBit_zero]
  simp only [signOf, h, decide_eq_true_eq]

theorem exhOf_eq (w : Word) : exhOf w = decide (field w 4 1 = 1) := by
  simp only [exhOf, field, BitVec.getLsbD, Nat.testBit, Nat.shiftRight_eq_div_pow]
  simp [Nat.one_and_eq_mod_two]
  rcases Nat.mod_two_eq_zero_or_one (w.toNat / 16) with h | h <;> simp [h]

/-! ## The encodings of a row -/

/-- The opcode of a word from its field. -/
theorem opOf_of_field {w m : Word} (h : field w 26 6 = field m 26 6) : opOf w = opOf m := by
  apply BitVec.eq_of_toNat_eq
  rw [opOf_toNat, opOf_toNat, h]

/-- A row without a value condition encodes as `Encoded` says. -/
theorem encoded_any {m k : Word} {op : BitVec 6} {build : Word → Instr} {f : Word → Except Illegal Instr}
    (hm : opOf m = op) (hr : opcodeRows.find? (fun r => r.op == op) = some ⟨op, m, k, f⟩)
    (hf : ∀ w, f w = .ok (build w)) : Encoded m k anyWord build := by
  intro w h
  have hd : decode w = if w &&& k = m then f w else .error .mustBeZero :=
    decode_of_row (r := ⟨op, m, k, f⟩) (by rw [opOf_of_field h, hm]; exact hr)
  refine ⟨fun hw => ?_, fun hw i => ?_⟩
  · rw [hd, if_pos hw.1, hf]
  · rw [hd, if_neg fun hw' => hw ⟨hw', trivial⟩]
    exact nofun

/-- A row with a bit range encodes as `Encoded` says, the range ordered (R79). -/
theorem encoded_ranged {m k : Word} {op : BitVec 6} {mk : Word → Fin 128 → Fin 128 → Instr}
    {f : Word → Except Illegal Instr} (hm : opOf m = op)
    (hr : opcodeRows.find? (fun r => r.op == op) = some ⟨op, m, k, f⟩) (hf : ∀ w, f w = ranged w (mk w)) :
    Encoded m k orderedRange (fun w => mk w (fieldPos w 7) (fieldPos w 0)) := by
  intro w h
  have hd : decode w = if w &&& k = m then f w else .error .mustBeZero :=
    decode_of_row (r := ⟨op, m, k, f⟩) (by rw [opOf_of_field h, hm]; exact hr)
  have ho : orderedRange w ↔ aOf w ≤ bOf w := by
    rw [orderedRange, Fin.le_def, field_eq_extract, field_eq_extract]
    rfl
  refine ⟨fun hw => ?_, fun hw i => ?_⟩
  · rw [hd, if_pos hw.1, hf, ranged, if_pos (ho.1 hw.2), aOf_eq, bOf_eq]
  · rw [hd]
    split
    · next hk =>
      rw [hf, ranged, if_neg fun hle => hw ⟨hk, ho.2 hle⟩]
      exact nofun
    · exact nofun

end Sys2Proof
end

