-- ==== Sys2Proof/Laws/PerInstr.lean ====
section
/-! SUPPORT. A statement about every command as syntax, one lemma per constructor: its word lies in the row of its
opcode, with every must-be-zero bit zero (30_encoding.md R68, R74). -/

namespace Sys2Proof.Laws.EncodeMeetsRow

open Sys2Proof

/-- The encoded word carries the command's opcode, and meets the match and mask words of that opcode's row. -/
def Statement (i : Instr) : Prop :=
  opOf (encode i) = i.opcode ∧
    ∃ r, opcodeRows.find? (fun r => r.op == i.opcode) = some r ∧ encode i &&& r.mask = r.mtch

theorem mov (rd rs1 : Reg) : Statement (.mov rd rs1) :=
  ⟨opOf_packR .., _, rfl, packR_meets 0 0 0xF 0x7F 0x7F (by decide) (by decide) (by simp) (by simp) (by decide)
    (by decide) (by decide)⟩

theorem li (rd : Reg) (pos : Fin 8) (imm : BitVec 16) : Statement (.li rd pos imm) :=
  ⟨opOf_packI .., _, rfl, packI_meets rd pos imm (by decide)⟩

theorem lic (rd : Reg) (pos : Fin 8) (imm : BitVec 16) : Statement (.lic rd pos imm) :=
  ⟨opOf_packI .., _, rfl, packI_meets rd pos imm (by decide)⟩

theorem mask (rd : Reg) (w : Nat) : Statement (.mask rd w) :=
  ⟨opOf_packR .., _, rfl, packR_meets 0 0xF 0xF 0 0x7F (by decide) (by decide) (by simp) (by decide) (by decide)
    (by simp) (by decide)⟩

theorem rmask (rd : Reg) (lo hi : Fin 128) : Statement (.rmask rd lo hi) :=
  ⟨opOf_packR .., _, rfl, packR_meets 0 0xF 0xF 0 0 (by decide) (by decide) (by simp) (by decide) (by decide) (by simp)
    (by simp)⟩

theorem extr (rd rs1 : Reg) (lo hi : Fin 128) : Statement (.extr rd rs1 lo hi) :=
  ⟨opOf_packR .., _, rfl, packR_meets 0 0 0xF 0 0 (by decide) (by decide) (by simp) (by simp) (by decide) (by simp)
    (by simp)⟩

theorem ins (rd rs1 rs2 : Reg) (lo hi : Fin 128) : Statement (.ins rd rs1 rs2 lo hi) :=
  ⟨opOf_packR .., _, rfl, packR_meets 0 0 0 0 0 (by decide) (by decide) (by simp) (by simp) (by simp) (by simp)
    (by simp)⟩

theorem sext (rd rs1 : Reg) (w : Nat) : Statement (.sext rd rs1 w) :=
  ⟨opOf_packR .., _, rfl, packR_meets 0 0 0xF 0 0x7F (by decide) (by decide) (by simp) (by simp) (by decide) (by simp)
    (by decide)⟩

theorem wnorm (rd rs1 : Reg) (w : Nat) (sg : Sign) : Statement (.wnorm rd rs1 w sg) :=
  ⟨opOf_packR .., _, rfl, packR_meets 0 0 0xF 0 0x7E (by decide) (by decide) (by simp) (by simp) (by decide) (by simp)
    (by cases sg <;> decide)⟩

theorem wcmp (rd rs1 rs2 : Reg) (w : Nat) (sg : Sign) : Statement (.wcmp rd rs1 rs2 w sg) :=
  ⟨opOf_packR .., _, rfl, packR_meets 0 0 0 0 0x7E (by decide) (by decide) (by simp) (by simp) (by simp) (by simp)
    (by cases sg <;> decide)⟩

theorem cnew (rd : Reg) : Statement (.cnew rd) :=
  ⟨opOf_packR .., _, rfl, packR_meets 0 0xF 0xF 0x7F 0x7F (by decide) (by decide) (by simp) (by decide) (by decide)
    (by decide) (by decide)⟩

theorem cload (rd rs1 : Reg) : Statement (.cload rd rs1) :=
  ⟨opOf_packR .., _, rfl, packR_meets 0 0 0xF 0x7F 0x7F (by decide) (by decide) (by simp) (by simp) (by decide)
    (by decide) (by decide)⟩

theorem fget (rd rs1 : Reg) (fid : FieldId) (idx : Fin 128) : Statement (.fget rd rs1 fid idx) :=
  ⟨opOf_packR .., _, rfl, packR_meets 0 0 0xF 0x40 0 (by decide) (by decide) (by simp) (by simp) (by decide)
    (by revert fid; decide) (by simp)⟩

theorem fset (rd rs1 rs2 : Reg) (fid : FieldId) (idx : Fin 128) : Statement (.fset rd rs1 rs2 fid idx) :=
  ⟨opOf_packR .., _, rfl, packR_meets 0 0 0 0x40 0 (by decide) (by decide) (by simp) (by simp) (by simp)
    (by revert fid; decide) (by simp)⟩

theorem edec (rd rs1 : Reg) (eid : EnumId) : Statement (.edec rd rs1 eid) :=
  ⟨opOf_packR .., _, rfl, packR_meets 0 0 0xF 0x7F 0x70 (by decide) (by decide) (by simp) (by simp) (by decide)
    (by decide) (by revert eid; decide)⟩

theorem eenc (rd rs1 : Reg) (eid : EnumId) : Statement (.eenc rd rs1 eid) :=
  ⟨opOf_packR .., _, rfl, packR_meets 0 0 0xF 0x7F 0x70 (by decide) (by decide) (by simp) (by simp) (by decide)
    (by decide) (by revert eid; decide)⟩

theorem sbegin : Statement .sbegin := ⟨opOf_packR .., _, rfl, by decide⟩

theorem scont (rs1 : Reg) (cw : Nat) : Statement (.scont rs1 cw) :=
  ⟨opOf_packR .., _, rfl, packR_meets 0xF 0 0xF 0 0x7F (by decide) (by decide) (by decide) (by simp) (by decide)
    (by simp) (by decide)⟩

theorem sfield (fid : FieldId) (rs1 : Reg) : Statement (.sfield fid rs1) :=
  ⟨opOf_packR .., _, rfl, packR_meets 0xF 0 0xF 0x40 0x7F (by decide) (by decide) (by decide) (by simp) (by decide)
    (by revert fid; decide) (by decide)⟩

theorem senum (eid : EnumId) (w : Nat) (exh : Bool) : Statement (.senum eid w exh) :=
  ⟨opOf_packR .., _, rfl, packR_meets 0xF 0xF 0xF 0 0x60 (by decide) (by decide) (by decide) (by decide) (by decide)
    (by simp) (by revert eid exh; decide)⟩

theorem svar (eid : EnumId) (rs1 : Reg) : Statement (.svar eid rs1) :=
  ⟨opOf_packR .., _, rfl, packR_meets 0xF 0 0xF 0x7F 0x70 (by decide) (by decide) (by decide) (by simp) (by decide)
    (by decide) (by revert eid; decide)⟩

theorem scommit : Statement .scommit := ⟨opOf_packR .., _, rfl, by decide⟩

theorem rdcsr (rd : Reg) (csr : Csr) : Statement (.rdcsr rd csr) :=
  ⟨opOf_packR .., _, rfl, packR_meets 0 0xF 0xF 0 0x7F (by decide) (by decide) (by simp) (by decide) (by decide)
    (by simp) (by decide)⟩

theorem clrs : Statement .clrs := ⟨opOf_packR .., _, rfl, by decide⟩

end Sys2Proof.Laws.EncodeMeetsRow
end

