-- ==== Sys2Proof/Laws/Validator.lean ====
section
/-! SUPPORT. What the validator checks, check by check, and when it finds nothing: each Boolean test of the machine is
the condition of 45_schema.md R159 that the claims state. -/

namespace Sys2Proof.Machine

open Sys2Proof.Safety

/-! ## Checks 1 to 4 -/

theorem latchedError_eq_none_iff (st : SchemaStore) : latchedError st = none ↔ st.serr.check = 0 := by
  simp [latchedError, SchemaLatch.pending]

theorem containerError_eq_none_iff (st : SchemaStore) :
    containerError st = none ↔ st.cwSet = true ∧ st.dflt.toNat < 2 ^ st.cw.val := by
  unfold containerError
  cases st.cwSet <;> simp

/-! ## Checks 5 to 7 (R167) -/

theorem EnumSlot.outOfRange_iff (e : EnumSlot) (j : Nat) : e.outOfRange j = true ↔ 2 ^ e.w.val ≤ (e.disc j).toNat := by
  simp [EnumSlot.outOfRange]

theorem EnumSlot.duplicate_iff (e : EnumSlot) (j : Nat) : e.duplicate j = true ↔ ∃ i < j, e.disc i = e.disc j := by
  simp [EnumSlot.duplicate]

theorem EnumSlot.notExhaustive_iff (e : EnumSlot) :
    e.notExhaustive = true ↔ e.exh = true ∧ e.nvar.val ≠ 2 ^ e.w.val := by
  simp [EnumSlot.notExhaustive]

/-- The three checks of an enum together. -/
theorem EnumSlot.valid_iff (e : EnumSlot) :
    EnumValid e ↔ (∀ j < e.nvar.val, ¬e.outOfRange j = true) ∧ (∀ j < e.nvar.val, ¬e.duplicate j = true) ∧
      ¬e.notExhaustive = true := by
  simp only [EnumSlot.outOfRange_iff, EnumSlot.duplicate_iff, EnumSlot.notExhaustive_iff, Nat.not_le, not_exists, not_and]
  constructor
  · exact fun h => ⟨h.inRange, fun j hj i hi => h.distinct i j hi hj, fun hx hn => hn (h.covers hx)⟩
  · exact fun ⟨h1, h2, h3⟩ => ⟨h1, fun i j hij hj => h2 j hj i hij, fun hx => not_not.1 (h3 hx)⟩

theorem enumError_eq_none_iff (st : SchemaStore) (e : EnumId) :
    enumError st e = none ↔ (st.et[e].valid = true → EnumValid st.et[e]) := by
  simp only [enumError, EnumSlot.valid_iff]
  by_cases hv : st.et[e].valid = true
  · rw [if_pos hv]
    simp only [hv, true_implies]
    split
    · next j hj => exact ⟨nofun, fun h => (h.1 j (List.mem_range.1 (List.mem_of_find?_eq_some hj)) (List.find?_some hj)).elim⟩
    · next h1 =>
      split
      · next j hj =>
        exact ⟨nofun, fun h => (h.2.1 j (List.mem_range.1 (List.mem_of_find?_eq_some hj)) (List.find?_some hj)).elim⟩
      · next h2 =>
        simp only [List.find?_eq_none, List.mem_range] at h1 h2
        split
        · next h3 => exact ⟨nofun, fun h => (h.2.2 h3).elim⟩
        · next h3 => exact ⟨fun _ => ⟨h1, h2, h3⟩, fun _ => rfl⟩
  · rw [if_neg hv]
    exact ⟨fun _ h => (hv h).elim, fun _ => rfl⟩

/-! ## Checks 8 to 12 (R168 to R172) -/

/-- A field of bits is not zero exactly when one of its bits is set. -/
theorem extractLsb'_ne_zero_iff (d : Data) (k n : Nat) :
    (d.extractLsb' k n != 0) = true ↔ ∃ b, k ≤ b ∧ b < k + n ∧ d.getLsbD b = true := by
  rw [bne_iff_ne]
  constructor
  · intro h
    by_contra hn
    refine h (BitVec.eq_of_getLsbD_eq fun i hi => ?_)
    by_contra hb
    simp [hi] at hb
    exact hn ⟨k + i, by omega, by omega, hb⟩
  · rintro ⟨b, h1, h2, h3⟩ h0
    have hb : (d.extractLsb' k n).getLsbD (b - k) = false := by rw [h0]; simp
    rw [BitVec.getLsbD_extractLsb', show k + (b - k) = b by omega, h3] at hb
    simp at hb
    omega

theorem mem_reservedBits (b : Nat) :
    b ∈ reservedBits ↔ (7 ≤ b ∧ b < 8) ∨ (15 ≤ b ∧ b < 16) ∨ (18 ≤ b ∧ b < 20) ∨ (23 ≤ b ∧ b < 24) ∨
      (29 ≤ b ∧ b < 32) ∨ (56 ≤ b ∧ b < 128) := by
  simp [reservedBits, List.mem_range'_1]
  omega

/-- Both sides say "a set bit in one of the six reserved ranges" (10_state.md R35). -/
theorem Fdesc.reservedSet_iff (d : Data) : Fdesc.reservedSet d = true ↔ ∃ b ∈ reservedBits, d.getLsbD b = true := by
  simp only [Fdesc.reservedSet, Bool.or_eq_true, extractLsb'_ne_zero_iff, mem_reservedBits]
  constructor
  · rintro (((((⟨b, h1, h2, h3⟩ | ⟨b, h1, h2, h3⟩) | ⟨b, h1, h2, h3⟩) | ⟨b, h1, h2, h3⟩) | ⟨b, h1, h2, h3⟩) |
      ⟨b, h1, h2, h3⟩) <;> exact ⟨b, by omega, h3⟩
  · rintro ⟨b, h | h | h | h | h | h, h3⟩
    · exact .inl (.inl (.inl (.inl (.inl ⟨b, by omega, by omega, h3⟩))))
    · exact .inl (.inl (.inl (.inl (.inr ⟨b, by omega, by omega, h3⟩))))
    · exact .inl (.inl (.inl (.inr ⟨b, by omega, by omega, h3⟩)))
    · exact .inl (.inl (.inr ⟨b, by omega, by omega, h3⟩))
    · exact .inl (.inr ⟨b, by omega, by omega, h3⟩)
    · exact .inr ⟨b, by omega, by omega, h3⟩

/-- Check 8 (R168). -/
theorem fieldReserved_iff (d : Data) :
    fieldReserved d = true ↔ (∃ b ∈ reservedBits, d.getLsbD b = true) ∨ Fdesc.mode d = 0 ∨
      5 ≤ (Fdesc.kindBits d).toNat ∨ (Fdesc.kindBits d ≠ 3 ∧ Fdesc.kindBits d ≠ 4 ∧ Fdesc.eid d ≠ 0) ∨
      (Fdesc.rep d = false ∧ (Fdesc.count d ≠ 0 ∨ Fdesc.strideBits d ≠ 0)) ∨
      (Fdesc.kindBits d ≠ 1 ∧ Fdesc.kindBits d ≠ 2 ∧ Fdesc.kw d ≠ 0) := by
  simp only [fieldReserved, Bool.or_eq_true, Bool.and_eq_true, Fdesc.reservedSet_iff, beq_iff_eq, bne_iff_ne,
    Fdesc.kind_eq_none_iff, Bool.not_eq_true', or_assoc, and_assoc]

/-- Check 9 (R169). -/
theorem fieldRange_iff (d : Data) : fieldRange d = true ↔ Fdesc.hi d < Fdesc.lo d := by simp [fieldRange]

/-- Check 10 (R170). -/
theorem fieldRepeat_iff (d : Data) :
    fieldRepeat d = true ↔ Fdesc.rep d = true ∧
      (Fdesc.count d = 0 ∨ (Fdesc.strideBits d ≠ 0 ∧ Fdesc.strideBits d < Fdesc.width d)) := by
  simp [fieldRepeat]

/-- Check 11 (R171). -/
theorem fieldBounds_iff (cw : Nat) (d : Data) :
    fieldBounds cw d = true ↔ cw ≤ Fdesc.lo d + (Fdesc.instances d - 1) * Fdesc.stride d + Fdesc.width d - 1 := by
  simp [fieldBounds]

/-- A legal KIND is one of the five. -/
theorem Fdesc.kindBits_cases (d : Data) (h : (Fdesc.kindBits d).toNat ≤ 4) :
    Fdesc.kindBits d = 0 ∨ Fdesc.kindBits d = 1 ∨ Fdesc.kindBits d = 2 ∨ Fdesc.kindBits d = 3 ∨ Fdesc.kindBits d = 4 := by
  revert h
  generalize Fdesc.kindBits d = b
  revert b
  decide

theorem enumMismatch_iff (st : SchemaStore) (d : Data) (exh : Bool) :
    enumMismatch st d exh = true ↔ ¬EnumFieldOk st d exh := by
  simp only [enumMismatch, EnumFieldOk]
  cases (st.enumOf d).valid <;> simp
  tauto

/-- Check 12, for a legal KIND (R172). -/
theorem fieldKind_iff (st : SchemaStore) (d : Data) (h : (Fdesc.kindBits d).toNat ≤ 4) :
    fieldKind st d = true ↔ (Fdesc.kindBits d = 0 ∧ Fdesc.width d ≠ 1) ∨
      ((Fdesc.kindBits d = 1 ∨ Fdesc.kindBits d = 2) ∧ Fdesc.kw d ≠ Fdesc.width d) ∨
      (Fdesc.kindBits d = 3 ∧ ¬EnumFieldOk st d true) ∨ (Fdesc.kindBits d = 4 ∧ ¬EnumFieldOk st d false) := by
  unfold fieldKind
  rcases Fdesc.kindBits_cases d h with hk | hk | hk | hk | hk
  · rw [(Fdesc.kind_eq_some_iff d .bool).2 hk]; simp [hk]
  · rw [(Fdesc.kind_eq_some_iff d .unsigned).2 hk]; simp [hk]
  · rw [(Fdesc.kind_eq_some_iff d .signed).2 hk]; simp [hk]
  · rw [(Fdesc.kind_eq_some_iff d .enumExhaustive).2 hk]; simp only [enumMismatch_iff]; simp [hk]
  · rw [(Fdesc.kind_eq_some_iff d .enumPartial).2 hk]; simp only [enumMismatch_iff]; simp [hk]

/-- A field that repeats legally has an instance (R36, R170). -/
theorem Fdesc.instances_pos {d : Data} (h : Fdesc.rep d = true → Fdesc.count d ≠ 0) : 1 ≤ Fdesc.instances d := by
  unfold Fdesc.instances
  split
  · next hr => exact Nat.one_le_iff_ne_zero.2 (h hr)
  · exact le_rfl

/-- No instance ends above the last one. -/
theorem Fdesc.hiAt_le_last (d : Data) {i : Nat} (h : i < Fdesc.instances d) :
    Fdesc.hiAt d i ≤ Fdesc.lo d + (Fdesc.instances d - 1) * Fdesc.stride d + Fdesc.width d - 1 := by
  have hm : i * Fdesc.stride d ≤ (Fdesc.instances d - 1) * Fdesc.stride d := Nat.mul_le_mul_right _ (by omega)
  simp only [Fdesc.hiAt, Fdesc.loAt]
  omega

/-- The five checks of a field together. -/
theorem fieldValid_iff (st : SchemaStore) (d : Data) :
    FieldValid st d ↔ ¬fieldReserved d = true ∧ ¬fieldRange d = true ∧ ¬fieldRepeat d = true ∧
      ¬fieldBounds st.cw.val d = true ∧ ¬fieldKind st d = true := by
  rw [fieldReserved_iff, fieldRange_iff, fieldRepeat_iff, fieldBounds_iff]
  constructor
  · intro h
    rw [fieldKind_iff st d h.kindLegal]
    refine ⟨?_, by have := h.ordered; omega, ?_, ?_, ?_⟩
    · rintro (⟨b, hb, h1⟩ | h1 | h1 | ⟨h1, h2, h3⟩ | ⟨h1, h2⟩ | ⟨h1, h2, h3⟩)
      · rw [h.reservedClear b hb] at h1; cases h1
      · exact h.modeLegal h1
      · exact absurd h.kindLegal (by omega)
      · exact h3 (h.eidZero h1 h2)
      · exact h2.elim (fun h3 => h3 (h.repeatZero h1).1) (fun h3 => h3 (h.repeatZero h1).2)
      · exact h3 (h.kwZero h1 h2)
    · rintro ⟨h1, h2 | h2⟩
      · exact (h.repeats h1).1 h2
      · exact absurd ((h.repeats h1).2 h2.1) (by omega)
    · have hn := Fdesc.instances_pos fun hr => (h.repeats hr).1
      have hi := h.inside (Fdesc.instances d - 1) (by omega)
      simp only [Fdesc.hiAt, Fdesc.loAt] at hi
      omega
    · rintro (⟨h1, h2⟩ | ⟨h1, h2⟩ | ⟨h1, h2⟩ | ⟨h1, h2⟩)
      · exact h2 (h.boolWidth h1)
      · exact h2 (h.intWidth h1)
      · exact h2 (h.exhaustive h1)
      · exact h2 (h.partialEnum h1)
  · rintro ⟨h1, h2, h3, h4, h5⟩
    push Not at h1
    obtain ⟨r1, r2, r3, r4, r5, r6⟩ := h1
    have hk : (Fdesc.kindBits d).toNat ≤ 4 := by omega
    rw [fieldKind_iff st d hk] at h5
    push Not at h5
    obtain ⟨k1, k2, k3, k4⟩ := h5
    refine ⟨fun b hb => by simpa using r1 b hb, r2, hk, r4, r5, r6, by omega, fun hr => ⟨fun h => h3 ⟨hr, .inl h⟩, ?_⟩,
      fun i hi => ?_, k1, k2, k3, k4⟩
    · intro hs
      by_contra hw
      exact h3 ⟨hr, .inr ⟨hs, by omega⟩⟩
    · have := Fdesc.hiAt_le_last d hi
      have := Fdesc.width_pos d
      omega

theorem fieldError_eq_none_iff (st : SchemaStore) (f : FieldId) :
    fieldError st f = none ↔ (st.ft[f].valid = true → FieldValid st st.ft[f].desc) := by
  simp only [fieldError, fieldValid_iff]
  by_cases hv : st.ft[f].valid = true
  · rw [if_pos hv]
    generalize st.ft[f].desc = d
    cases fieldReserved d <;> cases fieldRange d <;> cases fieldRepeat d <;> cases fieldBounds st.cw.val d <;>
      cases fieldKind st d <;> simp [-Fin.getElem_fin, hv]
  · rw [if_neg hv]
    exact ⟨fun _ h => (hv h).elim, fun _ => rfl⟩

/-! ## Check 13 (R173) -/

theorem overlapError_eq_none_iff (st : SchemaStore) (f : FieldId) :
    overlapError st f = none ↔ ∀ g, ¬(FailingCheck.overlap f g).fails st := by
  have test : ∀ g, (decide (g < f) && overlapsWith st f g) = true ↔
      g < f ∧ st.ft[g].valid = true ∧ ∃ b, Covers st.ft[f].desc b ∧ Covers st.ft[g].desc b := by
    intro g
    simp only [overlapsWith, Bool.and_eq_true, decide_eq_true_eq, fieldsOverlap_iff_shared_bit]
  simp only [overlapError, FailingCheck.fails]
  by_cases hv : st.ft[f].valid = true
  · rw [if_pos hv]
    split
    · next g hg =>
      have hp := List.find?_some hg
      have hg := (test g).1 hp
      exact ⟨nofun, fun h => (h g ⟨hg.1, hv, hg.2⟩).elim⟩
    · next h =>
      rw [List.find?_eq_none] at h
      exact ⟨fun _ g hg => h g (List.mem_finRange g) ((test g).2 ⟨hg.1, hg.2.2⟩), fun _ => rfl⟩
  · rw [if_neg hv]
    exact ⟨fun _ g hg => hv hg.2.1, fun _ => rfl⟩

/-! ## The validator as a whole (R161, R162) -/

/-- The validator finds nothing exactly when the latch is empty and the schema is valid. -/
theorem firstError_eq_none_iff (st : SchemaStore) : firstError st = none ↔ st.serr.check = 0 ∧ SchemaValid st := by
  simp only [firstError, Option.or_eq_none_iff, List.findSome?_eq_none_iff, List.mem_finRange, true_implies,
    latchedError_eq_none_iff, containerError_eq_none_iff, enumError_eq_none_iff, fieldError_eq_none_iff,
    overlapError_eq_none_iff]
  constructor
  · rintro ⟨h1, ⟨h2, h3⟩, h4, h5, h6⟩
    refine ⟨h1, h2, h3, h4, h5, fun f g hne hf hg b ⟨hb, hb'⟩ => ?_⟩
    rcases lt_or_gt_of_ne hne with hl | hl
    · exact h6 g f ⟨hl, hg, hf, b, hb', hb⟩
    · exact h6 f g ⟨hl, hf, hg, b, hb, hb'⟩
  · rintro ⟨h1, h⟩
    exact ⟨h1, ⟨h.declared, h.defaultFits⟩, h.enums, h.fields,
      fun f g ⟨hl, hf, hg, b, hb, hb'⟩ => h.disjoint f g (ne_of_gt hl) hf hg b ⟨hb, hb'⟩⟩

/-- SCHEMA's information value as a number (R160). -/
theorem SchemaError.toNat_info (e : SchemaError) :
    e.info.toNat = e.check.toNat + 256 * e.obj1.toNat + 65536 * e.obj2.toNat := by
  obtain ⟨c, a, b⟩ := e
  have hc := c.isLt
  have ha := a.isLt
  have hb := b.isLt
  simp only [SchemaError.info, BitVec.toNat_setWidth, BitVec.toNat_append]
  rw [← Nat.shiftLeft_add_eq_or_of_lt hc, ← Nat.shiftLeft_add_eq_or_of_lt ha, Nat.shiftLeft_eq, Nat.shiftLeft_eq,
    Nat.mod_eq_of_lt (show _ < 2 ^ 128 by omega)]
  omega

/-- The index that a search of all indices stops at is the least one that answers. -/
theorem findSome?_finRange_eq_some {n : Nat} {α : Type} {f : Fin n → Option α} {a : α}
    (h : (List.finRange n).findSome? f = some a) : ∃ i, f i = some a ∧ ∀ j < i, f j = none := by
  obtain ⟨l₁, x, l₂, hl, hx, hn⟩ := List.findSome?_eq_some_iff.1 h
  refine ⟨x, hx, fun j hj => hn j ?_⟩
  have hs : (l₁ ++ x :: l₂).Pairwise (· < ·) := hl ▸ List.pairwise_lt_finRange n
  have hm : j ∈ l₁ ++ x :: l₂ := hl ▸ List.mem_finRange j
  rcases List.mem_append.1 hm with hm | hm
  · exact hm
  · rcases List.mem_cons.1 hm with rfl | hm
    · exact (lt_irrefl _ hj).elim
    · exact (lt_asymm hj ((List.pairwise_cons.1 (List.pairwise_append.1 hs).2.1).1 j hm)).elim

end Sys2Proof.Machine
end

