-- ==== Sys2Proof/Tests/Slice0.lean ====
section
/-! SUPPORT. Tests on fixed values, from the vectors of spec/95_test_vectors.md, and witnesses that the hypotheses of the
statements can be met. -/

namespace Sys2Proof.Tests

-- One theorem after the other: checked side by side, these need a thread each.
set_option Elab.async false

open Sys2Proof.Machine Sys2Proof.Safety

/-! ## Helpers -/

/-- Registers written whole, in a state. -/
def withRegs (rs : List (Reg × Data)) (s : State) : State := rs.foldl (fun t r => t.setReg r.1 r.2) s

/-- Registers written whole, after reset. -/
def regs (rs : List (Reg × Data)) : State := withRegs rs State.reset

/-- Host events waiting after reset. -/
def queue (evs : List HostEvent) : State := State.reset.setPending evs

/-- Register `n`, the outcome and ERRVAL after a step, as the vectors list them. -/
def seen (n : Reg) : Result → Option (Data × Code × Data)
  | .next t => some (t.reg n, t.code, t.errval)
  | .fault _ => none
  | .refused _ => none

/-- The response of a host operation. -/
def answered : Result → Option Word
  | .next t => t.response
  | .fault _ => none
  | .refused _ => none

/-- Outcome, ERRVAL and STATUS after a step. -/
def recorded : Result → Option (Code × Data × Word)
  | .next t => some (t.code, t.errval, t.status)
  | .fault _ => none
  | .refused _ => none

/-- The fault of a step. -/
def stopped : Result → Option Fault
  | .next _ => none
  | .fault r => some r
  | .refused _ => none

/-- The store after a step. -/
def storeAfter : Result → Option SchemaStore
  | .next t => some t.store
  | .fault _ => none
  | .refused _ => none

/-- The enum e0 of schema A: partial, `W = 2`, discriminants 0, 1, 3. -/
def enumA0 : EnumSlot := ⟨true, 2, false, 3, ((Vector.replicate 256 0).set 1 1).set 2 3⟩

/-- The enum e1 of schema A: exhaustive, `W = 2`, discriminants 3, 2, 1, 0. -/
def enumA1 : EnumSlot := ⟨true, 2, true, 4, (((Vector.replicate 256 0).set 0 3).set 1 2).set 2 1⟩

/-- The fields of schema A. -/
def fieldsA : List (FieldId × Data) :=
  [(0, 0x8000000130700), (1, 0x4000000230B08), (2, 0x10C0C), (3, 0x20D0D), (4, 0x1000000230E0E), (5, 0x20410031010),
    (6, 0x431918), (7, 0x1331B1A), (8, 0x2000210131D1C)]

/-- The schema store of schema A (95_test_vectors.md). -/
def storeA : SchemaStore :=
  { SchemaStore.empty with
    cwSet := true
    cw := 32
    ft := fieldsA.foldl (fun ft f => ft.set f.1 ⟨true, f.2⟩) SchemaStore.empty.ft
    et := (SchemaStore.empty.et.set 0 enumA0).set 1 enumA1 }

/-- Schema A committed, with registers written. -/
def inA (rs : List (Reg × Data)) : State := withRegs rs ((State.reset.setStore storeA).setPhase .ready)

/-- The test container of schema A. -/
def containerA : Data := 0xC1A5B7F3

/-! ## Well-formedness: each check refuses an ill-formed term (30_encoding.md R69, R70, R79) -/

theorem test_wf_refuses_widths :
    (Instr.mask 1 0).wf = false ∧ (Instr.mask 1 129).wf = false ∧ (Instr.sext 1 2 0).wf = false ∧
      (Instr.wnorm 1 2 129 .signed).wf = false ∧ (Instr.wcmp 1 2 3 0 .unsigned).wf = false ∧
      (Instr.scont 1 0).wf = false ∧ (Instr.senum 0 129 true).wf = false := by decide

theorem test_wf_refuses_ranges :
    (Instr.rmask 1 8 1).wf = false ∧ (Instr.extr 1 2 5 4).wf = false ∧ (Instr.ins 1 2 3 127 126).wf = false := by
  decide

theorem test_wf_accepts_boundaries :
    (Instr.mask 1 1).wf = true ∧ (Instr.mask 1 128).wf = true ∧ (Instr.extr 1 2 5 5).wf = true ∧
      (Instr.rmask 1 0 127).wf = true := by decide

/-! ## Decoding: the spec's own words, every constructor (the "Example" of each command's rule) -/

theorem test_decode_move : decode 0x04480000 = .ok (.mov 1 2) ∧ decode 0x0847BEEF = .ok (.li 1 7 0xBEEF) ∧
    decode 0x0C41DEAD = .ok (.lic 1 1 0xDEAD) := by decide

theorem test_decode_range : decode 0x10403F80 = .ok (.mask 1 128) ∧ decode 0x14400207 = .ok (.rmask 1 4 7) ∧
    decode 0x18841E3F = .ok (.extr 2 1 60 63) ∧ decode 0x1CC48207 = .ok (.ins 3 1 2 4 7) ∧
    decode 0x20840380 = .ok (.sext 2 1 8) := by decide

theorem test_decode_widthint : decode 0x24840381 = .ok (.wnorm 2 1 8 .signed) ∧
    decode 0x28C4BF80 = .ok (.wcmp 3 1 2 128 .unsigned) := by decide

theorem test_decode_accessor : decode 0x40C00000 = .ok (.cnew 3) ∧ decode 0x44840000 = .ok (.cload 2 1) ∧
    decode 0x48841FFF = .ok (.fget 2 1 63 127) ∧ decode 0x4C84C284 = .ok (.fset 2 1 3 5 4) ∧
    decode 0x50840005 = .ok (.edec 2 1 5) ∧ decode 0x54840001 = .ok (.eenc 2 1 1) := by decide

theorem test_decode_schema : decode 0x80000000 = .ok .sbegin ∧ decode 0x840C1F80 = .ok (.scont 3 64) ∧
    decode 0x88080000 = .ok (.sfield 0 2) ∧ decode 0x8C003F9F = .ok (.senum 15 128 true) ∧
    decode 0x90040000 = .ok (.svar 0 1) ∧ decode 0x94000000 = .ok .scommit := by decide

theorem test_decode_system : decode 0xA0C00280 = .ok (.rdcsr 3 .errval) ∧ decode 0xA4000000 = .ok .clrs := by decide

/-- The ILLEGAL words of section 2.1, by reason. -/
theorem test_decode_illegal :
    decode 0x00000000 = .error .reservedOpcode ∧ decode 0xFFFFFFFF = .error .reservedOpcode ∧
      decode 0x2C000000 = .error .reservedOpcode ∧ decode 0x14400401 = .error .lowAboveHigh ∧
      decode 0x1C48FFFE = .error .lowAboveHigh ∧ decode 0x04480001 = .error .mustBeZero ∧
      decode 0x48482000 = .error .mustBeZero ∧ decode 0x24480382 = .error .mustBeZero ∧
      decode 0x08480000 = .error .mustBeZero ∧ decode 0x8C0000A0 = .error .mustBeZero ∧
      decode 0xA0400300 = .error .reservedCsr ∧ decode 0xA4000080 = .error .mustBeZero := by decide

/-- No two rows of the opcode table share a word: their opcodes differ. -/
theorem test_opcode_rows_distinct : opcodeRows.Pairwise (fun r r' => r.op ≠ r'.op) := by decide

theorem test_decodeTableWord : decodeTableWord 32 0x04480000 = some (.mov 1 2) ∧ decodeTableWord 32 0 = none := by decide

/-! ## One step of each command (95_test_vectors.md sections 1 and 2) -/

theorem test_mov : seen 1 (runCommand 0x04480000 (regs [(2, 0xDEADBEEF)])) = some (0xDEADBEEF, .ok, 0) := by
  decide +kernel

theorem test_li : seen 1 (runCommand 0x0847BEEF (regs [(1, 0x1)])) = some (0xBEEF0000000000000000000000000000, .ok, 0) := by
  decide +kernel

theorem test_lic : seen 1 (runCommand 0x0C47FFFF (regs [(1, 0x1)])) = some (0xFFFF0000000000000000000000000001, .ok, 0) := by
  decide +kernel

theorem test_mask : seen 1 (runCommand 0x10403F00 (regs [])) = some (0x7FFFFFFFFFFFFFFFFFFFFFFFFFFFFFFF, .ok, 0) := by
  decide +kernel

theorem test_rmask : seen 1 (runCommand 0x1440207F (regs [])) = some (0xFFFFFFFFFFFFFFFF0000000000000000, .ok, 0) := by
  decide +kernel

theorem test_extr : seen 2 (runCommand 0x1884040F (regs [(1, 0x7FFF7FFF)])) = some (0x7F, .ok, 0) := by decide +kernel

theorem test_ins : seen 3 (runCommand 0x1CC48207 (regs [(1, 0x0), (2, 0x1F)])) = some (0xF0, .ok, 0) := by decide +kernel

/-- All three operands are the old value (00_scope.md R12). -/
theorem test_ins_into_its_sources : seen 1 (runCommand 0x1C44420B (regs [(1, 0xABCD)])) = some (0xACDD, .ok, 0) := by
  decide +kernel

theorem test_sext : seen 2 (runCommand 0x20840100 (regs [(1, 0x5)])) =
    some (0xFFFFFFFFFFFFFFFFFFFFFFFFFFFFFFFD, .ok, 0) := by decide +kernel

theorem test_wnorm : seen 2 (runCommand 0x24840381 (regs [(1, 0x80)])) =
    some (0xFFFFFFFFFFFFFFFFFFFFFFFFFFFFFF80, .ok, 0) := by decide +kernel

theorem test_wcmp_signed : seen 3 (runCommand 0x28C48381 (regs [(1, 0x80), (2, 0x7F)])) = some (1, .ok, 0) := by
  decide +kernel

theorem test_wcmp_unsigned : seen 3 (runCommand 0x28C48380 (regs [(1, 0x80), (2, 0x7F)])) = some (2, .ok, 0) := by
  decide +kernel

theorem test_cnew_in_config : seen 2 (runCommand 0x40800000 (regs [(2, 0x55)])) = some (0x55, .phase, 0x1000) := by
  decide +kernel

theorem test_cnew : seen 0 (runCommand 0x40000000 ((State.reset.setStore (SchemaStore.empty.declareContainer 32 0xDEADBEEF)).setPhase .ready)) =
    some (0xDEADBEEF, .ok, 0) := by decide +kernel

theorem test_cload : seen 2 (runCommand 0x44840000 (inA [(1, 0x123456789)])) = some (0x23456789, .ok, 0) := by
  decide +kernel

theorem test_fget_signed : seen 2 (runCommand 0x48840080 (inA [(1, 0xB8F3)])) =
    some (0xFFFFFFFFFFFFFFFFFFFFFFFFFFFFFFF8, .ok, 0) := by decide +kernel

theorem test_fget_repeated_unmatched_index :
    seen 2 (runCommand 0x48840281 (inA [(1, containerA)])) = some (1, .ok, 0) ∧
      seen 2 (runCommand 0x48840284 (inA [(1, containerA), (2, 0x55)])) = some (0x55, .index, 0x504) ∧
      seen 2 (runCommand 0x48840300 (inA [(1, 0x2000000), (2, 0x55)])) = some (0x2, .unmatched, 0x2) := by decide +kernel

theorem test_fset_integer_above_cw : seen 2 (runCommand 0x4C84C401 (inA [(1, 0x10000000000), (3, 0x2)])) =
    some (0x10080000000, .ok, 0) := by decide +kernel

theorem test_fset_enum_access_badvar :
    seen 2 (runCommand 0x4C84C300 (inA [(1, 0x0), (3, 0x2)])) = some (0x3000000, .ok, 0) ∧
      seen 2 (runCommand 0x4C84C100 (inA [(1, 0x0), (2, 0x55), (3, 0x1)])) = some (0x55, .access, 0x102) ∧
      seen 2 (runCommand 0x4C84C300 (inA [(1, 0x0), (2, 0x55), (3, 0x10000000000000000)])) =
        some (0x55, .badvar, 0x10000000000000000) := by decide +kernel

theorem test_edec :
    seen 2 (runCommand 0x50840000 (inA [(1, 0x10003)])) = some (0x2, .ok, 0) ∧
      seen 2 (runCommand 0x50840000 (inA [(1, 0x10002), (2, 0x55)])) = some (0x2, .unmatched, 0x2) ∧
      seen 2 (runCommand 0x50840005 (inA [(1, 0x0), (2, 0x55)])) = some (0x55, .nofield, 0x105) := by decide +kernel

theorem test_eenc :
    seen 2 (runCommand 0x54840001 (inA [(1, 0x0)])) = some (0x3, .ok, 0) ∧
      seen 2 (runCommand 0x54840000 (inA [(1, 0x3), (2, 0x55)])) = some (0x55, .badvar, 0x3) := by decide +kernel

theorem test_sbegin : recorded (runCommand 0x80000000 (inA [])) = some (.ok, 0, 0x0) ∧
    (storeAfter (runCommand 0x80000000 (inA []))).map (fun st => (st.cwSet, st.cw, st.ft[8], st.et[1].valid)) =
      some (false, 0, ⟨false, 0⟩, false) := by decide +kernel

/-- Declarations of schema A: the container, f0, and e1 with its four variants. -/
theorem test_schema_commands :
    (storeAfter (execAll [.sbegin, .scont 0 32, .sfield 0 4, .senum 1 2 true, .svar 1 3, .svar 1 2, .svar 1 1, .svar 1 0]
      (regs [(0, 0), (1, 1), (2, 2), (3, 3), (4, 0x8000000130700)]))).map
        (fun st => (st.cw, st.ft[0], st.et[1].nvar, [st.et[1].disc 0, st.et[1].disc 1])) =
      some (32, ⟨true, 0x8000000130700⟩, 4, [3, 2]) := by decide +kernel

/-- STATUS 0x16: PHASE in READY. -/
theorem test_sfield_in_ready : recorded (runCommand 0x88000080 (inA [(0, 0)])) = some (.phase, 0x2201, 0x16) := by
  decide +kernel

theorem test_svar_latches : recorded (runCommand 0x90040000 (regs [(1, 0)])) = some (.ok, 0, 0x100) := by decide +kernel

theorem test_scommit_accepts :
    recorded (runCommand 0x94000000 (State.reset.setStore storeA)) = some (.ok, 0, 0x10) := by decide +kernel

/-- Check 3, and the order of checks 13: pairs (2,0) and (3,1) overlap. -/
theorem test_scommit_rejects :
    recorded (runCommand 0x94000000 State.reset) = some (.schema, 0x3, 0x28) ∧
      recorded (runCommand 0x94000000 (State.reset.setStore
        ((((SchemaStore.empty.declareContainer 16 0).declareField 0 0x8000000130700).declareField 1 0x8000000130F08).declareField
          2 0x2000000130504 |>.declareField 3 0x30909))) = some (.schema, 0x20D, 0x28) := by decide +kernel

theorem test_rdcsr : seen 3 (runCommand 0xA0C00100 (regs [])) = some (0xFF0F3F7F, .ok, 0) := by decide +kernel

/-- RDCSR reads the record of the command before it: PHASE, with ERRVAL 0x1500. -/
theorem test_rdcsr_and_clrs_after_a_failure :
    seen 3 (execAll [.eenc 2 1 0, .rdcsr 3 .status] (regs [(1, 0)])) = some (0x6, .ok, 0x1500) ∧
      seen 3 (execAll [.eenc 2 1 0, .clrs, .rdcsr 3 .sticky] (regs [(1, 0)])) = some (0, .ok, 0) := by decide +kernel

/-! ## The host port (section 2.10) and the model faults (section 2.11) -/

theorem test_host_reads :
    answered (step (queue [.access (.read 0x100C 0xF)])) = some 0x42464345 ∧
      answered (step ((queue [.access (.read 0x12C 0xF)]).setReg 2 0x44444444333333332222222211111111)) =
        some 0x44444444 := by decide +kernel

theorem test_host_command : answered (step (queue [cmdWrite 0x40C00000])) = some 0x6 := by decide +kernel

theorem test_host_access_refused :
    stopped (step (queue [.access (.read 0x1002 0xF)])) = some .hostAccessRefused ∧
      stopped (step (queue [.access (.write 0x111 0xF 0)])) = some .hostAccessRefused := by decide +kernel

theorem test_uninit_read :
    stopped (stepStrict (queue [cmdWrite 0x04480000])) = some (.uninitRead 2) ∧
      stopped (stepStrict (queue [cmdWrite 0x880C0000])) = some (.uninitRead 3) ∧
      stopped (stepStrict (queue [.access (.read 0x110 0xF)])) = some (.uninitRead 1) ∧
      answered (stepStrict (queue [cmdWrite 0xFFFFFFFF])) = some 0x7 := by decide +kernel

/-- `withFetchWord` makes the next step run the word, from reset. -/
theorem test_withFetchWord : seen 1 (step (State.reset.withFetchWord 32 0x10400380)) = some (0xFF, .ok, 0) := by
  decide +kernel

/-! ## The assembler (30_encoding.md R81 to R84) -/

theorem test_assemble :
    assemble "INS d4, d1, d2, 4, 7".toList = some [0x1D048207] ∧ assemble "li D1, 0xBE_EF, 7 ; c".toList = some [0x0847BEEF] ∧
      assemble "EXTR d1, d2, 5, 4".toList = none ∧ assemble "LI32 d1, 0xDEADBEEF".toList = some [0x0840BEEF, 0x0C41DEAD] := by
  decide +kernel

/-! ## Witnesses: what the hypotheses of the statements ask for can be met

Each theorem names the statement. A clause over a range has a witness at its boundary. -/

/-- The outcome code of a step. -/
def codeOf : Result → Option Code
  | .next t => some t.code
  | .fault _ => none
  | .refused _ => none

theorem next_of_codeOf {r : Result} {c : Code} (h : codeOf r = some c) : ∃ t, r = .next t ∧ t.code = c := by
  cases r with
  | next t => exact ⟨t, rfl, Option.some.inj h⟩
  | fault r => cases h
  | refused r => cases h

theorem undecodable {w : Word} {r : Illegal} (h : decode w = .error r) (i : Instr) : decode w ≠ .ok i := by
  rw [h]; exact nofun

/-- The enum slots of schema A: e0, e1, and fourteen undeclared ones. -/
theorem storeA_enum (e : EnumId) :
    storeA.et[e] = if e = 1 then enumA1 else if e = 0 then enumA0 else EnumSlot.empty := by
  show ((SchemaStore.empty.et.set 0 enumA0).set 1 enumA1)[e.val] = _
  rw [Vector.getElem_set, Vector.getElem_set]
  simp only [Fin.ext_iff, eq_comm (a := e.val)]
  simp [SchemaStore.empty]

/-- The variants past NVAR of the three kinds of slot are 0. -/
theorem enum_tails (j : Nat) : (4 ≤ j → enumA1.disc j = 0) ∧ (3 ≤ j → enumA0.disc j = 0) ∧ EnumSlot.empty.disc j = 0 := by
  by_cases hj : j < 256
  · refine ⟨fun h => ?_, fun h => ?_, ?_⟩
    · have : ¬0 = j ∧ ¬1 = j ∧ ¬2 = j := by omega
      simp [EnumSlot.disc, enumA1, hj, this]
    · have : ¬1 = j ∧ ¬2 = j := by omega
      simp [EnumSlot.disc, enumA0, hj, this]
    · simp [EnumSlot.disc, EnumSlot.empty, hj]
  · exact ⟨fun _ => EnumSlot.disc_of_ge _ (by omega), fun _ => EnumSlot.disc_of_ge _ (by omega),
      EnumSlot.disc_of_ge _ (by omega)⟩

/-- A property of the three kinds of slot holds of every slot of schema A. -/
theorem storeA_slots {P : EnumSlot → Prop} (h1 : P enumA1) (h0 : P enumA0) (h : P EnumSlot.empty) (e : EnumId) :
    P storeA.et[e] := by
  rw [storeA_enum]
  split
  · exact h1
  · split
    · exact h0
    · exact h

/-- Schema A meets the checks of the loading commands. -/
theorem storeA_ok : StoreOk storeA where
  widthSet := by decide
  widthUnset := by decide
  fieldEmpty := by decide +kernel
  enumEmpty := storeA_slots (P := fun s => s.valid = false → s = EnumSlot.empty) nofun nofun fun _ => rfl
  enumWidth := storeA_slots (P := fun s => s.valid = true → 1 ≤ s.w.val) (by decide) (by decide) nofun
  enumTail e j := storeA_slots (P := fun s => s.nvar.val ≤ j → s.disc j = 0) (enum_tails j).1 (enum_tails j).2.1
    (fun _ => (enum_tails j).2.2) e
  latchCheck := by decide
  latchEmpty := by decide
  latchObject := by decide

/-- Schema A is valid: the validator finds nothing. -/
theorem storeA_valid : SchemaValid storeA := ((firstError_eq_none_iff storeA).1 (by decide +kernel)).2

/-- The invariant holds of every state with schema A and a clear STICKY. -/
theorem inv_of_storeA {s : State} (h : s.store = storeA) (hs : s.sticky = 0) : Inv s where
  stickyClear b _ _ := by rw [hs]; simp
  storeOk := h ▸ storeA_ok
  readyValid _ := by rw [h]; exact ⟨storeA_valid, rfl⟩

theorem witness_inv : Inv (inA [(1, containerA), (3, 0x1FF)]) := inv_of_storeA rfl rfl

theorem witness_EncodedCommandDecodesBack :
    (Instr.ins 15 15 15 0 127).wf = true ∧ (Instr.senum 15 128 true).wf = true ∧ (Instr.mask 0 1).wf = true := by decide

theorem witness_DecodedWordIsTheEncoding : decode 0x1D048207 = .ok (.ins 4 1 2 4 7) := by decide

theorem witness_ReservedOpcodeIsIllegal :
    field 0x03FFFFFF 26 6 = 0x00 ∧ field 0x2C000000 26 6 = 0x0B ∧ field 0x3C000000 26 6 = 0x0F ∧
      field 0x58000000 26 6 = 0x16 ∧ field 0x7C000000 26 6 = 0x1F ∧ field 0x98000000 26 6 = 0x26 ∧
      field 0x9C000000 26 6 = 0x27 ∧ field 0xA8000000 26 6 = 0x2A ∧ field 0xFC000000 26 6 = 0x3F := by decide

theorem witness_UndecodableWordFailsIllegal : ∀ i, decode 0x04480001 ≠ .ok i :=
  undecodable (r := .mustBeZero) (by decide)

theorem witness_StepExecutesTheWordWrittenToCmd :
    0x1000 % 4096 = 0 ∧ (queue [.access (.write 0x1000 0xF 0x10400380)]).pending = .access (.write 0x1000 0xF 0x10400380) :: [] ∧
      decode 0x10400380 = .ok (.mask 1 8) ∧ ∀ i, decode 0x04480001 ≠ .ok i :=
  ⟨rfl, rfl, by decide, undecodable (r := .mustBeZero) (by decide)⟩

theorem witness_IdleAndResetSteps : State.reset.pending = [] ∧ (queue [.reset]).pending = .reset :: [] := ⟨rfl, rfl⟩

/-- An address for each clause, at both ends of the ranges, the last ones of D0 and D15. -/
theorem witness_HostReadReturnsTheMappedWord :
    (∀ addr ∈ [0x000, 0x004, 0x008, 0x00C, 0x010, 0x014, 0x018, 0x01C, 0x020, 0x02C, 0x030, 0x0FC, 0x100, 0x1FC, 0x200,
      0xFFC], addr % 4 = 0 ∧
        (queue [.access (.read addr 0xF)]).pending = .access (.read addr 0xF) :: []) ∧
      0x02C % 4096 = 0x020 + 4 * (3 : Fin 4).val ∧
      0x100 % 4096 = 0x100 + 16 * (0 : Reg).val + 4 * (0 : Fin 4).val ∧
      0x1FC % 4096 = 0x100 + 16 * (15 : Reg).val + 4 * (3 : Fin 4).val :=
  ⟨fun addr h => ⟨(by decide : ∀ a ∈ [0x000, 0x004, 0x008, 0x00C, 0x010, 0x014, 0x018, 0x01C, 0x020, 0x02C, 0x030, 0x0FC,
    0x100, 0x1FC, 0x200, 0xFFC], a % 4 = 0) addr h, rfl⟩, by decide, by decide, by decide⟩

theorem witness_HostWriteSetsOneRegisterWord :
    0x1FC % 4096 = 0x100 + 16 * (15 : Reg).val + 4 * (3 : Fin 4).val ∧
      (queue [.access (.write 0x1FC 0xF 1)]).pending = .access (.write 0x1FC 0xF 1) :: [] := ⟨by decide, rfl⟩

theorem witness_HostWriteClearsStickyOrIsIgnored :
    0x008 % 4096 = 0x008 ∧ (∀ addr ∈ [0x004, 0x00C, 0x0FC, 0x200, 0xFFC],
      addr % 4 = 0 ∧ addr % 4096 ≠ 0x000 ∧ addr % 4096 ≠ 0x008 ∧ (addr % 4096 < 0x100 ∨ 0x200 ≤ addr % 4096)) := by decide

theorem witness_MisalignedOrNarrowAccessIsRefused :
    (0x111 % 4 ≠ 0 ∨ (0xF : BitVec 4) ≠ 0xF) ∧ (0x100 % 4 ≠ 0 ∨ (0x3 : BitVec 4) ≠ 0xF) := by decide

theorem witness_AddressBitsAbove11AreNotDecoded : 0x100C % 4096 = 0x00C % 4096 := rfl

theorem witness_RepeatedAccessChangesNothing :
    (∀ addr lanes v, HostAccess.read 0x110 0xF = .write addr lanes v → addr % 4096 ≠ 0) ∧
      ∃ t, step (queue [.access (.read 0x110 0xF), .access (.read 0x110 0xF)]) = .next t :=
  ⟨nofun, (next_of_codeOf (c := .ok) (by decide +kernel)).imp fun _ h => h.1⟩

/-- `yes` meets match and mask, `no` has the same opcode and does not. -/
def Boundary (mtch mask yes no : Word) : Prop :=
  field yes 26 6 = field mtch 26 6 ∧ yes &&& mask = mtch ∧ field no 26 6 = field mtch 26 6 ∧ no &&& mask ≠ mtch

/-- The premises of every `Encoded`: a word of the opcode that meets match and mask, and one that does not, for each
row with a must-be-zero bit. -/
theorem witness_Encoded :
    Boundary 0x04000000 0xFC03FFFF 0x07FC0000 0x04000001 ∧ Boundary 0x08000000 0xFC380000 0x0BC7FFFF 0x08080000 ∧
    Boundary 0x0C000000 0xFC380000 0x0FC7FFFF 0x0C080000 ∧ Boundary 0x10000000 0xFC3FC07F 0x13C03F80 0x10000001 ∧
    Boundary 0x14000000 0xFC3FC000 0x17C03FFF 0x14004000 ∧ Boundary 0x18000000 0xFC03C000 0x1BFC3FFF 0x18004000 ∧
    Boundary 0x20000000 0xFC03C07F 0x23FC3F80 0x20000001 ∧ Boundary 0x24000000 0xFC03C07E 0x27FC3F81 0x24000002 ∧
    Boundary 0x28000000 0xFC00007E 0x2BFFFF81 0x28000002 ∧ Boundary 0x40000000 0xFC3FFFFF 0x43C00000 0x40000001 ∧
    Boundary 0x44000000 0xFC03FFFF 0x47FC0000 0x44000001 ∧ Boundary 0x48000000 0xFC03E000 0x4BFC1FFF 0x48002000 ∧
    Boundary 0x4C000000 0xFC002000 0x4FFFDFFF 0x4C002000 ∧ Boundary 0x50000000 0xFC03FFF0 0x53FC000F 0x50000010 ∧
    Boundary 0x54000000 0xFC03FFF0 0x57FC000F 0x54000010 ∧ Boundary 0x80000000 0xFFFFFFFF 0x80000000 0x80400000 ∧
    Boundary 0x84000000 0xFFC3C07F 0x843C3F80 0x84000001 ∧ Boundary 0x88000000 0xFFC3E07F 0x883C1F80 0x88000001 ∧
    Boundary 0x8C000000 0xFFFFC060 0x8C003F9F 0x8C000020 ∧ Boundary 0x90000000 0xFFC3FFF0 0x903C000F 0x90000010 ∧
    Boundary 0x94000000 0xFFFFFFFF 0x94000000 0x94000001 ∧ Boundary 0xA0000000 0xFC3FC07F 0xA3C00280 0xA0000001 ∧
    Boundary 0xA4000000 0xFFFFFFFF 0xA4000000 0xA4000080 := by
  unfold Boundary; repeat' apply And.intro
  all_goals decide +kernel

/-- The value conditions, at and past their boundary. -/
theorem witness_Encoded_conditions :
    (orderedRange 0x18480285 ∧ ¬orderedRange 0x1C48FFFE) ∧ field 0xA0400280 7 7 ≤ 5 ∧ ¬field 0xA0400300 7 7 ≤ 5 := by
  unfold orderedRange; decide

/-- Ranges `lo ≤ hi` of EXTR, INS, RMASK and the seven laws, with a second disjoint range. -/
theorem witness_ranges : (0 : Fin 128) ≤ 127 ∧ (5 : Fin 128) ≤ 5 ∧ (4 : Fin 128) ≤ 7 ∧
    ((7 : Fin 128) < 8 ∨ (9 : Fin 128) < 4) := by decide

/-- Widths of MASK, SEXT, WNORM, WCMP, SCONT and SENUM. -/
theorem witness_widths : (1 ≤ 1 ∧ 1 ≤ 128) ∧ (1 ≤ 128 ∧ 128 ≤ 128) ∧ (1 : Reg) ≠ 2 := by decide

/-- CNEW, CLOAD and the schema commands: a state in each phase. -/
theorem witness_phases : (inA []).phase = .ready ∧ State.reset.phase = .config ∧ State.reset.phase ≠ .ready ∧
    (inA []).phase ≠ .config := by decide

theorem witness_FieldAccessChecksInOrder :
    (inA []).phase = .ready ∧ (inA []).store.ft[9].valid = false ∧
      ((inA []).store.ft[3].valid = true ∧ Fdesc.mode (inA []).store.ft[3].desc ≠ 1 ∧
        Fdesc.mode (inA []).store.ft[3].desc ≠ 3) ∧
      ((inA []).store.ft[2].valid = true ∧ Fdesc.mode (inA []).store.ft[2].desc ≠ 2 ∧
        Fdesc.mode (inA []).store.ft[2].desc ≠ 3) ∧
      (Fdesc.mode (inA []).store.ft[5].desc = 3 ∧ Fdesc.instances (inA []).store.ft[5].desc ≤ (4 : Fin 128).val) := by
  decide +kernel

/-- A Bool, an unsigned and a signed field that FGET may name, the last instance of a repeated one among them. -/
theorem witness_FgetReadsBoolAndIntegerFields :
    (MayGet (inA []) 5 3 ∧ Fdesc.kindBits (inA []).store.ft[5].desc = 0) ∧
      (MayGet (inA []) 0 0 ∧ Fdesc.kindBits (inA []).store.ft[0].desc = 1) ∧
      (MayGet (inA []) 1 0 ∧ Fdesc.kindBits (inA []).store.ft[1].desc = 2) := by
  unfold MayGet; decide +kernel

/-- A partial enum field that matches and one that does not, and an exhaustive one. -/
theorem witness_FgetDecodesEnumFields :
    (MayGet (inA []) 6 0 ∧ Fdesc.kindBits (inA []).store.ft[6].desc = 4 ∧ IsVariant enumA0 3 2 ∧ NoVariant enumA0 2) ∧
      MayGet (inA []) 7 0 ∧ Fdesc.kindBits (inA []).store.ft[7].desc = 3 ∧ IsVariant enumA1 0 3 := by
  unfold MayGet IsVariant NoVariant; decide +kernel

theorem witness_FsetWritesBoolAndIntegerFields :
    (MaySet (inA []) 5 3 ∧ Fdesc.kindBits (inA []).store.ft[5].desc = 0) ∧
      (MaySet (inA []) 0 0 ∧ Fdesc.kindBits (inA []).store.ft[0].desc = 1) ∧
      (MaySet (inA []) 1 0 ∧ Fdesc.kindBits (inA []).store.ft[1].desc = 2) := by
  unfold MaySet; decide +kernel

/-- The largest ordinal of a variant, and the least ordinal that names none. -/
theorem witness_FsetEncodesEnumFields :
    MaySet (inA [(3, 2)]) 6 0 ∧ Fdesc.kindBits (inA []).store.ft[6].desc = 4 ∧
      ((inA [(3, 2)]).reg 3).toNat < enumA0.nvar.val ∧ enumA0.nvar.val ≤ ((inA [(3, 3)]).reg 3).toNat := by
  unfold MaySet; decide +kernel

/-- Schema A with three descriptors that SCOMMIT would reject, in READY: KIND 5, and an exhaustive enum with a gap. -/
def unvalidated : State :=
  (inA []).setStore ((storeA.declareField 10 0x530000).declareField 11 0x330100)

theorem witness_UnvalidatedDescriptorStopsTheModel :
    (MayGet unvalidated 10 0 ∧ MaySet unvalidated 10 0 ∧ 5 ≤ (Fdesc.kindBits unvalidated.store.ft[10].desc).toNat) ∧
      MayGet unvalidated 11 0 ∧ Fdesc.kindBits unvalidated.store.ft[11].desc = 3 ∧ NoVariant enumA0 2 := by
  unfold MayGet MaySet NoVariant; decide +kernel

/-- A negative value of the signed field f1, and the largest value of each other kind. -/
theorem witness_FieldValueRoundTrips :
    (MayGet (inA []) 1 0 ∧ MaySet (inA []) 1 0) ∧
      ValidValue storeA storeA.ft[1].desc 0xFFFFFFFFFFFFFFFFFFFFFFFFFFFFFFF8 ∧
      ValidValue storeA storeA.ft[0].desc 0xFF ∧ ValidValue storeA storeA.ft[5].desc 1 ∧
      ValidValue storeA storeA.ft[6].desc 2 := by
  have canonical : ∀ (x : Data) (w : Nat) (sg : Sign),
      (∀ j < 128, w ≤ j → x.getLsbD j = (decide (sg = .signed) && x.getLsbD (w - 1))) → Canonical x w sg :=
    fun x w sg h j hw hj => h j hj hw
  refine ⟨by unfold MayGet MaySet; decide +kernel, ⟨?_, ?_, ?_, ?_⟩, ⟨?_, ?_, ?_, ?_⟩, ⟨?_, ?_, ?_, ?_⟩, ⟨?_, ?_, ?_, ?_⟩⟩
  all_goals first
    | decide +kernel
    | exact fun h => canonical _ _ _ (by decide +kernel)
    | exact fun h => absurd h (by decide +kernel)

/-- An FSET that answers OK under the invariant, on a well-formed container, beside another field. -/
theorem witness_FieldWritesDoNotInterfere :
    (∃ t, exec (.fset 2 1 3 0 0) (inA [(1, containerA), (3, 0x1FF)]) = .next t ∧ t.code = .ok) ∧ (1 : FieldId) ≠ 0 ∧
      ContainerOk storeA containerA :=
  ⟨next_of_codeOf (by decide +kernel), by decide, by unfold ContainerOk; decide +kernel⟩

theorem witness_EdecDecodesTheDiscriminant :
    ((inA []).store.et[5].valid = false ∧ (inA []).store.et[0].valid = true ∧
      IsVariant (inA []).store.et[0] (0x10003 % 2 ^ 2) 2 ∧ NoVariant (inA []).store.et[0] (0x10002 % 2 ^ 2)) ∧
      Inv (inA [(1, containerA), (3, 0x1FF)]) ∧
      (inA [(1, containerA), (3, 0x1FF)]).store.et[1].valid = true ∧
      (inA [(1, containerA), (3, 0x1FF)]).store.et[1].exh = true :=
  ⟨by unfold IsVariant NoVariant; decide +kernel, witness_inv, by decide +kernel, by decide +kernel⟩

theorem witness_EencEncodesTheOrdinal :
    (inA []).store.et[5].valid = false ∧ (inA []).store.et[0].valid = true ∧ 2 < (inA []).store.et[0].nvar.val ∧
      (inA []).store.et[0].nvar.val ≤ 3 := by decide +kernel

/-- An exhaustive and a partial enum in READY; the partial one has a matching and an unmatched value. -/
theorem witness_EnumCodecLaws :
    ((inA []).store.et[1].valid = true ∧ (inA []).store.et[1].exh = true) ∧ (inA []).store.et[0].valid = true ∧
      (inA []).store.et[0].exh = false ∧ 3 < 2 ^ (inA []).store.et[0].w.val ∧ ¬NoVariant (inA []).store.et[0] 3 ∧
      NoVariant (inA []).store.et[0] 2 := by
  unfold NoVariant; decide +kernel

/-- An undeclared enum, a full one, and one with room for one variant more. -/
theorem witness_SvarAppendsAVariantOrLatches :
    State.reset.store.et[0].valid = false ∧ ({ enumA0 with nvar := 256 } : EnumSlot).valid = true ∧
      ({ enumA0 with nvar := 256 } : EnumSlot).nvar.val = 256 ∧
      ({ enumA0 with nvar := 255 } : EnumSlot).nvar.val ≠ 256 := by decide +kernel

/-- After reset the first failing check is NOCONT: the latch is empty. -/
theorem witness_ScommitReportsTheFirstFailingCheck :
    State.reset.phase = .config ∧ FirstFailing State.reset.store .noContainer := by
  refine ⟨rfl, rfl, fun c hc => ?_⟩
  cases c with
  | latched => exact absurd rfl hc
  | noContainer => exact le_rfl
  | defaultRange => decide
  | discriminantRange | discriminantDuplicate | notExhaustive | reserved | range | repetition | bounds | kind | overlap =>
    simp only [FailingCheck.place]; omega

theorem witness_CommandOutsideItsPhaseRaisesPhase :
    admittedIn (.cnew 1) = some .ready ∧ State.reset.phase ≠ .ready ∧ admittedIn .scommit = some .config ∧
      (inA []).phase ≠ .config := by decide

/-- A failure of each kind that the statement tells apart. -/
theorem witness_FailuresArePrecise :
    (∃ t, exec (.cnew 1) State.reset = .next t ∧ t.code = .phase) ∧
      (∃ t, exec (.edec 2 1 0) (inA [(1, 2)]) = .next t ∧ t.code = .unmatched) ∧
      (∃ t, exec .scommit State.reset = .next t ∧ t.code = .schema) :=
  ⟨next_of_codeOf (by decide +kernel), next_of_codeOf (by decide +kernel), next_of_codeOf (by decide +kernel)⟩

/-- A command in READY that is neither SBEGIN, SCOMMIT nor CLRS, and SCOMMIT in CONFIG. -/
theorem witness_whole_machine :
    (∃ t, exec (.mask 1 8) (inA []) = .next t ∧ t.code = .ok) ∧ (inA []).phase ≠ .config ∧ Instr.mask 1 8 ≠ .sbegin ∧
      Instr.mask 1 8 ≠ .scommit ∧ Instr.mask 1 8 ≠ .clrs ∧ Instr.scommit ≠ .sbegin :=
  ⟨next_of_codeOf (by decide +kernel), by decide, by decide, by decide, by decide, by decide⟩

/-- Every clause of the strict step, in states of schema A. -/
theorem witness_StrictStepRaisesTheModelFaults :
    Inv ((inA []).setPending [cmdWrite 0x04480000]) ∧ Inv ((inA []).markUninit 3) ∧ ((inA []).markUninit 3).uninit = some 3 ∧
      (inA []).uninit = none ∧ firstUndefined (inA []) (registersRead (.mov 1 2)) = some 2 ∧
      firstUndefined (inA [(2, 7)]) (registersRead (.mov 1 2)) = none ∧ (∀ i, decode 0xFFFFFFFF ≠ .ok i) ∧
      (inA []).defined[(1 : Reg)].getLsbD (0 : Fin 4).val = false :=
  ⟨inv_of_storeA rfl rfl, inv_of_storeA rfl rfl, rfl, rfl, by decide +kernel, by decide +kernel,
    undecodable (r := .reservedOpcode) (by decide), by decide +kernel⟩

/-- Two states that differ in the undefined D5, and a command that does not read it. -/
theorem witness_UndefinedWordsDoNotMatter :
    AgreeOnDefined (queue [cmdWrite 0x10400380]) { queue [cmdWrite 0x10400380] with regs := State.reset.regs.set 5 1 } ∧
      ∃ t, step (queue [cmdWrite 0x10400380]) = .next t ∧ Clean t :=
  ⟨⟨fun n k h => absurd h (by revert n k; decide), rfl⟩, _, rfl, rfl⟩

theorem witness_EveryStepKeepsTheInvariant :
    Inv ((inA []).setPending [cmdWrite 0x80000000]) ∧ ∃ t, step ((inA []).setPending [cmdWrite 0x80000000]) = .next t :=
  ⟨inv_of_storeA rfl rfl, (next_of_codeOf (c := .ok) (by decide +kernel)).imp fun _ h => h.1⟩

theorem witness_AssemblerEmitsOnlyLegalWords : assemble "SCOMMIT".toList = some [0x94000000] ∧
    0x94000000#32 ∈ [0x94000000#32] := by decide +kernel

theorem witness_PseudoInstructionsHaveTheirMeaning :
    ((Pseudo.clr 1 = .clr 1 ∧ (0 : Data) = 0) ∧ ∃ x : BitVec 32, Pseudo.li32 1 5 = .li32 1 x ∧ (5 : Data) = x.setWidth 128) ∧
      ∃ r : Reg, Pseudo.craw 1 2 = .craw 1 r ∧ (0 : Data) = State.reset.reg r :=
  ⟨⟨⟨rfl, rfl⟩, 5, rfl, rfl⟩, 2, rfl, rfl⟩

end Sys2Proof.Tests
end

section
/-! PROOFS. The host port as a chain of equations: which event a step takes, which operation an access stands for, and
what a command word runs. O6 puts them together. -/

namespace Sys2Proof.Machine

/-! ## Running a command word (30_encoding.md R78, R79) -/

theorem runCommand_of_decode {w : Word} {i : Instr} (h : decode w = .ok i) (s : State) :
    runCommand w s = exec i s := by
  rw [runCommand, h]

theorem runCommand_of_undecodable {w : Word} (h : ∀ i, decode w ≠ .ok i) (s : State) :
    runCommand w s = failIllegal w s := by
  unfold runCommand
  split
  · next i hi => exact absurd hi (h i)
  · rfl

/-! ## From the queue to the operation (00_scope.md R11, 20_memory.md R52 to R54) -/

/-- A step performs the oldest waiting event, at the state with that event taken from the queue. -/
theorem step_of_pending {s : State} {ev : HostEvent} {rest : List HostEvent} (h : s.pending = ev :: rest) :
    step s = hostEvent ev (s.setPending rest) := by
  rw [step, h]

theorem hostEvent_of_op {a : HostAccess} {op : HostOp} (h : a.op = some op) (s : State) :
    hostEvent (.access a) s = hostOp op s := by
  rw [hostEvent, h]

theorem alignedWord_of_aligned {addr : Nat} (h : addr % 4 = 0) : alignedWord addr 0xF = true := by
  simp [alignedWord, h]

theorem HostAccess.op_write_of_aligned {addr : Nat} (h : addr % 4 = 0) (v : Word) :
    (HostAccess.write addr 0xF v).op = some (writeOp (offsetOf addr) v) :=
  if_pos (alignedWord_of_aligned h)

theorem offsetOf_eq_zero {addr : Nat} (h : addr % 4096 = 0) : offsetOf addr = 0 :=
  BitVec.eq_of_toNat_eq h

/-- Every alias of offset 0 is CMD (20_memory.md R53, R54). -/
theorem HostAccess.op_write_cmd {addr : Nat} (h : addr % 4096 = 0) (w : Word) :
    (HostAccess.write addr 0xF w).op = some (.cmd w) := by
  rw [op_write_of_aligned (by omega), offsetOf_eq_zero h]
  rfl

/-- A step that takes a write to CMD runs the word written, and answers with the new STATUS. -/
theorem step_of_pending_cmd {s : State} {rest : List HostEvent} {addr : Nat} {w : Word} (ha : addr % 4096 = 0)
    (hp : s.pending = .access (.write addr 0xF w) :: rest) :
    step s = withStatusResponse (runCommand w (s.setPending rest)) :=
  (step_of_pending hp).trans (hostEvent_of_op (HostAccess.op_write_cmd ha w) _)

/-- Settles O6: the step is the run of the word with the STATUS response, and each way the run can end gives its clause. -/
theorem stepExecutesTheWordWrittenToCmd : Obligations.StepExecutesTheWordWrittenToCmd := by
  intro s rest addr w ha hp q
  have hstep : step s = withStatusResponse (runCommand w q) := step_of_pending_cmd ha hp
  refine ⟨fun i hi => ?_, fun hw => ?_⟩
  · rw [runCommand_of_decode hi] at hstep
    refine ⟨fun t ht => ?_, fun r hr => ?_, fun r hr => ?_⟩
    · rw [hstep, ht]; rfl
    · rw [hstep, hr]; rfl
    · rw [hstep, hr]; rfl
  · have hill := runCommand_of_undecodable hw q
    exact ⟨_, hill, by rw [hstep, hill]; rfl⟩

end Sys2Proof.Machine
end

section
/-! PROOFS. The words of a register: a register is its four words, and the host's write changes and defines one of them. -/

namespace Sys2Proof.Machine

/-- A register is its four words (20_memory.md R51). -/
theorem eq_of_wordOf_eq {a b : Data} (h : ∀ k, wordOf a k = wordOf b k) : a = b := by
  refine BitVec.eq_of_getLsbD_eq fun i hi => ?_
  have hi : i < 128 := hi
  have hw := congrArg (·.getLsbD (i % 32)) (h ⟨i / 32, by omega⟩)
  have hm : i % 32 < 32 := Nat.mod_lt _ (by decide)
  simpa [wordOf, hm, Nat.div_add_mod] using hw

theorem wordDefined_of_regDefined {s : State} {n : Reg} (h : s.regDefined n = true) (k : Fin 4) :
    s.defined[n].getLsbD k.val = true := by
  rw [State.regDefined, beq_iff_eq] at h
  rw [h]
  revert k
  decide

theorem State.setRegWord_reg (s : State) (n m : Reg) (k : Fin 4) (x : Word) :
    (s.setRegWord n k x).reg m = if m = n then setWordOf (s.reg n) k x else s.reg m := by
  by_cases h : m = n
  · subst h; simp [State.reg]
  · have h' : n.val ≠ m.val := fun e => h (Fin.ext e.symm)
    simp [State.reg, Vector.getElem_set_ne, h, h']

/-- The host's write of a word defines no other word (10_state.md R22). -/
theorem State.defined_of_setRegWord {s : State} {n m : Reg} {k j : Fin 4} {x : Word} (hne : ¬(m = n ∧ j = k))
    (h : (s.setRegWord n k x).defined[m].getLsbD j.val = true) : s.defined[m].getLsbD j.val = true := by
  have other : ∀ (b : BitVec 4) (k j : Fin 4), j ≠ k → (b ||| 1#4 <<< k.val).getLsbD j.val = b.getLsbD j.val := by decide
  by_cases hm : m = n
  · subst hm
    have hj : j ≠ k := fun e => hne ⟨rfl, e⟩
    simpa only [State.setRegWord_defined, Fin.getElem_fin, Vector.getElem_set_self, other _ _ _ hj] using h
  · have h' : n.val ≠ m.val := fun e => hm (Fin.ext e.symm)
    simpa [Vector.getElem_set_ne, h'] using h

end Sys2Proof.Machine
end

section
/-! PROOFS. States that agree on their defined words: what reads alike in both, and which updates keep the agreement. -/

namespace Sys2Proof.Safety

open Sys2Proof.Machine

/-! ## Reading two states that agree -/

/-- A view that does not look at the registers is the same in both states. -/
theorem AgreeOnDefined.view {s t : State} (h : AgreeOnDefined s t) {α : Type} (f : State → α)
    (hf : ∀ u R, f { u with regs := R } = f u := by intros; rfl) : f t = f s := by
  rw [h.rest, hf]

/-- A register with no undefined word holds the same value in both states. -/
theorem AgreeOnDefined.reg_eq {s t : State} (h : AgreeOnDefined s t) {n : Reg} (hn : s.regDefined n = true) :
    t.reg n = s.reg n :=
  eq_of_wordOf_eq fun k => (h.words n k (wordDefined_of_regDefined hn k)).symm

/-! ## Updating two states that agree -/

theorem AgreeOnDefined.refl (s : State) : AgreeOnDefined s s := ⟨fun _ _ _ => rfl, rfl⟩

/-- An update that neither looks at the registers nor changes them or their defined bits keeps the agreement. -/
theorem AgreeOnDefined.update {s t : State} (h : AgreeOnDefined s t) (f : State → State)
    (hf : ∀ u R, f { u with regs := R } = { f u with regs := R } := by intros; rfl)
    (hd : ∀ u, (f u).defined = u.defined := by intros; rfl) : AgreeOnDefined (f s) (f t) := by
  have hr : ∀ u, (f u).regs = u.regs := fun u => (congrArg State.regs (hf u u.regs) :)
  refine ⟨fun n k hk => ?_, ?_⟩
  · rw [hd] at hk
    simpa only [State.reg, hr] using h.words n k hk
  · rw [hr]
    exact (congrArg f h.rest).trans (hf s t.regs)

theorem AgreeOnDefined.noteReads {s t : State} (h : AgreeOnDefined s t) (ns : List Reg) :
    AgreeOnDefined (s.noteReads ns) (t.noteReads ns) := by
  simp only [State.noteReads_eq]
  exact h.update fun u => { u with uninit := u.uninit.or (ns.find? fun n => !u.regDefined n) }

/-- Writing one value whole to a register of both states keeps the agreement. -/
theorem AgreeOnDefined.setReg {s t : State} (h : AgreeOnDefined s t) (rd : Reg) (v : Data) :
    AgreeOnDefined (s.setReg rd v) (t.setReg rd v) where
  words n k hk := by
    by_cases hn : n = rd
    · subst hn; simp
    · rw [State.setReg_defined_ne _ _ hn] at hk
      rw [State.setReg_reg_ne _ _ hn, State.setReg_reg_ne _ _ hn]
      exact h.words n k hk
  rest := congrArg (State.setReg rd v) h.rest

/-- Writing one word to a register of both states keeps the agreement. -/
theorem AgreeOnDefined.setRegWord {s t : State} (h : AgreeOnDefined s t) (n : Reg) (k : Fin 4) (x : Word) :
    AgreeOnDefined (s.setRegWord n k x) (t.setRegWord n k x) where
  words m j hj := by
    simp only [State.setRegWord_reg]
    by_cases hw : m = n ∧ j = k
    · obtain ⟨rfl, rfl⟩ := hw
      simp [wordOf_setWordOf]
    · have hword := h.words m j (State.defined_of_setRegWord hw hj)
      by_cases hm : m = n
      · subst hm
        have hjk : j ≠ k := fun e => hw ⟨rfl, e⟩
        simpa [wordOf_setWordOf, hjk] using hword
      · simpa [hm] using hword
  rest := congrArg (State.setRegWord n k x) h.rest

end Sys2Proof.Safety
end

section
/-! PROOFS. What a clean step computes does not depend on undefined words: every ending of a command keeps the agreement
of two states, and so does every host event. -/

namespace Sys2Proof.Machine

open Sys2Proof.Safety

/-! ## Results that agree when the first is clean -/

/-- If the first result is a next state with a clear mark, so is the second, and the two agree. -/
def CleanAgree (r₁ r₂ : Result) : Prop :=
  ∀ t₁, r₁ = .next t₁ → Clean t₁ → ∃ t₂, r₂ = .next t₂ ∧ AgreeOnDefined t₁ t₂

theorem cleanAgree_next {s t : State} (h : AgreeOnDefined s t) : CleanAgree (.next s) (.next t) := by
  rintro _ ⟨⟩ -
  exact ⟨t, rfl, h⟩

theorem cleanAgree_fault (r : Fault) (r₂ : Result) : CleanAgree (.fault r) r₂ := nofun

/-- One guard before two results that agree. -/
theorem cleanAgree_unlessFails {s t : State} (h : AgreeOnDefined s t) (e : Option Failure) {go₁ go₂ : Result}
    (hgo : CleanAgree go₁ go₂) : CleanAgree (unlessFails e s go₁) (unlessFails e t go₂) := by
  cases e with
  | none => exact hgo
  | some f => exact cleanAgree_next (h.update (·.failWith f))

theorem cleanAgree_finishWith {s t : State} (h : AgreeOnDefined s t) (rd : Reg) (v : Data) :
    CleanAgree (finishWith rd v s) (finishWith rd v t) :=
  cleanAgree_next ((h.setReg rd v).update State.done)

theorem cleanAgree_failUnmatched {s t : State} (h : AgreeOnDefined s t) (rd : Reg) (raw : Data) :
    CleanAgree (failUnmatched rd raw s) (failUnmatched rd raw t) :=
  cleanAgree_next ((h.setReg rd raw).update (·.failWith ⟨.unmatched, raw⟩))

theorem cleanAgree_finish_setStore {s t : State} (h : AgreeOnDefined s t) (st : SchemaStore) :
    CleanAgree (finish (s.setStore st)) (finish (t.setStore st)) :=
  cleanAgree_next (h.update fun u => (u.setStore st).done)

/-! ## Commands -/

/-- No ending moves the mark: only noting the reads does (60_exceptions.md R207). -/
theorem Ends.uninit_eq {i : Instr} {s n t : State} (h : Ends i s n t) : t.uninit = n.uninit := by
  cases h <;> rfl

/-- A command that leaves the mark clear has read defined registers only. -/
theorem regDefined_of_clean_exec {i : Instr} {s t : State} (h : exec i s = .next t) (hc : Clean t) :
    ∀ n ∈ registersRead i, s.regDefined n = true := by
  rw [Clean, (exec_ends h).uninit_eq, State.noteReads_uninit, Option.or_eq_none_iff, List.find?_eq_none] at hc
  simpa using hc.2

/-- A command whose registers read alike in two states that agree does the same in both. -/
theorem exec_cleanAgree_of_reg_eq {i : Instr} {s t : State} (h : AgreeOnDefined s t)
    (hr : ∀ n ∈ registersRead i, t.reg n = s.reg n) : CleanAgree (exec i s) (exec i t) := by
  have hn := h.noteReads (registersRead i)
  have hst : t.store = s.store := h.view State.store
  have hadm : ∀ p op, admitIn p op t = admitIn p op s := fun p op => h.view (admitIn p op)
  cases i with
  | li | mask | rmask => exact cleanAgree_finishWith h _ _
  | mov | extr | sext | wnorm | lic | ins | wcmp =>
    simp only [registersRead, List.mem_cons, List.not_mem_nil, or_false, forall_eq_or_imp, forall_eq] at hr
    simp only [exec, execMov, execExtr, execSext, execWnorm, execLic, execIns, execWcmp, hr]
    exact cleanAgree_finishWith hn _ _
  | rdcsr rd csr =>
    simp only [exec, execRdcsr, h.view (State.csr · csr)]
    exact cleanAgree_finishWith h _ _
  | cnew rd =>
    simp only [exec, execCnew, hadm, hst]
    exact cleanAgree_unlessFails h _ (cleanAgree_finishWith h _ _)
  | cload rd rs1 =>
    simp only [exec, execCload, hadm, hst, hr rs1 (by simp [registersRead])]
    exact cleanAgree_unlessFails hn _ (cleanAgree_finishWith hn _ _)
  | fget rd rs1 fid idx =>
    simp only [exec, execFget, hst, hr rs1 (by simp [registersRead]), h.view (admitAccess .get Opcode.fget fid idx)]
    refine cleanAgree_unlessFails hn _ ?_
    cases Fdesc.kind s.store.ft[fid].desc with
    | none => exact cleanAgree_fault _ _
    | some k =>
      cases k with
      | bool | unsigned | signed => exact cleanAgree_finishWith hn _ _
      | enumExhaustive =>
        cases (s.store.enumOf s.store.ft[fid].desc).find (fieldBits s.store.ft[fid].desc idx (s.reg rs1)) with
        | some j => exact cleanAgree_finishWith hn _ _
        | none => exact cleanAgree_fault _ _
      | enumPartial =>
        cases (s.store.enumOf s.store.ft[fid].desc).find (fieldBits s.store.ft[fid].desc idx (s.reg rs1)) with
        | some j => exact cleanAgree_finishWith hn _ _
        | none => exact cleanAgree_failUnmatched hn _ _
  | fset rd rs1 rs2 fid idx =>
    simp only [exec, execFset, hst, hr rs1 (by simp [registersRead]), hr rs2 (by simp [registersRead]),
      h.view (admitAccess .set Opcode.fset fid idx)]
    refine cleanAgree_unlessFails hn _ ?_
    cases Fdesc.kind s.store.ft[fid].desc with
    | none => exact cleanAgree_fault _ _
    | some k =>
      cases k with
      | bool | unsigned | signed => exact cleanAgree_finishWith hn _ _
      | enumExhaustive | enumPartial => exact cleanAgree_unlessFails hn _ (cleanAgree_finishWith hn _ _)
  | edec rd rs1 eid =>
    simp only [exec, execEdec, hadm, hst, hr rs1 (by simp [registersRead]), h.view (admitEnum eid)]
    refine cleanAgree_unlessFails hn _ ?_
    cases s.store.et[eid].find (s.reg rs1 &&& mask s.store.et[eid].w.val) with
    | some j => exact cleanAgree_finishWith hn _ _
    | none => exact cleanAgree_failUnmatched hn _ _
  | eenc rd rs1 eid =>
    simp only [exec, execEenc, hadm, hst, hr rs1 (by simp [registersRead]), h.view (admitEnum eid)]
    exact cleanAgree_unlessFails hn _ (cleanAgree_finishWith hn _ _)
  | sbegin => exact cleanAgree_finish_setStore (h.update (·.setPhase .config)) _
  | senum eid w exh =>
    simp only [exec, execSenum, hadm, hst]
    exact cleanAgree_unlessFails h _ (cleanAgree_finish_setStore h _)
  | scont | sfield | svar =>
    simp only [registersRead, List.mem_cons, List.not_mem_nil, or_false, forall_eq] at hr
    simp only [exec, execScont, execSfield, execSvar, hadm, hst, hr]
    exact cleanAgree_unlessFails hn _ (cleanAgree_finish_setStore hn _)
  | scommit =>
    simp only [exec, execScommit, hadm, hst]
    refine cleanAgree_unlessFails h _ ?_
    cases firstError s.store with
    | none => exact cleanAgree_next (h.update fun u => (u.setPhase .ready).done)
    | some e => exact cleanAgree_next (h.update fun u => (u.setPhase .failed).failWith ⟨.schema, e.info⟩)
  | clrs => exact cleanAgree_next (h.update fun u => u.clearOutcomes.done)

/-- What a clean command computes does not depend on undefined words. -/
theorem exec_cleanAgree (i : Instr) {s t : State} (h : AgreeOnDefined s t) : CleanAgree (exec i s) (exec i t) := by
  intro s' hs hc
  exact exec_cleanAgree_of_reg_eq h (fun n hn => h.reg_eq (regDefined_of_clean_exec hs hc n hn)) s' hs hc

theorem runCommand_cleanAgree (w : Word) {s t : State} (h : AgreeOnDefined s t) :
    CleanAgree (runCommand w s) (runCommand w t) := by
  unfold runCommand
  split
  · exact exec_cleanAgree _ h
  · exact cleanAgree_next (h.update (·.failWith ⟨.illegal, w.setWidth Config.dw⟩))

/-! ## Host events and steps -/

theorem cleanAgree_withStatusResponse {r₁ r₂ : Result} (h : CleanAgree r₁ r₂) :
    CleanAgree (withStatusResponse r₁) (withStatusResponse r₂) := by
  cases r₁ with
  | next u =>
    rintro _ ⟨⟩ hc
    obtain ⟨v, rfl, huv⟩ := h u rfl hc
    exact ⟨_, rfl, huv.update fun w => w.respond (some w.status)⟩
  | fault r => exact nofun
  | refused r => exact nofun

/-- A host read of a word is clean only if the word is defined, and then both states answer it alike. -/
theorem regRead_cleanAgree (n : Reg) (k : Fin 4) {s t : State} (h : AgreeOnDefined s t) :
    CleanAgree (hostOp (.regRead n k) s) (hostOp (.regRead n k) t) := by
  have hw : t.wordDefined n k = s.wordDefined n k := h.view (State.wordDefined · n k)
  simp only [hostOp, hw]
  by_cases hd : s.wordDefined n k = true
  · simp only [hd, if_true, ← h.words n k hd]
    exact cleanAgree_next (h.update (·.respond _))
  · rintro _ ⟨⟩ hc
    rw [if_neg hd] at hc
    simp [Clean] at hc

theorem hostOp_cleanAgree (op : HostOp) {s t : State} (h : AgreeOnDefined s t) :
    CleanAgree (hostOp op s) (hostOp op t) := by
  cases op with
  | cmd w => exact cleanAgree_withStatusResponse (runCommand_cleanAgree w h)
  | regWrite n k v => exact cleanAgree_next ((h.setRegWord n k v).update (·.respond none))
  | regRead n k => exact regRead_cleanAgree n k h
  | csrRead a => exact cleanAgree_next (h.update fun u => u.respond (some (u.csrWord a)))
  | stickyClear v => exact cleanAgree_next (h.update fun u => (u.clearSticky v).respond none)
  | ignoredWrite => exact cleanAgree_next (h.update (·.respond none))

theorem hostEvent_cleanAgree (ev : HostEvent) {s t : State} (h : AgreeOnDefined s t) :
    CleanAgree (hostEvent ev s) (hostEvent ev t) := by
  cases ev with
  | reset =>
    have hreset : resetEvent t = resetEvent s := h.view resetEvent
    simp only [hostEvent, hreset]
    exact cleanAgree_next (AgreeOnDefined.refl _)
  | access a =>
    simp only [hostEvent]
    split
    · exact hostOp_cleanAgree _ h
    · exact cleanAgree_fault _ _

/-- Settles O54: with nothing waiting the states stand still; otherwise the oldest event keeps the agreement. -/
theorem undefinedWordsDoNotMatter : Obligations.UndefinedWordsDoNotMatter := by
  intro s₁ s₂ t₁ h
  have hp : s₂.pending = s₁.pending := h.view State.pending
  suffices CleanAgree (step s₁) (step s₂) from this t₁
  simp only [step, hp]
  split
  · exact cleanAgree_next h
  · exact hostEvent_cleanAgree _ (h.update (·.setPending _))

end Sys2Proof.Machine
end

section
/-! PROOFS. The state after reset, and who may change the schema and the phase. -/

namespace Sys2Proof.Machine

open Sys2Proof.Safety

/-! ## Who changes the schema (10_state.md R41, 45_schema.md R151, R165) -/

/-- Settles O51, ending by ending: five of them leave the schema alone, a declaration and SCOMMIT need CONFIG, and
SBEGIN is excluded. -/
theorem committedSchemaIsImmutable : Obligations.CommittedSchemaIsImmutable := by
  intro i s t h hb
  cases exec_ends h with
  | wrote | unmatched | phase | failed | cleared =>
    exact ⟨fun _ => ⟨by simp, by simp⟩, fun _ => by simp, fun _ => by simp⟩
  | declared st hp hd =>
    refine ⟨fun hn => absurd hp hn, fun _ => by simp, ?_⟩
    rintro rfl
    cases hd
  | began hi => exact absurd hi hb
  | committed hi hp | rejected _ hi hp => exact ⟨fun hn => absurd hp hn, fun hn => absurd hi hn, fun _ => by simp⟩

/-! ## The empty schema store (10_state.md R44, 45_schema.md R150) -/

theorem SchemaStore.empty_ft (f : FieldId) : SchemaStore.empty.ft[f] = FieldSlot.empty := by
  simp [SchemaStore.empty]

theorem SchemaStore.empty_et (e : EnumId) : SchemaStore.empty.et[e] = EnumSlot.empty := by
  simp [SchemaStore.empty]

@[simp] theorem EnumSlot.empty_disc (j : Nat) : EnumSlot.empty.disc j = 0 := by
  by_cases h : j < 256
  · simp [EnumSlot.disc, EnumSlot.empty, h]
  · exact EnumSlot.disc_of_ge _ (by omega)

theorem storeEmptied_empty : StoreEmptied SchemaStore.empty where
  container := ⟨rfl, rfl, rfl⟩
  fields f := by rw [SchemaStore.empty_ft]; exact ⟨rfl, rfl⟩
  enums e := by rw [SchemaStore.empty_et]; exact ⟨rfl, rfl, rfl, rfl, fun j _ => EnumSlot.empty_disc j⟩
  latch := ⟨rfl, rfl, rfl⟩

theorem storeOk_empty : StoreOk SchemaStore.empty where
  widthSet := nofun
  widthUnset _ := ⟨rfl, rfl⟩
  fieldEmpty f _ := by rw [SchemaStore.empty_ft]; rfl
  enumEmpty e _ := SchemaStore.empty_et e
  enumWidth e := by rw [SchemaStore.empty_et]; exact nofun
  enumTail e j _ := by rw [SchemaStore.empty_et]; exact EnumSlot.empty_disc j
  latchCheck := Nat.zero_le _
  latchEmpty _ := rfl
  latchObject := ⟨by decide, rfl⟩

/-! ## Reset -/

theorem State.reset_defined (n : Reg) : State.reset.defined[n] = 0 := by simp [State.reset]

/-- Settles O8: the defined bits and the store by the lemmas above, every other piece by its definition. -/
theorem resetStateHoldsResetValues : Obligations.ResetStateHoldsResetValues := by
  refine ⟨fun n k => ?_, rfl, rfl, rfl, rfl, storeEmptied_empty, rfl, rfl, rfl, rfl, rfl⟩
  rw [State.reset_defined]
  exact BitVec.getLsbD_zero

/-- Settles O56: STICKY is 0, the store is empty, and the phase is CONFIG. -/
theorem resetMeetsTheInvariant : Obligations.ResetMeetsTheInvariant where
  stickyClear _ _ _ := BitVec.getLsbD_zero
  storeOk := storeOk_empty
  readyValid := nofun

end Sys2Proof.Machine
end

section
/-! PROOFS. The host address map by the byte address: the decoded offset, the data-register window, the word a read
returns in each row, and the operation each aligned access stands for. -/

namespace Sys2Proof.Machine

open Sys2Proof.Safety

/-! ## The decoded offset (20_memory.md R53) -/

theorem offsetOf_toNat (addr : Nat) : (offsetOf addr).toNat = addr % 4096 := BitVec.toNat_ofNat addr 12

theorem offsetOf_eq_iff {addr : Nat} {a : BitVec 12} : offsetOf addr = a ↔ addr % 4096 = a.toNat := by
  rw [← BitVec.toNat_inj, offsetOf_toNat]

theorem offsetOf_congr {addr addr' : Nat} (h : addr % 4096 = addr' % 4096) : offsetOf addr = offsetOf addr' :=
  offsetOf_eq_iff.2 (h.trans (offsetOf_toNat addr').symm)

theorem alignedWord_congr {addr addr' : Nat} (h : addr % 4096 = addr' % 4096) (lanes : BitVec 4) :
    alignedWord addr lanes = alignedWord addr' lanes := by
  have h4 : addr % 4 = addr' % 4 := by omega
  rw [alignedWord, alignedWord, h4]

/-! ## The data-register window (20_memory.md R54) -/

theorem inRegWindow_offsetOf (addr : Nat) :
    inRegWindow (offsetOf addr) = true ↔ 0x100 ≤ addr % 4096 ∧ addr % 4096 < 0x200 := by
  rw [inRegWindow, beq_iff_eq, ← BitVec.toNat_inj, BitVec.extractLsb'_toNat, offsetOf_toNat,
    Nat.shiftRight_eq_div_pow, BitVec.toNat_ofNat]
  omega

theorem regOfOffset_offsetOf {addr : Nat} {n : Reg} {k : Fin 4} (h : addr % 4096 = 0x100 + 16 * n.val + 4 * k.val) :
    regOfOffset (offsetOf addr) = n := by
  have hn := Reg.val_lt n
  refine Fin.ext ?_
  rw [regOfOffset, BitVec.val_toFin, BitVec.extractLsb'_toNat, offsetOf_toNat, Nat.shiftRight_eq_div_pow]
  omega

theorem wordOfOffset_offsetOf {addr : Nat} {n : Reg} {k : Fin 4} (h : addr % 4096 = 0x100 + 16 * n.val + 4 * k.val) :
    wordOfOffset (offsetOf addr) = k := by
  refine Fin.ext ?_
  rw [wordOfOffset, BitVec.val_toFin, BitVec.extractLsb'_toNat, offsetOf_toNat, Nat.shiftRight_eq_div_pow]
  omega

/-- Word `k` of `Dn` lies in the window. -/
theorem inRegWindow_of_word {addr : Nat} {n : Reg} {k : Fin 4} (h : addr % 4096 = 0x100 + 16 * n.val + 4 * k.val) :
    inRegWindow (offsetOf addr) = true := by
  have hn := Reg.val_lt n
  exact (inRegWindow_offsetOf addr).2 (by omega)

/-! ## The words outside the window (20_memory.md R54) -/

/-- Word `k` as the number the claims read (20_memory.md R51). -/
theorem wordOf_toNat (x : Data) (k : Fin 4) : (wordOf x k).toNat = pattern x (32 * k.val) 32 := by
  rw [wordOf, BitVec.extractLsb'_toNat, Nat.shiftRight_eq_div_pow, pattern]

theorem State.csrWord_errval (s : State) :
    ∀ k : Fin 4, s.csrWord (offsetOf (0x020 + 4 * k.val)) = wordOf s.errval k
  | 0 | 1 | 2 | 3 => rfl

/-- Every offset from 0x030 up is reserved, or in the window that `csrWord` does not serve. -/
theorem State.csrWord_reserved (s : State) {addr : Nat} (h : 0x030 ≤ addr % 4096) : s.csrWord (offsetOf addr) = 0 := by
  have below : ∀ a : BitVec 12, a.toNat < 0x030 → offsetOf addr ≠ a := fun a ha e => by
    have := offsetOf_eq_iff.1 e
    omega
  have errval : (offsetOf addr).extractLsb' 4 8 ≠ 0x02 := fun e => by
    have : addr % 4096 / 2 ^ 4 % 2 ^ 8 = 2 := by
      rw [← offsetOf_toNat, ← Nat.shiftRight_eq_div_pow, ← BitVec.extractLsb'_toNat, e]
      rfl
    omega
  rw [State.csrWord, if_neg (below _ (by decide)), if_neg (below _ (by decide)), if_neg (below _ (by decide)),
    if_neg (below _ (by decide)), if_neg (below _ (by decide)), if_neg errval]

/-! ## The operation of an access (20_memory.md R52, R54) -/

theorem HostAccess.op_read_of_aligned {addr : Nat} (h : addr % 4 = 0) :
    (HostAccess.read addr 0xF).op = some (readOp (offsetOf addr)) :=
  if_pos (alignedWord_of_aligned h)

theorem HostAccess.op_read_congr {addr addr' : Nat} (h : addr % 4096 = addr' % 4096) (lanes : BitVec 4) :
    (HostAccess.read addr lanes).op = (HostAccess.read addr' lanes).op := by
  rw [op, op, alignedWord_congr h, offsetOf_congr h]

theorem HostAccess.op_write_congr {addr addr' : Nat} (h : addr % 4096 = addr' % 4096) (lanes : BitVec 4) (v : Word) :
    (HostAccess.write addr lanes v).op = (HostAccess.write addr' lanes v).op := by
  rw [op, op, alignedWord_congr h, offsetOf_congr h]

theorem alignedWord_eq_false {addr : Nat} {lanes : BitVec 4} (h : addr % 4 ≠ 0 ∨ lanes ≠ 0xF) :
    alignedWord addr lanes = false := by
  rw [alignedWord, Bool.and_eq_false_iff, beq_eq_false_iff_ne, beq_eq_false_iff_ne]
  exact h

theorem HostAccess.op_read_refused {addr : Nat} {lanes : BitVec 4} (h : addr % 4 ≠ 0 ∨ lanes ≠ 0xF) :
    (HostAccess.read addr lanes).op = none := by
  rw [op, alignedWord_eq_false h]
  rfl

theorem HostAccess.op_write_refused {addr : Nat} {lanes : BitVec 4} (h : addr % 4 ≠ 0 ∨ lanes ≠ 0xF) (v : Word) :
    (HostAccess.write addr lanes v).op = none := by
  rw [op, alignedWord_eq_false h]
  rfl

/-- A write to word `k` of `Dn`. -/
theorem HostAccess.op_write_word {addr : Nat} {n : Reg} {k : Fin 4} (h : addr % 4096 = 0x100 + 16 * n.val + 4 * k.val)
    (v : Word) : (HostAccess.write addr 0xF v).op = some (.regWrite n k v) := by
  rw [op_write_of_aligned (by omega), writeOp, if_pos (inRegWindow_of_word h), regOfOffset_offsetOf h,
    wordOfOffset_offsetOf h]

theorem HostAccess.op_write_sticky {addr : Nat} (h : addr % 4096 = 0x008) (v : Word) :
    (HostAccess.write addr 0xF v).op = some (.stickyClear v) := by
  rw [op_write_of_aligned (by omega), offsetOf_eq_iff (a := 0x008).2 h]
  rfl

theorem HostAccess.op_write_ignored {addr : Nat} (ha : addr % 4 = 0) (hcmd : addr % 4096 ≠ 0x000)
    (hsticky : addr % 4096 ≠ 0x008) (hout : addr % 4096 < 0x100 ∨ 0x200 ≤ addr % 4096) (v : Word) :
    (HostAccess.write addr 0xF v).op = some .ignoredWrite := by
  have hw : ¬ inRegWindow (offsetOf addr) = true := fun e => by
    have := (inRegWindow_offsetOf addr).1 e
    omega
  rw [op_write_of_aligned ha, writeOp, if_neg hw, if_neg (mt offsetOf_eq_iff.1 hcmd),
    if_neg (mt offsetOf_eq_iff.1 hsticky)]

theorem readOp_ne_cmd (a : BitVec 12) (w : Word) : readOp a ≠ .cmd w := by
  unfold readOp
  split <;> exact nofun

theorem offset_of_writeOp_cmd {a : BitVec 12} {v w : Word} (h : writeOp a v = .cmd w) : a = 0x000 := by
  by_contra h0
  rw [writeOp, if_neg h0] at h
  split at h
  · cases h
  · split at h <;> cases h

/-- Only a write to CMD stands for a command. -/
theorem HostAccess.op_ne_cmd {a : HostAccess} {op : HostOp}
    (ha : ∀ addr lanes v, a = .write addr lanes v → addr % 4096 ≠ 0) (h : a.op = some op) (w : Word) :
    op ≠ .cmd w := by
  rintro rfl
  cases a with
  | read addr lanes => exact readOp_ne_cmd _ w (Option.some.inj (Option.ite_none_right_eq_some.1 h).2)
  | write addr lanes v =>
    have hop : writeOp (offsetOf addr) v = .cmd w := Option.some.inj (Option.ite_none_right_eq_some.1 h).2
    exact ha addr lanes v rfl (offsetOf_eq_iff.1 (offset_of_writeOp_cmd hop))

end Sys2Proof.Machine
end

section
/-! PROOFS. The host accesses: what a step does that takes a read, a write or a refused access from the queue, and why
doing it twice is doing it once. -/

namespace Sys2Proof.Machine

/-! ## From the queue to the operation -/

theorem step_of_pending_access {s : State} {rest : List HostEvent} {a : HostAccess} {op : HostOp}
    (hp : s.pending = .access a :: rest) (ho : a.op = some op) : step s = hostOp op (s.setPending rest) :=
  (step_of_pending hp).trans (hostEvent_of_op ho _)

theorem hostEvent_of_op_none {a : HostAccess} (h : a.op = none) (s : State) :
    hostEvent (.access a) s = .fault .hostAccessRefused := by
  rw [hostEvent, h]

theorem hostEvent_congr {a b : HostAccess} (h : a.op = b.op) (s : State) :
    hostEvent (.access a) s = hostEvent (.access b) s := by
  rw [hostEvent, hostEvent, h]

/-- An access that goes on stands for an operation. -/
theorem op_of_hostEvent_next {a : HostAccess} {s t : State} (h : hostEvent (.access a) s = .next t) :
    ∃ op, a.op = some op ∧ hostOp op s = .next t := by
  cases ho : a.op with
  | none => rw [hostEvent_of_op_none ho] at h; cases h
  | some op => exact ⟨op, rfl, hostEvent_of_op ho s ▸ h⟩

/-! ## The address alone decides (20_memory.md R52, R53) -/

/-- Settles O12: such an access stands for no operation. -/
theorem misalignedOrNarrowAccessIsRefused : Obligations.MisalignedOrNarrowAccessIsRefused := by
  rintro s rest addr lanes v h (hp | hp)
  · exact (step_of_pending hp).trans (hostEvent_of_op_none (HostAccess.op_read_refused h) _)
  · exact (step_of_pending hp).trans (hostEvent_of_op_none (HostAccess.op_write_refused h v) _)

/-- Settles O13: the two accesses stand for the same operation. -/
theorem addressBitsAbove11AreNotDecoded : Obligations.AddressBitsAbove11AreNotDecoded := fun _ _ _ _ lanes v h =>
  ⟨hostEvent_congr (HostAccess.op_read_congr h lanes) _, hostEvent_congr (HostAccess.op_write_congr h lanes v) _⟩

/-! ## Reads (20_memory.md R54, R55, 60_exceptions.md R207) -/

/-- A read of a word of `Dn` answers it, and marks `Dn` if the word is undefined. -/
theorem hostOp_regRead (n : Reg) (k : Fin 4) (s : State) :
    hostOp (.regRead n k) s = .next { s with
      response := some (wordOf (s.reg n) k)
      uninit := if s.defined[n].getLsbD k.val = true then s.uninit else s.uninit.or (some n) } := by
  cases hd : s.defined[n].getLsbD k.val <;> simp only [hostOp, State.wordDefined, hd] <;> rfl

/-- Settles O9: in the window the word of a register and its mark, outside it the word of `csrWord` row by row. -/
theorem hostReadReturnsTheMappedWord : Obligations.HostReadReturnsTheMappedWord := by
  intro s rest addr ha hp
  have hstep := step_of_pending_access hp (HostAccess.op_read_of_aligned ha)
  have hwin := inRegWindow_offsetOf addr
  by_cases hw : inRegWindow (offsetOf addr) = true
  · rw [readOp, if_pos hw, hostOp_regRead] at hstep
    have hin := hwin.1 hw
    -- `hin` contradicts the offset of every row but that of the data registers.
    refine ⟨_, _, hstep, rfl, by omega, by omega, by omega, by omega, by omega, by omega, by omega, by omega, by omega,
      by omega, fun n k h => ?_, by omega⟩
    rw [regOfOffset_offsetOf h, wordOfOffset_offsetOf h]
    exact ⟨wordOf_toNat _ k, rfl⟩
  · rw [readOp, if_neg hw] at hstep
    have hout := mt hwin.2 hw
    have row : ∀ {a : BitVec 12}, addr % 4096 = a.toNat → s.csrWord (offsetOf addr) = s.csrWord a :=
      fun h => by rw [offsetOf_eq_iff.2 h]
    refine ⟨_, s.csrWord (offsetOf addr), hstep, rfl, fun h => row (a := 0x000) h, fun h => ?_, fun h => ?_,
      fun h => row (a := 0x00C) h, fun h => row (a := 0x010) h, fun h => row (a := 0x014) h, ?_, fun k h => ?_,
      fun h _ => s.csrWord_reserved h, fun h => s.csrWord_reserved (by omega), fun n k h => ?_, fun _ => rfl⟩
    · rw [row (a := 0x004) h]
      exact s.status_toNat
    · rw [row (a := 0x008) h]
      exact BitVec.toNat_setWidth_of_le (by decide : 16 ≤ 32)
    · rintro (h | h)
      · exact row (a := 0x018) h
      · exact row (a := 0x01C) h
    · rw [offsetOf_congr (addr' := 0x020 + 4 * k.val) (by omega), s.csrWord_errval]
      exact wordOf_toNat _ k
    · exact absurd (inRegWindow_of_word h) hw

/-! ## Writes (20_memory.md R54 to R56) -/

theorem State.setRegWord_defined_ne (s : State) {n m : Reg} (k : Fin 4) (x : Word) (h : m ≠ n) :
    (s.setRegWord n k x).defined[m] = s.defined[m] := by
  have h' : n.val ≠ m.val := fun e => h (Fin.ext e.symm)
  simp [Vector.getElem_set_ne, h']

/-- The host's write of a word sets that word's defined bit and keeps the others of its register (10_state.md R22). -/
theorem State.setRegWord_defined_self (s : State) (n : Reg) (k j : Fin 4) (x : Word) :
    (s.setRegWord n k x).defined[n].getLsbD j.val = (decide (j = k) || s.defined[n].getLsbD j.val) := by
  have bits : ∀ (b : BitVec 4) (k j : Fin 4),
      (b ||| 1#4 <<< k.val).getLsbD j.val = (decide (j = k) || b.getLsbD j.val) := by decide
  rw [State.setRegWord_defined, Fin.getElem_fin, Vector.getElem_set_self, bits]

theorem State.wordOf_setRegWord_reg (s : State) (n : Reg) (k j : Fin 4) (x : Word) :
    wordOf ((s.setRegWord n k x).reg n) j = if j = k then x else wordOf (s.reg n) j := by
  rw [State.setRegWord_reg, if_pos rfl, wordOf_setWordOf]

theorem State.setRegWord_reg_ne (s : State) {n m : Reg} (k : Fin 4) (x : Word) (h : m ≠ n) :
    (s.setRegWord n k x).reg m = s.reg m := by
  rw [State.setRegWord_reg, if_neg h]

/-- Settles O10: the step is the write of the word, read back word by word. -/
theorem hostWriteSetsOneRegisterWord : Obligations.HostWriteSetsOneRegisterWord := by
  intro s rest addr v n k ha hp
  let q := s.setPending rest
  refine ⟨_, step_of_pending_access hp (HostAccess.op_write_word ha v), ?_, ?_, fun j hj => ⟨?_, ?_⟩,
    fun m hm => ⟨q.setRegWord_reg_ne k v hm, q.setRegWord_defined_ne k v hm⟩, rfl⟩
  · exact (q.wordOf_setRegWord_reg n k k v).trans (if_pos rfl)
  · exact (q.setRegWord_defined_self n k k v).trans (by simp)
  · exact (q.wordOf_setRegWord_reg n k j v).trans (if_neg hj)
  · exact (q.setRegWord_defined_self n k j v).trans (by simp [hj, q])

theorem State.getLsbD_clearSticky (s : State) (v : Word) {b : Nat} (hb : b < 16) :
    (s.clearSticky v).sticky.getLsbD b = (s.sticky.getLsbD b && !v.getLsbD b) := by
  simp [hb]

/-- Settles O11: the one write clears, the other does nothing. -/
theorem hostWriteClearsStickyOrIsIgnored : Obligations.HostWriteClearsStickyOrIsIgnored := fun s rest _ v ha hp =>
  ⟨fun h => ⟨_, step_of_pending_access hp (HostAccess.op_write_sticky h v),
      fun _ hb => (s.setPending rest).getLsbD_clearSticky v hb, rfl⟩,
    fun hcmd hsticky hout => step_of_pending_access hp (HostAccess.op_write_ignored ha hcmd hsticky hout v)⟩

/-! ## Doing it again (20_memory.md R55) -/

theorem setWordOf_setWordOf (a : Data) (k : Fin 4) (x : Word) : setWordOf (setWordOf a k x) k x = setWordOf a k x :=
  eq_of_wordOf_eq fun j => by
    simp only [wordOf_setWordOf]
    split <;> rfl

theorem State.setRegWord_setRegWord (s : State) (n : Reg) (k : Fin 4) (x : Word) :
    (s.setRegWord n k x).setRegWord n k x = s.setRegWord n k x := by
  simp [State.setRegWord, setWordOf_setWordOf, BitVec.or_assoc]

theorem State.clearSticky_clearSticky (s : State) (v : Word) : (s.clearSticky v).clearSticky v = s.clearSticky v := by
  simp [State.clearSticky, BitVec.and_assoc]

/-- An operation that is no command keeps the queue. -/
theorem pending_of_hostOp {op : HostOp} (hop : ∀ w, op ≠ .cmd w) {s t : State} (h : hostOp op s = .next t) :
    t.pending = s.pending := by
  cases op with
  | cmd w => exact absurd rfl (hop w)
  | regRead n k => rw [hostOp_regRead] at h; cases h; rfl
  | regWrite | csrRead | stickyClear | ignoredWrite => cases h; rfl

/-- An operation that is no command changes nothing where it has just been done, whatever waits by then. -/
theorem hostOp_again {op : HostOp} (hop : ∀ w, op ≠ .cmd w) {s t : State} (h : hostOp op s = .next t)
    (q : List HostEvent) : hostOp op (t.setPending q) = .next (t.setPending q) := by
  cases op with
  | cmd w => exact absurd rfl (hop w)
  | regWrite n k v =>
    cases h
    exact congrArg (fun u => Host.Outcome.next ((u.setPending q).respond none)) (s.setRegWord_setRegWord n k v)
  | regRead n k =>
    rw [hostOp_regRead] at h ⊢
    cases h
    cases hd : s.defined[n].getLsbD k.val with
    | true => simp only [State.setPending, State.reg, hd, if_true]
    | false => simp only [State.setPending, State.reg, hd, Bool.false_eq_true, if_false, Option.or_assoc, Option.or_self]
  | stickyClear v =>
    cases h
    exact congrArg (fun u => Host.Outcome.next ((u.setPending q).respond none)) (s.clearSticky_clearSticky v)
  | csrRead | ignoredWrite => cases h; rfl

/-- Settles O14: the access stands for an operation that is no command, and the queue still holds it once. -/
theorem repeatedAccessChangesNothing : Obligations.RepeatedAccessChangesNothing := by
  intro s t rest a ha hp hs
  rw [step_of_pending hp] at hs
  obtain ⟨op, ho, hop⟩ := op_of_hostEvent_next hs
  have hcmd := HostAccess.op_ne_cmd ha ho
  exact (step_of_pending_access (pending_of_hostOp hcmd hop) ho).trans (hostOp_again hcmd hop rest)

end Sys2Proof.Machine
end

section
/-! PROOFS. What the decoder answers: every well-formed command from its own word, and ILLEGAL for a word without a
row. -/

namespace Sys2Proof

open Sys2Proof.Machine Sys2Proof.Safety

/-! ## The words of commands (30_encoding.md R74, R78, R79) -/

/-- The per-command lemmas of `EncodeMeetsRow` as one statement. -/
theorem encode_meets_row (i : Instr) : Laws.EncodeMeetsRow.Statement i := by
  cases i with
  | mov => exact Laws.EncodeMeetsRow.mov ..
  | li => exact Laws.EncodeMeetsRow.li ..
  | lic => exact Laws.EncodeMeetsRow.lic ..
  | mask => exact Laws.EncodeMeetsRow.mask ..
  | rmask => exact Laws.EncodeMeetsRow.rmask ..
  | extr => exact Laws.EncodeMeetsRow.extr ..
  | ins => exact Laws.EncodeMeetsRow.ins ..
  | sext => exact Laws.EncodeMeetsRow.sext ..
  | wnorm => exact Laws.EncodeMeetsRow.wnorm ..
  | wcmp => exact Laws.EncodeMeetsRow.wcmp ..
  | cnew => exact Laws.EncodeMeetsRow.cnew ..
  | cload => exact Laws.EncodeMeetsRow.cload ..
  | fget => exact Laws.EncodeMeetsRow.fget ..
  | fset => exact Laws.EncodeMeetsRow.fset ..
  | edec => exact Laws.EncodeMeetsRow.edec ..
  | eenc => exact Laws.EncodeMeetsRow.eenc ..
  | sbegin => exact Laws.EncodeMeetsRow.sbegin
  | scont => exact Laws.EncodeMeetsRow.scont ..
  | sfield => exact Laws.EncodeMeetsRow.sfield ..
  | senum => exact Laws.EncodeMeetsRow.senum ..
  | svar => exact Laws.EncodeMeetsRow.svar ..
  | scommit => exact Laws.EncodeMeetsRow.scommit
  | rdcsr => exact Laws.EncodeMeetsRow.rdcsr ..
  | clrs => exact Laws.EncodeMeetsRow.clrs

/-- The word of a command is read by the row of the command's opcode. -/
theorem decode_encode_eq_operands {i : Instr} {r : Row}
    (hr : opcodeRows.find? (fun r => r.op == i.opcode) = some r) : decode (encode i) = r.operands (encode i) := by
  obtain ⟨hop, r', hr', hm⟩ := encode_meets_row i
  obtain rfl : r' = r := Option.some.inj (hr'.symm.trans hr)
  rw [decode_of_row (by rw [hop, hr]), if_pos hm]

/-! ### The operands of a packed word (R69 to R71) -/

theorem widthOf_packR {w : Nat} (h : widthOk w = true) (op : BitVec 6) (rd rs1 rs2 : Reg) (b : BitVec 7) :
    widthOf (packR op rd rs1 rs2 (widthField w) b) = w := by
  rw [widthOf, aOf_packR, widthField_toFin h]

/-- The low bits of a bit field. -/
theorem extractLsb'_low (w : Word) (k : Nat) {n m : Nat} (h : n ≤ m) :
    (w.extractLsb' k m).extractLsb' 0 n = w.extractLsb' k n := by
  apply BitVec.eq_of_getLsbD_eq
  intro i hi
  simp [hi, show i < m by omega]

@[simp] theorem fidOf_packR (op : BitVec 6) (rd rs1 rs2 : Reg) (f : FieldId) (b : BitVec 7) :
    fidOf (packR op rd rs1 rs2 (fidField f) b) = f := by
  rw [fidOf, ← extractLsb'_low (m := 7) _ _ (by decide), extract_a, fidField_low]

@[simp] theorem eidOf_packR (op : BitVec 6) (rd rs1 rs2 : Reg) (a : BitVec 7) (e : EnumId) :
    eidOf (packR op rd rs1 rs2 a (eidField e)) = e := by
  rw [eidOf, ← extractLsb'_low (m := 7) _ _ (by decide), extract_b, eidField_low]

@[simp] theorem eidOf_packR_enumField (op : BitVec 6) (rd rs1 rs2 : Reg) (a : BitVec 7) (e : EnumId) (exh : Bool) :
    eidOf (packR op rd rs1 rs2 a (enumField e exh)) = e := by
  rw [eidOf, ← extractLsb'_low (m := 7) _ _ (by decide), extract_b]
  revert e exh
  decide

theorem getLsbD_packR {i : Nat} (h : i < 7) (op : BitVec 6) (rd rs1 rs2 : Reg) (a b : BitVec 7) :
    (packR op rd rs1 rs2 a b).getLsbD i = b.getLsbD i := by
  have hb := congrArg (·.getLsbD i) (extract_b op rd rs1 rs2 a b)
  simpa [h] using hb

@[simp] theorem exhOf_packR (op : BitVec 6) (rd rs1 rs2 : Reg) (a : BitVec 7) (e : EnumId) (exh : Bool) :
    exhOf (packR op rd rs1 rs2 a (enumField e exh)) = exh := by
  rw [exhOf, getLsbD_packR (by decide)]
  revert e exh
  decide

@[simp] theorem signOf_packR (op : BitVec 6) (rd rs1 rs2 : Reg) (a : BitVec 7) (sg : Sign) :
    signOf (packR op rd rs1 rs2 a (signField sg)) = sg := by
  rw [signOf, getLsbD_packR (by decide)]
  cases sg <;> rfl

/-- An ordered range is read back from its two fields (R70, R79). -/
theorem ranged_packR {lo hi : Fin 128} (h : rangeOk lo hi = true) (op : BitVec 6) (rd rs1 rs2 : Reg)
    (mk : Fin 128 → Fin 128 → Instr) :
    ranged (packR op rd rs1 rs2 (posField lo) (posField hi)) mk = .ok (mk lo hi) := by
  rw [rangeOk, decide_eq_true_eq] at h
  rw [ranged, aOf_packR, bOf_packR, posField_toFin, posField_toFin, if_pos h]

/-- A CSR is read back from its number (R79). -/
theorem rdcsrOperands_packR (op : BitVec 6) (rd rs1 rs2 : Reg) (c : Csr) (b : BitVec 7) :
    rdcsrOperands (packR op rd rs1 rs2 c.number b) = .ok (.rdcsr rd c) := by
  rw [rdcsrOperands, aOf_packR, BitVec.val_toFin, csrOfNat_number, rdOf_packR]

/-- Every well-formed command is decoded from its own word: its row reads each packed field back. -/
theorem decode_encode {i : Instr} (h : i.wf = true) : decode (encode i) = .ok i := by
  cases i with
  | rmask | extr | ins =>
    rw [decode_encode_eq_operands rfl]
    simp [encode, ranged_packR h]
  | mask | sext | wnorm | wcmp | scont | senum =>
    rw [decode_encode_eq_operands rfl]
    simp [encode, widthOf_packR h]
  | rdcsr rd c => exact (decode_encode_eq_operands rfl).trans (rdcsrOperands_packR ..)
  | sbegin | scommit | clrs => rw [decode_encode_eq_operands rfl]
  | mov | li | lic | cnew | cload | fget | fset | edec | eenc | sfield | svar =>
    rw [decode_encode_eq_operands rfl]
    simp [encode]

/-- Settles O3, word by word. -/
theorem exampleWordsDecode : Obligations.ExampleWordsDecode := by
  refine ⟨?_, ?_, ?_, ?_, ?_, ?_, ?_, ?_, ?_, ?_, ?_⟩ <;> decide

/-! ## Words without a row (R75) -/

/-- The opcodes that have a row are those of R73. -/
theorem opcode_of_row : ∀ op : BitVec 6, (opcodeRows.find? (fun r => r.op == op)).isSome = true →
    (0x01 ≤ op.toNat ∧ op.toNat ≤ 0x0A) ∨ (0x10 ≤ op.toNat ∧ op.toNat ≤ 0x15) ∨
      (0x20 ≤ op.toNat ∧ op.toNat ≤ 0x25) ∨ op.toNat = 0x28 ∨ op.toNat = 0x29 := by
  decide

theorem opcode_of_decode {w : Word} {i : Instr} (h : decode w = .ok i) :
    (0x01 ≤ field w 26 6 ∧ field w 26 6 ≤ 0x0A) ∨ (0x10 ≤ field w 26 6 ∧ field w 26 6 ≤ 0x15) ∨
      (0x20 ≤ field w 26 6 ∧ field w 26 6 ≤ 0x25) ∨ field w 26 6 = 0x28 ∨ field w 26 6 = 0x29 := by
  obtain ⟨r, hr, -, -⟩ := row_of_decode h
  rw [← opOf_toNat]
  exact opcode_of_row _ (by rw [hr]; rfl)

/-- A word that does not decode ends with ILLEGAL and reads no register (R79, 60_exceptions.md R193, R194, R207). -/
theorem runCommand_failedWith_illegal {w : Word} (h : ∀ i, decode w ≠ .ok i) (s : State) :
    ∃ t, runCommand w s = .next t ∧ FailedWith s t .illegal w.toNat [] :=
  ⟨_, runCommand_of_undecodable h s,
    failedWith s [] ⟨.illegal, w.setWidth 128⟩ (BitVec.toNat_setWidth_of_le (by decide : 32 ≤ 128))⟩

/-- Settles O4: no row has such an opcode, and the two stuck words have opcodes 0x00 and 0x3F. -/
theorem reservedOpcodeIsIllegal : Obligations.ReservedOpcodeIsIllegal := by
  intro w s h
  have zeros : field 0x00000000 26 6 = 0x00 := by decide
  have ones : field 0xFFFFFFFF 26 6 = 0x3F := by decide
  refine runCommand_failedWith_illegal (fun i hi => ?_) s
  have hop := opcode_of_decode hi
  rcases h with h | h | h | h | h | h | rfl | rfl <;> omega

end Sys2Proof
end

section
/-! PROOFS. The assembler: every operand it reads is in range, so every command it gives is well formed and decodes. -/

namespace Sys2Proof.Machine

/-! ## Operands (30_encoding.md R81, R83) -/

theorem widthOk_of_widthOperand {cs : List Char} {w : Nat} (h : widthOperand cs = some w) : widthOk w = true := by
  unfold widthOperand at h
  split at h
  · obtain ⟨hw, he⟩ := Option.ite_none_right_eq_some.1 h
    exact Option.some.inj he ▸ hw
  · cases h

theorem rangeOk_of_rangeOperand {lo hi : List Char} {r : Fin 128 × Fin 128} (h : rangeOperand lo hi = some r) :
    rangeOk r.1 r.2 = true := by
  unfold rangeOperand at h
  split at h
  · obtain ⟨hr, he⟩ := Option.ite_none_right_eq_some.1 h
    exact Option.some.inj he ▸ hr
  · cases h

/-! ## Commands (R82) -/

theorem wf_of_assembleMoveOrRange {m : List Char} {ops : List (List Char)} {i : Instr}
    (h : assembleMoveOrRange m ops = some i) : i.wf = true := by
  unfold assembleMoveOrRange at h
  split at h <;>
    simp only [Option.bind_eq_bind, Option.bind_eq_some_iff, Option.pure_def, Option.some.injEq, reduceCtorEq] at h
  · obtain ⟨_, _, _, _, rfl⟩ := h
    rfl
  · obtain ⟨_, _, _, _, _, _, rfl⟩ := h
    rfl
  · obtain ⟨_, _, _, _, _, _, rfl⟩ := h
    rfl
  · obtain ⟨_, _, _, hw, rfl⟩ := h
    exact widthOk_of_widthOperand hw
  · obtain ⟨_, hr, _, _, rfl⟩ := h
    exact rangeOk_of_rangeOperand hr
  · obtain ⟨_, hr, _, _, _, _, rfl⟩ := h
    exact rangeOk_of_rangeOperand hr
  · obtain ⟨_, hr, _, _, _, _, _, _, rfl⟩ := h
    exact rangeOk_of_rangeOperand hr
  · obtain ⟨_, _, _, _, _, hw, rfl⟩ := h
    exact widthOk_of_widthOperand hw

theorem wf_of_assembleAccessor {m : List Char} {ops : List (List Char)} {i : Instr}
    (h : assembleAccessor m ops = some i) : i.wf = true := by
  unfold assembleAccessor at h
  split at h <;>
    simp only [Option.bind_eq_bind, Option.bind_eq_some_iff, Option.pure_def, Option.some.injEq, reduceCtorEq] at h
  · obtain ⟨_, _, _, _, _, hw, _, _, rfl⟩ := h
    exact widthOk_of_widthOperand hw
  · obtain ⟨_, _, _, _, _, _, _, hw, _, _, rfl⟩ := h
    exact widthOk_of_widthOperand hw
  · obtain ⟨_, _, rfl⟩ := h
    rfl
  · obtain ⟨_, _, _, _, rfl⟩ := h
    rfl
  · obtain ⟨_, _, _, _, _, _, _, _, rfl⟩ := h
    rfl
  · obtain ⟨_, _, _, _, _, _, _, _, _, _, rfl⟩ := h
    rfl
  · obtain ⟨_, _, _, _, _, _, rfl⟩ := h
    rfl
  · obtain ⟨_, _, _, _, _, _, rfl⟩ := h
    rfl

theorem wf_of_assembleSchemaOrSystem {m : List Char} {ops : List (List Char)} {i : Instr}
    (h : assembleSchemaOrSystem m ops = some i) : i.wf = true := by
  unfold assembleSchemaOrSystem at h
  split at h <;>
    simp only [Option.bind_eq_bind, Option.bind_eq_some_iff, Option.pure_def, Option.some.injEq, reduceCtorEq] at h
  · subst h
    rfl
  · obtain ⟨_, _, _, hw, rfl⟩ := h
    exact widthOk_of_widthOperand hw
  · obtain ⟨_, _, _, _, rfl⟩ := h
    rfl
  · obtain ⟨_, _, _, hw, _, _, rfl⟩ := h
    exact widthOk_of_widthOperand hw
  · obtain ⟨_, _, _, _, rfl⟩ := h
    rfl
  · subst h
    rfl
  · obtain ⟨_, _, _, _, rfl⟩ := h
    rfl
  · subst h
    rfl

/-! ## Lines (R81, R84) -/

theorem wf_of_mem_loadChunks {n : Nat} {rd : Reg} {imm : BitVec n} {ks : List (Fin 8)} {i : Instr}
    (h : i ∈ loadChunks rd imm ks) : i.wf = true := by
  rcases List.mem_cons.1 h with rfl | h
  · rfl
  · obtain ⟨k, -, rfl⟩ := List.mem_map.1 h
    rfl

theorem wf_of_mem_expand {p : Pseudo} {i : Instr} (h : i ∈ p.expand) : i.wf = true := by
  cases p with
  | craw | clr => rw [List.mem_singleton.1 h]; rfl
  | li32 | li64 | li128 | ldesc => exact wf_of_mem_loadChunks h

theorem wf_of_assembleParts {m : List Char} {ops : List (List Char)} {is : List Instr}
    (h : assembleParts m ops = some is) : ∀ i ∈ is, i.wf = true := by
  unfold assembleParts at h
  split at h
  · next i hi =>
    cases h
    simp only [List.mem_singleton, forall_eq]
    rcases Option.or_eq_some_iff.1 hi with hi | ⟨-, hi⟩
    · rcases Option.or_eq_some_iff.1 hi with hi | ⟨-, hi⟩
      · exact wf_of_assembleMoveOrRange hi
      · exact wf_of_assembleAccessor hi
    · exact wf_of_assembleSchemaOrSystem hi
  · obtain ⟨p, -, rfl⟩ := Option.map_eq_some_iff.1 h
    exact fun i hi => wf_of_mem_expand hi

/-- Every command the assembler gives for a line can be encoded. -/
theorem wf_of_assembleInstrs {line : List Char} {is : List Instr} (h : assembleInstrs line = some is) :
    ∀ i ∈ is, i.wf = true := by
  simp only [assembleInstrs] at h
  split at h
  · cases h
    exact List.forall_mem_nil _
  · exact wf_of_assembleParts h

/-- Settles O58: a word of a line is the encoding of a well-formed command, which decodes back. -/
theorem assemblerEmitsOnlyLegalWords : Obligations.AssemblerEmitsOnlyLegalWords := by
  intro line ws h w hw
  obtain ⟨is, his, rfl⟩ := Option.map_eq_some_iff.1 h
  obtain ⟨i, hi, rfl⟩ := List.mem_map.1 hw
  exact ⟨i, decode_encode (wf_of_assembleInstrs his i hi)⟩

end Sys2Proof.Machine
end

section
/-! PROOFS. The pseudo-instructions: what a list of commands leaves in `rd`, the chunks of a constant loaded one by one,
and the descriptor LDESC packs as a number. -/

namespace Sys2Proof.Machine

open Sys2Proof.Safety

/-! ## What a list of commands leaves in one register -/

/-- The commands complete with OK, leave `v` in `D[rd]` and every other register as it was. -/
def Leaves (is : List Instr) (s : State) (rd : Reg) (v : Data) : Prop :=
  ∃ t, execAll is s = .next t ∧ t.code = .ok ∧ t.reg rd = v ∧ ∀ r, r ≠ rd → t.reg r = s.reg r

theorem leaves_nil {s : State} (h : s.code = .ok) (rd : Reg) : Leaves [] s rd (s.reg rd) :=
  ⟨s, rfl, h, rfl, fun _ _ => rfl⟩

/-- A command that ends by writing `D[rd]`, and then the rest. -/
theorem leaves_cons {i : Instr} {is : List Instr} {s : State} {ns : List Reg} {rd : Reg} {u v : Data}
    (hi : exec i s = finishWith rd u (s.noteReads ns))
    (his : ∀ t : State, t.code = .ok → t.reg rd = u → Leaves is t rd v) : Leaves (i :: is) s rd v := by
  obtain ⟨t, ht, hc, hv, hr⟩ := his ((s.noteReads ns).setReg rd u).done rfl (reg_setReg_done ..)
  refine ⟨t, by rw [execAll, hi]; exact ht, hc, hv, fun r hne => ?_⟩
  rw [hr r hne, State.done_reg, State.setReg_reg_ne _ _ hne, State.noteReads_reg]

/-- One command that ends by writing `D[rd]`. -/
theorem leaves_singleton {i : Instr} {s : State} {ns : List Reg} {rd : Reg} {v : Data}
    (hi : exec i s = finishWith rd v (s.noteReads ns)) : Leaves [i] s rd v :=
  leaves_cons hi fun _ hc hv => hv ▸ leaves_nil hc rd

/-! ## Constants chunk by chunk (30_encoding.md R84, 46_move_system.md R181, R182) -/

/-- A value with the chunks `ks` of a constant put in their places. -/
def withChunks {n : Nat} (imm : BitVec n) : List (Fin 8) → Data → Data
  | [], v => v
  | k :: ks, v =>
    withChunks imm ks (insert v (16 * k.val) (16 * k.val + 15) ((chunk imm k).setWidth Config.dw))

theorem getLsbD_chunk {n : Nat} (imm : BitVec n) (k : Fin 8) {j : Nat} (h : j < 16) :
    (chunk imm k).getLsbD j = imm.getLsbD (16 * k.val + j) := by
  simp [chunk, h]

/-- One chunk of the constant put in its place. -/
theorem getLsbD_insert_chunk {n : Nat} (imm : BitVec n) (v : Data) (k : Fin 8) {j : Nat} (hj : j < 128) :
    (insert v (16 * k.val) (16 * k.val + 15) ((chunk imm k).setWidth Config.dw)).getLsbD j =
      if j / 16 = k.val then imm.getLsbD j else v.getLsbD j := by
  have hk : 16 * k.val ≤ j ∧ j ≤ 16 * k.val + 15 ↔ j / 16 = k.val := by omega
  rw [getLsbD_insert _ _ (by omega) hj]
  simp only [hk]
  split
  · next h =>
    rw [BitVec.getLsbD_setWidth, getLsbD_chunk _ _ (by omega), show 16 * k.val + (j - 16 * k.val) = j by omega]
    simp; omega
  · rfl

/-- A bit in one of the chunks put in place is the constant's; the others are kept. -/
theorem getLsbD_withChunks {n : Nat} (imm : BitVec n) (ks : List (Fin 8)) (v : Data) {j : Nat} (hj : j < 128) :
    (withChunks imm ks v).getLsbD j = if ∃ k ∈ ks, j / 16 = k.val then imm.getLsbD j else v.getLsbD j := by
  induction ks generalizing v with
  | nil => simp [withChunks]
  | cons k ks ih =>
    rw [withChunks, ih, getLsbD_insert_chunk _ _ _ hj]
    by_cases h : j / 16 = k.val <;> simp [h]

/-- LIC of each of the chunks puts them in place. -/
theorem leaves_map_lic {n : Nat} (rd : Reg) (imm : BitVec n) (ks : List (Fin 8)) (s : State) (hc : s.code = .ok) :
    Leaves (ks.map fun k => .lic rd k (chunk imm k)) s rd (withChunks imm ks (s.reg rd)) := by
  induction ks generalizing s with
  | nil => exact leaves_nil hc rd
  | cons k ks ih => exact leaves_cons (ns := [rd]) rfl fun _ ht hv => by rw [withChunks, ← hv]; exact ih _ ht

/-- LI of chunk 0 clears the register and puts the chunk in its place (46_move_system.md R181). -/
theorem withChunks_zero_cons {n : Nat} (imm : BitVec n) (ks : List (Fin 8)) :
    withChunks imm (0 :: ks) 0 = withChunks imm ks ((chunk imm 0).setWidth Config.dw <<< (16 * (0 : Fin 8).val)) := by
  rw [withChunks]
  congr 1
  apply BitVec.eq_of_getLsbD_eq
  intro j hj
  rw [getLsbD_insert _ _ (by omega) hj]
  split
  · simp
  · next h =>
    have h16 : 16 ≤ j := by simpa [Nat.lt_iff_add_one_le] using h
    simp [BitVec.getLsbD_of_ge _ _ h16]

/-- The chunks of a constant, all of them put in place, are the constant zero-extended. -/
theorem withChunks_zero {n : Nat} (imm : BitVec n) {ks : List (Fin 8)} (h : ∀ k : Fin 8, k ∈ ks ∨ n ≤ 16 * k.val) :
    withChunks imm ks 0 = imm.setWidth 128 := by
  apply BitVec.eq_of_getLsbD_eq
  intro j hj
  have hj : j < 128 := hj
  rw [getLsbD_withChunks _ _ _ hj, BitVec.getLsbD_setWidth]
  split
  · simp [hj]
  · next hk =>
    rcases h ⟨j / 16, by omega⟩ with h | h
    · exact absurd ⟨_, h, rfl⟩ hk
    · have hn : n ≤ j := h.trans (Nat.mul_div_le j 16)
      simp [BitVec.getLsbD_of_ge _ _ hn]

/-- LI of chunk 0 and LIC of the others load the constant (R84). -/
theorem leaves_loadChunks {n : Nat} (rd : Reg) (imm : BitVec n) {ks : List (Fin 8)} (s : State)
    (h : ∀ k : Fin 8, k ∈ 0 :: ks ∨ n ≤ 16 * k.val) : Leaves (loadChunks rd imm ks) s rd (imm.setWidth 128) := by
  refine leaves_cons (ns := []) rfl fun t hc hv => ?_
  rw [← withChunks_zero imm h, withChunks_zero_cons, ← hv]
  exact leaves_map_lic rd imm ks t hc

/-- CLR and CRAW are one command each; the others load a constant. -/
theorem leaves_expand (s : State) (rd : Reg) (p : Pseudo) (v : Data)
    (h : (p = .clr rd ∧ v = 0) ∨ (∃ x, p = .li32 rd x ∧ v = x.setWidth 128) ∨
      (∃ x, p = .li64 rd x ∧ v = x.setWidth 128) ∨ p = .li128 rd v ∨ (∃ x, p = .ldesc rd x ∧ v = x.setWidth 128) ∨
      (∃ r, p = .craw rd r ∧ v = s.reg r)) : Leaves p.expand s rd v := by
  rcases h with ⟨rfl, rfl⟩ | ⟨x, rfl, rfl⟩ | ⟨x, rfl, rfl⟩ | rfl | ⟨x, rfl, rfl⟩ | ⟨r, rfl, rfl⟩
  · exact leaves_singleton (ns := []) rfl
  · exact leaves_loadChunks rd x s (by decide)
  · exact leaves_loadChunks rd x s (by decide)
  · have hl : Leaves (Pseudo.li128 rd v).expand s rd (v.setWidth 128) := leaves_loadChunks rd v s (by decide)
    rwa [BitVec.setWidth_eq] at hl
  · exact leaves_loadChunks rd x s (by decide)
  · exact leaves_singleton (ns := [r]) rfl

/-! ## The packed descriptor (10_state.md R35) -/

theorem toNat_append_eq_add {n m : Nat} (x : BitVec n) (y : BitVec m) :
    (x ++ y).toNat = 2 ^ m * x.toNat + y.toNat := by
  rw [BitVec.toNat_append, ← Nat.shiftLeft_add_eq_or_of_lt y.isLt, Nat.shiftLeft_eq, Nat.mul_comm]

/-- The packed descriptor as a number: each field at its place. -/
theorem toNat_packFdesc (lo hi : Fin 128) (mode : BitVec 2) (kind : BitVec 3) (eid : EnumId) (rep : Bool)
    (count stride kw : BitVec 8) :
    (packFdesc lo hi mode kind eid rep count stride kw).toNat =
      lo.val + 2 ^ 8 * hi.val + 2 ^ 16 * mode.toNat + 2 ^ 20 * kind.toNat + 2 ^ 24 * eid.val + 2 ^ 28 * rep.toNat +
        2 ^ 32 * count.toNat + 2 ^ 40 * stride.toNat + 2 ^ 48 * kw.toNat := by
  simp only [packFdesc, toNat_append_eq_add, BitVec.toNat_ofNat, BitVec.toNat_ofFin, BitVec.toNat_ofBool]
  omega

theorem toNat_extractLsb'_packed (d : BitVec 64) (k n : Nat) :
    ((d.setWidth 128).extractLsb' k n).toNat = d.toNat / 2 ^ k % 2 ^ n := by
  rw [BitVec.extractLsb'_toNat, Nat.shiftRight_eq_div_pow, BitVec.toNat_setWidth_of_le (by decide)]

/-- Each field of the packed descriptor is read back, and its reserved bits are 0. -/
theorem fdesc_packFdesc (lo hi : Fin 128) (mode : BitVec 2) (kind : BitVec 3) (eid : EnumId) (rep : Bool)
    (count stride kw : BitVec 8) :
    let d : Data := (packFdesc lo hi mode kind eid rep count stride kw).setWidth 128
    Fdesc.lo d = lo.val ∧ Fdesc.hi d = hi.val ∧ Fdesc.mode d = mode ∧ Fdesc.kindBits d = kind ∧ Fdesc.eid d = eid ∧
      Fdesc.rep d = rep ∧ Fdesc.count d = count.toNat ∧ Fdesc.strideBits d = stride.toNat ∧ Fdesc.kw d = kw.toNat ∧
      ∀ b ∈ reservedBits, d.getLsbD b = false := by
  intro d
  have hN := toNat_packFdesc lo hi mode kind eid rep count stride kw
  have field : ∀ k n, (d.extractLsb' k n).toNat = _ := toNat_extractLsb'_packed _
  have hlo := lo.isLt
  have hhi := hi.isLt
  have hmode := mode.isLt
  have hkind := kind.isLt
  have heid := EnumId.val_lt eid
  have hrep := rep.toNat_lt
  have hcount := count.isLt
  have hstride := stride.isLt
  have hkw := kw.isLt
  refine ⟨?_, ?_, ?_, ?_, ?_, ?_, ?_, ?_, ?_, ?_⟩
  · rw [Fdesc.lo, field]; omega
  · rw [Fdesc.hi, field]; omega
  · rw [Fdesc.mode, ← BitVec.toNat_inj, field]; omega
  · rw [Fdesc.kindBits, ← BitVec.toNat_inj, field]; omega
  · refine Fin.ext ?_
    rw [Fdesc.eid, BitVec.val_toFin, field]; omega
  · have hbit : d.toNat / 2 ^ 28 % 2 = rep.toNat := by
      rw [BitVec.toNat_setWidth_of_le (by decide)]
      omega
    rw [Fdesc.rep, BitVec.getLsbD, Nat.testBit_eq_decide_div_mod_eq, hbit]
    cases rep <;> rfl
  · rw [Fdesc.count, field]; omega
  · rw [Fdesc.strideBits, field]; omega
  · rw [Fdesc.kw, field]; omega
  · have clear : ¬ Fdesc.reservedSet d = true := by
      simp only [Fdesc.reservedSet, Bool.or_eq_true, bne_iff_ne, ne_eq, ← BitVec.toNat_inj, field, BitVec.ofNat_eq_ofNat,
        BitVec.toNat_ofNat]
      omega
    exact fun b hb => by simpa using fun hs => clear ((Fdesc.reservedSet_iff d).2 ⟨b, hb, hs⟩)

/-- Settles O59: the expansions load their constants, and the descriptor holds its fields. -/
theorem pseudoInstructionsHaveTheirMeaning : Obligations.PseudoInstructionsHaveTheirMeaning :=
  ⟨leaves_expand, fdesc_packFdesc⟩

end Sys2Proof.Machine
end

section
/-! PROOFS. Bit-range arithmetic: the laws of `extract`, `insert` and `sign_extend`, each from the bits of the
primitives, and what the five commands compute with them. -/

namespace Sys2Proof.Machine

open Sys2Proof.Safety

/-! ## How a command that writes one register ends (60_exceptions.md R192, R196) -/

/-- A command whose meaning is to note its sources and write `D[rd]` completes with OK and changes nothing else. -/
theorem wroteReg_of_exec (i : Instr) (s : State) (ns : List Reg) {rd : Reg} {v : Data}
    (h : exec i s = finishWith rd v (s.noteReads ns)) :
    ∃ t, exec i s = .next t ∧ WroteReg s t rd ns ∧ t.reg rd = v :=
  ⟨_, h, wroteReg s ns rd v, reg_setReg_done ..⟩

/-! ## The bits of a range (00_scope.md R15, R16) -/

theorem getLsbD_mask_shiftLeft {lo hi j : Nat} (h : lo ≤ hi) (hj : j < 128) :
    (mask (hi - lo + 1) <<< lo).getLsbD j = decide (lo ≤ j ∧ j ≤ hi) := by
  rw [BitVec.getLsbD_shiftLeft, getLsbD_mask, Bool.eq_iff_iff]
  simp only [Config.dw_eq, Bool.and_eq_true, Bool.not_eq_true', decide_eq_true_eq, decide_eq_false_iff_not]
  omega

theorem getLsbD_insert_inside (c v : Data) {lo hi j : Nat} (h : lo ≤ j ∧ j ≤ hi) (hj : j < 128) :
    (insert c lo hi v).getLsbD j = v.getLsbD (j - lo) :=
  (getLsbD_insert c v (h.1.trans h.2) hj).trans (if_pos h)

theorem getLsbD_insert_outside (c v : Data) {lo hi j : Nat} (h : lo ≤ hi) (hj : j < 128) (ho : ¬(lo ≤ j ∧ j ≤ hi)) :
    (insert c lo hi v).getLsbD j = c.getLsbD j :=
  (getLsbD_insert c v h hj).trans (if_neg ho)

/-- Truncating the extracted bits to the width of their range gives the range itself. -/
theorem setWidth_extract (c : Data) {lo hi : Nat} (hhi : hi < 128) :
    (extract c lo hi).setWidth (hi - lo + 1) = c.extractLsb' lo (hi - lo + 1) := by
  apply BitVec.eq_of_getLsbD_eq
  intro j hj
  have hj' : j < 128 := by omega
  rw [BitVec.getLsbD_setWidth, BitVec.getLsbD_extractLsb', getLsbD_extract]
  simp [hj, hj']

/-! ## The seven laws (40_bitrange.md R95) -/

section
variable (r v u : Data) {lo hi : Nat}

theorem extract_insert (h : lo ≤ hi) (hhi : hi < 128) :
    extract (insert r lo hi v) lo hi = v &&& mask (hi - lo + 1) := by
  apply BitVec.eq_of_getLsbD_eq
  intro j hj
  rw [getLsbD_extract, BitVec.getLsbD_and, getLsbD_mask]
  by_cases hw : j < hi - lo + 1
  · rw [getLsbD_insert_inside _ _ (by omega) (by omega), Nat.add_sub_cancel_left, Bool.and_comm]
  · simp [hw]

theorem insert_extract (h : lo ≤ hi) : insert r lo hi (extract r lo hi) = r := by
  apply BitVec.eq_of_getLsbD_eq
  intro j hj
  have hj : j < 128 := hj
  by_cases hr : lo ≤ j ∧ j ≤ hi
  · rw [getLsbD_insert_inside _ _ hr hj, getLsbD_extract, Nat.add_sub_cancel' hr.1]
    simp [show j - lo < 128 by omega, show j - lo < hi - lo + 1 by omega]
  · rw [getLsbD_insert_outside _ _ h hj hr]

theorem insert_insert (h : lo ≤ hi) : insert (insert r lo hi v) lo hi u = insert r lo hi u := by
  apply BitVec.eq_of_getLsbD_eq
  intro j hj
  by_cases hr : lo ≤ j ∧ j ≤ hi
  · rw [getLsbD_insert_inside _ _ hr hj, getLsbD_insert_inside _ _ hr hj]
  · rw [getLsbD_insert_outside _ _ h hj hr, getLsbD_insert_outside _ _ h hj hr, getLsbD_insert_outside _ _ h hj hr]

/-- A bit inside the second of two disjoint ranges is outside the first, so the order of the inserts does not show. -/
theorem insert_comm_of_disjoint {lo' hi' : Nat} (h : lo ≤ hi) (h' : lo' ≤ hi') (hd : hi < lo' ∨ hi' < lo) :
    insert (insert r lo hi v) lo' hi' u = insert (insert r lo' hi' u) lo hi v := by
  apply BitVec.eq_of_getLsbD_eq
  intro j hj
  by_cases hr : lo' ≤ j ∧ j ≤ hi'
  · have ho : ¬(lo ≤ j ∧ j ≤ hi) := by omega
    rw [getLsbD_insert_inside _ _ hr hj, getLsbD_insert_outside _ _ h hj ho, getLsbD_insert_inside _ _ hr hj]
  · rw [getLsbD_insert_outside _ _ h' hj hr, getLsbD_insert _ _ h hj, getLsbD_insert _ _ h hj,
      getLsbD_insert_outside _ _ h' hj hr]

theorem extract_lt (hhi : hi < 128) : (extract r lo hi).toNat < 2 ^ (hi - lo + 1) := by
  rw [toNat_extract _ (by omega)]
  exact Nat.mod_lt _ (Nat.two_pow_pos _)

theorem signExtend_extract (hhi : hi < 128) :
    signExtend (extract r lo hi) (hi - lo + 1) = (r.extractLsb' lo (hi - lo + 1)).signExtend 128 := by
  rw [signExtend_eq, setWidth_extract _ hhi]

end

/-- Settles O21, law by law. -/
theorem bitRangePrimitivesObeyTheSevenLaws : Obligations.BitRangePrimitivesObeyTheSevenLaws := fun r v u _ hi h =>
  ⟨extract_insert r v h hi.isLt, fun _ hj ho => getLsbD_insert_outside r v h hj (by omega), insert_extract r h,
    insert_insert r v u h, fun _ _ h' hd => insert_comm_of_disjoint r v u h h' hd, extract_lt r hi.isLt,
    signExtend_extract r hi.isLt⟩

/-! ## The commands (40_bitrange.md R90 to R94) -/

/-- `sign_extend` gives the two's-complement value of the low bits (00_scope.md R16). -/
theorem toInt_signExtend_eq_valueOf (x : Data) {w : Nat} (h1 : 1 ≤ w) (h : w ≤ 128) :
    (signExtend x w).toInt = valueOf x w .signed := by
  rw [signExtend_eq, BitVec.toInt_signExtend_of_le h, valueOf_signed x h1]

/-- Settles O17: the masks are written whole, and no register is read. -/
theorem maskAndRmaskGiveOnesInTheRange : Obligations.MaskAndRmaskGiveOnesInTheRange := by
  refine ⟨encoded_any (op := Opcode.mask) (by decide) rfl fun w => ?_,
    encoded_ranged (op := Opcode.rmask) (mk := fun w => .rmask (fieldReg w 22)) (by decide) rfl fun w => ?_,
    fun s rd w _ hw => ?_, fun s rd lo hi h => ?_⟩
  · rw [rdOf_eq, widthOf_eq]
  · rw [rdOf_eq]
  · obtain ⟨t, ht, hwrote, hv⟩ := wroteReg_of_exec (.mask rd w) s [] rfl
    exact ⟨t, ht, hwrote, hv ▸ toNat_mask hw⟩
  · obtain ⟨t, ht, hwrote, hv⟩ := wroteReg_of_exec (.rmask rd lo hi) s [] rfl
    exact ⟨t, ht, hwrote, fun j hj => hv ▸ getLsbD_mask_shiftLeft h hj⟩

/-- Settles O18: `extract` as arithmetic is the pattern of the range. -/
theorem extrGivesTheBitsOfTheRange : Obligations.ExtrGivesTheBitsOfTheRange := by
  refine ⟨encoded_ranged (op := Opcode.extr) (mk := fun w => .extr (fieldReg w 22) (fieldReg w 18)) (by decide) rfl
    fun w => ?_, fun s rd rs1 lo hi _ => ?_⟩
  · rw [rdOf_eq, rs1Of_eq]
  · obtain ⟨t, ht, hwrote, hv⟩ := wroteReg_of_exec (.extr rd rs1 lo hi) s [rs1] rfl
    exact ⟨t, ht, hwrote, hv ▸ toNat_extract _ (by omega)⟩

/-- Settles O19: the bits of `insert`, both sources read before the write. -/
theorem insReplacesTheBitsOfTheRange : Obligations.InsReplacesTheBitsOfTheRange := by
  refine ⟨encoded_ranged (op := Opcode.ins) (mk := fun w => .ins (fieldReg w 22) (fieldReg w 18) (fieldReg w 14))
    (by decide) rfl fun w => ?_, fun s rd rs1 rs2 lo hi h => ?_⟩
  · rw [rdOf_eq, rs1Of_eq, rs2Of_eq]
  · obtain ⟨t, ht, hwrote, hv⟩ := wroteReg_of_exec (.ins rd rs1 rs2 lo hi) s [rs1, rs2] rfl
    exact ⟨t, ht, hwrote, fun j hj => hv ▸ getLsbD_insert _ _ h hj⟩

/-- Settles O20: `sign_extend` sees the low `w` bits alone. -/
theorem sextSignExtendsTheLowBits : Obligations.SextSignExtendsTheLowBits := by
  refine ⟨encoded_any (op := Opcode.sext) (by decide) rfl fun w => ?_, fun s rd rs1 w h1 hw => ?_⟩
  · rw [rdOf_eq, rs1Of_eq, widthOf_eq]
  · obtain ⟨t, ht, hwrote, hv⟩ := wroteReg_of_exec (.sext rd rs1 w) s [rs1] rfl
    exact ⟨t, ht, hwrote, hv ▸ toInt_signExtend_eq_valueOf _ h1 hw⟩

end Sys2Proof.Machine
end

section
/-! PROOFS. WidthInteger: the canonical form keeps the low bits, which alone decide the logical value, and the comparator
orders logical values. -/

namespace Sys2Proof.Machine

open Sys2Proof.Safety

/-! ## The low bits decide (41_widthint.md R100, R101) -/

/-- The canonical form keeps the low bits of its input. -/
theorem setWidth_canonical (x : Data) {w : Nat} (h1 : 1 ≤ w) (hw : w ≤ 128) (sg : Sign) :
    (canonical x w sg).setWidth w = x.setWidth w := by
  apply BitVec.eq_of_getLsbD_eq
  intro j hj
  rw [BitVec.getLsbD_setWidth, BitVec.getLsbD_setWidth, getLsbD_canonical x h1 sg (by omega), if_pos hj]

theorem canonical_canonical (x : Data) {w : Nat} (h1 : 1 ≤ w) (hw : w ≤ 128) (sg : Sign) :
    canonical (canonical x w sg) w sg = canonical x w sg := by
  have hlow := setWidth_canonical x h1 hw sg
  cases sg with
  | unsigned => exact congrArg (BitVec.setWidth Config.dw) hlow
  | signed => exact congrArg (BitVec.signExtend Config.dw) hlow

/-- The spec's canonical form, bit by bit (00_scope.md R17). -/
theorem isCanonical_canonical (x : Data) {w : Nat} (h1 : 1 ≤ w) (hw : w ≤ 128) (sg : Sign) :
    Canonical (canonical x w sg) w sg := by
  intro j hj hj'
  rw [getLsbD_canonical x h1 sg hj', if_neg (by omega), getLsbD_canonical x h1 sg (by omega), if_pos (by omega)]

/-- `val` is a bijection between the low bits and the logical values. -/
theorem logicalValue_inj (x y : Data) (w : Nat) (sg : Sign) :
    logicalValue x w sg = logicalValue y w sg ↔ x.setWidth w = y.setWidth w := by
  cases sg with
  | unsigned => exact Int.ofNat_inj.trans BitVec.toNat_inj
  | signed => exact BitVec.toInt_inj

theorem logicalValue_canonical (x : Data) {w : Nat} (h1 : 1 ≤ w) (hw : w ≤ 128) (sg : Sign) :
    logicalValue (canonical x w sg) w sg = logicalValue x w sg :=
  (logicalValue_inj ..).2 (setWidth_canonical x h1 hw sg)

theorem logicalValue_eq_iff_pattern_eq (x y : Data) (w : Nat) (sg : Sign) :
    logicalValue x w sg = logicalValue y w sg ↔ pattern x 0 w = pattern y 0 w := by
  have hpat : ∀ z : Data, pattern z 0 w = (z.setWidth w).toNat := fun z => by simp [pattern]
  rw [logicalValue_inj, hpat, hpat, BitVec.toNat_inj]

/-! ## The comparator's result (41_widthint.md R102, R103) -/

section
variable (a b : Int)

theorem toNat_compareResult : (compareResult a b).toNat = if a = b then 0 else if a < b then 1 else 2 := by
  unfold compareResult
  split
  · rfl
  · split <;> rfl

/-- Exactly one case of the order holds, and the result names it. -/
theorem compareResult_iff :
    (compareResult a b = 0 ↔ a = b) ∧ (compareResult a b = 1 ↔ a < b) ∧ (compareResult a b = 2 ↔ b < a) := by
  simp only [← BitVec.toNat_inj, toNat_compareResult]
  change (_ = 0 ↔ _) ∧ (_ = 1 ↔ _) ∧ (_ = 2 ↔ _)
  split
  · omega
  · split <;> omega

theorem compareResult_eq_zero_iff : compareResult a b = 0 ↔ a = b := (compareResult_iff a b).1

theorem compareResult_eq_one_iff : compareResult a b = 1 ↔ a < b := (compareResult_iff a b).2.1

theorem compareResult_eq_two_iff : compareResult a b = 2 ↔ b < a := (compareResult_iff a b).2.2

end

/-! ## The commands (41_widthint.md R101 to R103) -/

/-- WNORM completes and leaves the canonical form of its source in `rd`. -/
theorem exec_wnorm (s : State) (rd rs1 : Reg) (w : Nat) (sg : Sign) :
    ∃ t, exec (.wnorm rd rs1 w sg) s = .next t ∧ WroteReg s t rd [rs1] ∧ t.reg rd = canonical (s.reg rs1) w sg :=
  wroteReg_of_exec (.wnorm rd rs1 w sg) s [rs1] rfl

/-- WCMP completes and leaves the comparison of its two sources in `rd`. -/
theorem exec_wcmp (s : State) (rd rs1 rs2 : Reg) (w : Nat) (sg : Sign) :
    ∃ t, exec (.wcmp rd rs1 rs2 w sg) s = .next t ∧ WroteReg s t rd [rs1, rs2] ∧
      t.reg rd = compareResult (logicalValue (s.reg rs1) w sg) (logicalValue (s.reg rs2) w sg) :=
  wroteReg_of_exec (.wcmp rd rs1 rs2 w sg) s [rs1, rs2] rfl

/-- Settles O22: the result is `canonical` of the source, whose low bits are the source's. -/
theorem wnormMakesTheCanonicalForm : Obligations.WnormMakesTheCanonicalForm := by
  refine ⟨encoded_any (op := Opcode.wnorm) (by decide) rfl fun w => ?_, fun s rd rs1 w sg h1 hw => ?_⟩
  · rw [rdOf_eq, rs1Of_eq, widthOf_eq, signOf_eq]
  · obtain ⟨t, ht, hwrote, hv⟩ := exec_wnorm s rd rs1 w sg
    refine ⟨t, ht, hwrote, fun j hj => ?low, ?canonical, ?value, fun r => ?again⟩
    case low => rw [hv, getLsbD_canonical _ h1 sg (by omega), if_pos hj]
    case canonical => exact hv ▸ isCanonical_canonical _ h1 hw sg
    case value =>
      rw [hv, ← logicalValue_eq_valueOf _ h1, ← logicalValue_eq_valueOf _ h1, logicalValue_canonical _ h1 hw]
    case again =>
      obtain ⟨u, hu, -, hv'⟩ := exec_wnorm t r rd w sg
      exact ⟨u, hu, by rw [hv', hv, canonical_canonical _ h1 hw]⟩

/-- Settles O23: `compareResult` of the logical values, which are the claim's by arithmetic. -/
theorem wcmpComparesLogicalValues : Obligations.WcmpComparesLogicalValues := by
  refine ⟨encoded_any (op := Opcode.wcmp) (by decide) rfl fun w => ?_, fun s rd rs1 rs2 w sg h1 _ => ?_⟩
  · rw [rdOf_eq, rs1Of_eq, rs2Of_eq, widthOf_eq, signOf_eq]
  · obtain ⟨t, ht, hwrote, hv⟩ := exec_wcmp s rd rs1 rs2 w sg
    exact ⟨t, ht, hwrote, by
      rw [hv, toNat_compareResult, logicalValue_eq_valueOf _ h1, logicalValue_eq_valueOf _ h1]⟩

/-- Settles O24: the three results are the three cases of the order on the integers, and equal values are equal low
bits. -/
theorem wcmpIsATotalOrder : Obligations.WcmpIsATotalOrder := by
  intro s w sg h1 hw d a b c
  obtain ⟨tab, hab, -, vab⟩ := exec_wcmp s d a b w sg
  obtain ⟨tba, hba, -, vba⟩ := exec_wcmp s d b a w sg
  obtain ⟨tbc, hbc, -, vbc⟩ := exec_wcmp s d b c w sg
  obtain ⟨tac, hac, -, vac⟩ := exec_wcmp s d a c w sg
  obtain ⟨tn, hn, ⟨-, ⟨hother, -⟩, -⟩, vn⟩ := exec_wnorm s b a w sg
  obtain ⟨tna, hna, -, vna⟩ := exec_wcmp tn d b a w sg
  refine ⟨tab, tba, tbc, tac, tn, tna, hab, hba, hbc, hac, hn, fun hne => ⟨hna, ?normalised⟩, ?equal, ?total, ?swap,
    ?antisymmetric, ?transitive⟩
  case normalised =>
    rw [vna, vn, (hother a hne).1, compareResult_eq_zero_iff, logicalValue_canonical _ h1 hw]
  case equal => rw [vab, compareResult_eq_zero_iff, logicalValue_eq_iff_pattern_eq]
  case total =>
    rw [vab, compareResult_eq_zero_iff, compareResult_eq_one_iff, compareResult_eq_two_iff]
    omega
  case swap => rw [vab, vba, compareResult_eq_one_iff, compareResult_eq_two_iff]
  case antisymmetric =>
    rw [vab, vba, Ne, Ne, compareResult_eq_two_iff, compareResult_eq_two_iff, compareResult_eq_zero_iff]
    omega
  case transitive =>
    rw [vab, vbc, vac, Ne, Ne, Ne, compareResult_eq_two_iff, compareResult_eq_two_iff, compareResult_eq_two_iff]
    omega

end Sys2Proof.Machine
end

section
/-! PROOFS. The checks of FGET and FSET in their order, and what an admitted FGET reads and an admitted FSET writes, as
functions of the instance's bits and of the value. -/

namespace Sys2Proof.Machine

open Sys2Proof.Safety

/-! ## The checks, one by one (42_field_access.md R110) -/

section
variable {dir : Direction} {op : BitVec 6} {fid : FieldId} {idx : Fin 128} {s : State}

theorem admitAccess_of_not_ready (h : s.phase ≠ .ready) :
    admitAccess dir op fid idx s = some ⟨.phase, phaseInfo op s.phase⟩ := by
  rw [admitAccess, admitIn_of_ne h, Option.some_or]

theorem admitAccess_of_ready (h : s.phase = .ready) : admitAccess dir op fid idx s = admitField dir fid idx s := by
  rw [admitAccess, admitIn_of_phase h, Option.none_or]

theorem admitField_of_undeclared (hv : s.store.ft[fid].valid = false) :
    admitField dir fid idx s = some ⟨.nofield, BitVec.ofNat Config.dw fid.val⟩ := by
  simp only [admitField, hv, Bool.not_false, if_true]

theorem admitField_of_not_allowed (hv : s.store.ft[fid].valid = true)
    (ha : ¬dir.allowed s.store.ft[fid].desc = true) :
    admitField dir fid idx s = some ⟨.access, accessInfo dir fid⟩ := by
  simp only [admitField, hv, eq_false_of_ne_true ha, Bool.not_true, Bool.not_false, Bool.false_eq_true,
    if_true, if_false]

theorem admitField_of_past_instances (hv : s.store.ft[fid].valid = true)
    (ha : dir.allowed s.store.ft[fid].desc = true) (hi : Fdesc.instances s.store.ft[fid].desc ≤ idx.val) :
    admitField dir fid idx s = some ⟨.index, indexInfo fid idx⟩ := by
  simp only [admitField, hv, ha, Bool.not_true, Bool.false_eq_true, if_false, if_neg (Nat.not_lt.2 hi)]

theorem admitAccess_eq_none_iff :
    admitAccess dir op fid idx s = none ↔ s.phase = .ready ∧ s.store.ft[fid].valid = true ∧
      dir.allowed s.store.ft[fid].desc = true ∧ idx.val < Fdesc.instances s.store.ft[fid].desc := by
  by_cases h : s.phase = .ready
  · rw [admitAccess_of_ready h, admitField_none_iff, and_iff_right h]
  · rw [admitAccess_of_not_ready h]
    exact ⟨nofun, fun hr => absurd hr.1 h⟩

/-- A refused access is no success, and not UNMATCHED either. -/
theorem admitAccess_code {e : Failure} (h : admitAccess dir op fid idx s = some e) :
    e.code ≠ .ok ∧ e.code ≠ .unmatched := by
  rcases Option.or_eq_some_iff.1 h with h | ⟨-, h⟩
  · obtain ⟨-, rfl⟩ := admitIn_some h
    exact ⟨nofun, nofun⟩
  · rcases admitField_code h with h | h | h <;> rw [h] <;> exact ⟨nofun, nofun⟩

theorem mayGet_iff_admitAccess : MayGet s fid idx ↔ admitAccess .get Opcode.fget fid idx s = none := by
  rw [admitAccess_eq_none_iff, Direction.allowed_get_iff]
  rfl

theorem maySet_iff_admitAccess : MaySet s fid idx ↔ admitAccess .set Opcode.fset fid idx s = none := by
  rw [admitAccess_eq_none_iff, Direction.allowed_set_iff]
  rfl

theorem fget_failedWith (rd rs1 : Reg) {c : Code} {info : Data} {n : Nat}
    (h : admitAccess .get Opcode.fget fid idx s = some ⟨c, info⟩) (hi : info.toNat = n) :
    ∃ t, exec (.fget rd rs1 fid idx) s = .next t ∧ FailedWith s t c n [rs1] :=
  ⟨_, fget_refused h, failedWith s [rs1] _ hi⟩

theorem fset_failedWith (rd rs1 rs2 : Reg) {c : Code} {info : Data} {n : Nat}
    (h : admitAccess .set Opcode.fset fid idx s = some ⟨c, info⟩) (hi : info.toNat = n) :
    ∃ t, exec (.fset rd rs1 rs2 fid idx) s = .next t ∧ FailedWith s t c n [rs1, rs2] :=
  ⟨_, fset_refused h, failedWith s [rs1, rs2] _ hi⟩

end

/-! ## The checks in their order -/

theorem toNat_fieldIdInfo (fid : FieldId) : (BitVec.ofNat Config.dw fid.val).toNat = fid.val := by
  have := FieldId.val_lt fid
  exact Nat.mod_eq_of_lt (show fid.val < 2 ^ 128 by omega)

/-- Settles O27: each check by its own lemma, in the order of `admitAccess`. -/
theorem fieldAccessChecksInOrder : Obligations.FieldAccessChecksInOrder := by
  intro s rd rs1 rs2 fid idx f got set
  refine ⟨fun hp => ?phase, fun hp hv => ?nofield, fun hp hv h1 h3 => ?getAccess, fun hp hv h2 h3 => ?setAccess,
    fun hp hv ha hi => ?getIndex, fun hp hv ha hi => ?setIndex⟩
  case phase =>
    exact ⟨⟨_, fget_refused (admitAccess_of_not_ready hp), failedPhase s [rs1] Opcode.fget⟩,
      ⟨_, fset_refused (admitAccess_of_not_ready hp), failedPhase s [rs1, rs2] Opcode.fset⟩⟩
  case nofield =>
    have hadm (dir : Direction) (op : BitVec 6) := (admitAccess_of_ready (op := op) hp).trans
      (admitField_of_undeclared (dir := dir) (idx := idx) hv)
    exact ⟨fget_failedWith rd rs1 (hadm _ _) (toNat_fieldIdInfo fid),
      fset_failedWith rd rs1 rs2 (hadm _ _) (toNat_fieldIdInfo fid)⟩
  case getAccess =>
    have ha : ¬Direction.get.allowed f.desc = true := fun ha => ((Direction.allowed_get_iff _).1 ha).elim h1 h3
    exact fget_failedWith rd rs1 ((admitAccess_of_ready hp).trans (admitField_of_not_allowed hv ha))
      (toNat_fieldIdInfo fid)
  case setAccess =>
    have ha : ¬Direction.set.allowed f.desc = true := fun ha => ((Direction.allowed_set_iff _).1 ha).elim h2 h3
    exact fset_failedWith rd rs1 rs2 ((admitAccess_of_ready hp).trans (admitField_of_not_allowed hv ha))
      (toNat_accessInfo_set fid)
  case getIndex =>
    exact fget_failedWith rd rs1 ((admitAccess_of_ready hp).trans
      (admitField_of_past_instances hv ((Direction.allowed_get_iff _).2 ha) hi)) (toNat_indexInfo fid idx)
  case setIndex =>
    exact fset_failedWith rd rs1 rs2 ((admitAccess_of_ready hp).trans
      (admitField_of_past_instances hv ((Direction.allowed_set_iff _).2 ha) hi)) (toNat_indexInfo fid idx)

/-! ## The value of an instance's bits (42_field_access.md R112) -/

/-- What FGET makes of the bits of an instance: a value, or none where an enum has no such discriminant. -/
def fieldValue (st : SchemaStore) (d bits : Data) : Option Data :=
  match Fdesc.kind d with
  | some .bool => some (if bits = 0 then 0 else 1)
  | some .unsigned => some bits
  | some .signed => some (signExtend bits (Fdesc.width d))
  | some .enumExhaustive | some .enumPartial => ((st.enumOf d).find bits).map ordinal
  | none => none

/-- What FSET stores for a value: a pattern, or none where an enum has no such ordinal (42_field_access.md R113). -/
def fieldPattern (st : SchemaStore) (d x : Data) : Option Data :=
  match Fdesc.kind d with
  | some .bool => some (x &&& 1)
  | some .unsigned | some .signed => some (x &&& mask (Fdesc.width d))
  | some .enumExhaustive | some .enumPartial =>
    if x.toNat < (st.enumOf d).nvar.val then some ((st.enumOf d).disc x.toNat) else none
  | none => none

/-- KIND 3 or 4 (10_state.md R38). -/
theorem Fdesc.kind_of_enum {d : Data} (h : Fdesc.kindBits d = 3 ∨ Fdesc.kindBits d = 4) :
    Fdesc.kind d = some .enumExhaustive ∨ Fdesc.kind d = some .enumPartial :=
  h.imp (Fdesc.kind_eq_some_iff d .enumExhaustive).2 (Fdesc.kind_eq_some_iff d .enumPartial).2

/-- KIND 0, 1 or 2 (10_state.md R38). -/
theorem Fdesc.kindBits_le_two {d : Data} (h : (Fdesc.kindBits d).toNat ≤ 2) :
    Fdesc.kindBits d = 0 ∨ Fdesc.kindBits d = 1 ∨ Fdesc.kindBits d = 2 := by
  revert h
  generalize Fdesc.kindBits d = b
  revert b
  decide

section
variable (st : SchemaStore) {d : Data} (bits x : Data)

theorem fieldValue_bool (h : Fdesc.kindBits d = 0) : fieldValue st d bits = some (if bits = 0 then 0 else 1) := by
  rw [fieldValue, (Fdesc.kind_eq_some_iff d .bool).2 h]

theorem fieldValue_unsigned (h : Fdesc.kindBits d = 1) : fieldValue st d bits = some bits := by
  rw [fieldValue, (Fdesc.kind_eq_some_iff d .unsigned).2 h]

theorem fieldValue_signed (h : Fdesc.kindBits d = 2) :
    fieldValue st d bits = some (signExtend bits (Fdesc.width d)) := by
  rw [fieldValue, (Fdesc.kind_eq_some_iff d .signed).2 h]

theorem fieldValue_enum (h : Fdesc.kindBits d = 3 ∨ Fdesc.kindBits d = 4) :
    fieldValue st d bits = ((st.enumOf d).find bits).map ordinal := by
  rcases Fdesc.kind_of_enum h with hk | hk <;> rw [fieldValue, hk]

theorem fieldPattern_bool (h : Fdesc.kindBits d = 0) : fieldPattern st d x = some (x &&& 1) := by
  rw [fieldPattern, (Fdesc.kind_eq_some_iff d .bool).2 h]

theorem fieldPattern_integer (h : Fdesc.kindBits d = 1 ∨ Fdesc.kindBits d = 2) :
    fieldPattern st d x = some (x &&& mask (Fdesc.width d)) := by
  rcases h.imp (Fdesc.kind_eq_some_iff d .unsigned).2 (Fdesc.kind_eq_some_iff d .signed).2 with hk | hk <;>
    rw [fieldPattern, hk]

theorem fieldPattern_enum (h : Fdesc.kindBits d = 3 ∨ Fdesc.kindBits d = 4) (hx : x.toNat < (st.enumOf d).nvar.val) :
    fieldPattern st d x = some ((st.enumOf d).disc x.toNat) := by
  rcases Fdesc.kind_of_enum h with hk | hk <;> rw [fieldPattern, hk] <;> exact if_pos hx

end

/-! ## The admitted commands (42_field_access.md R114, R115) -/

section
variable {s : State} (rd rs1 rs2 : Reg) {fid : FieldId} {idx : Fin 128}

/-- An admitted FGET of bits that have a value writes it. -/
theorem fget_value {v : Data} (h : MayGet s fid idx)
    (hv : fieldValue s.store s.store.ft[fid].desc (fieldBits s.store.ft[fid].desc idx (s.reg rs1)) = some v) :
    exec (.fget rd rs1 fid idx) s = finishWith rd v (s.noteReads [rs1]) := by
  unfold fieldValue at hv
  split at hv
  · next hk => exact Option.some.inj hv ▸ fget_bool h hk
  · next hk => exact Option.some.inj hv ▸ fget_unsigned h hk
  · next hk => exact Option.some.inj hv ▸ fget_signed h hk
  · next hk =>
    obtain ⟨j, hj, rfl⟩ := Option.map_eq_some_iff.1 hv
    exact fget_matched h (.inl hk) hj
  · next hk =>
    obtain ⟨j, hj, rfl⟩ := Option.map_eq_some_iff.1 hv
    exact fget_matched h (.inr hk) hj
  · cases hv

theorem fset_variant (h : MaySet s fid idx)
    (hk : Fdesc.kind s.store.ft[fid].desc = some .enumExhaustive ∨ Fdesc.kind s.store.ft[fid].desc = some .enumPartial)
    (hx : (s.reg rs2).toNat < (s.store.enumOf s.store.ft[fid].desc).nvar.val) :
    exec (.fset rd rs1 rs2 fid idx) s = finishWith rd (withField s.store.ft[fid].desc idx (s.reg rs1)
      ((s.store.enumOf s.store.ft[fid].desc).disc (s.reg rs2).toNat)) (s.noteReads [rs1, rs2]) := by
  rw [fset_enum h hk, admitOrdinal, if_pos hx, unlessFails_none]
  rfl

theorem fset_badvar (h : MaySet s fid idx)
    (hk : Fdesc.kind s.store.ft[fid].desc = some .enumExhaustive ∨ Fdesc.kind s.store.ft[fid].desc = some .enumPartial)
    (hx : (s.store.enumOf s.store.ft[fid].desc).nvar.val ≤ (s.reg rs2).toNat) :
    exec (.fset rd rs1 rs2 fid idx) s = .next ((s.noteReads [rs1, rs2]).failWith ⟨.badvar, s.reg rs2⟩) := by
  rw [fset_enum h hk, admitOrdinal, if_neg (Nat.not_lt.2 hx), unlessFails_some]

/-- An admitted FSET of a value that has a pattern writes the container with it. -/
theorem fset_pattern {p : Data} (h : MaySet s fid idx)
    (hp : fieldPattern s.store s.store.ft[fid].desc (s.reg rs2) = some p) :
    exec (.fset rd rs1 rs2 fid idx) s =
      finishWith rd (withField s.store.ft[fid].desc idx (s.reg rs1) p) (s.noteReads [rs1, rs2]) := by
  unfold fieldPattern at hp
  split at hp
  · next hk => exact Option.some.inj hp ▸ fset_bool h hk
  · next hk => exact Option.some.inj hp ▸ fset_integer h (.inl hk)
  · next hk => exact Option.some.inj hp ▸ fset_integer h (.inr hk)
  · next hk =>
    obtain ⟨hx, hp⟩ := Option.ite_none_right_eq_some.1 hp
    exact Option.some.inj hp ▸ fset_variant rd rs1 rs2 h (.inl hk) hx
  · next hk =>
    obtain ⟨hx, hp⟩ := Option.ite_none_right_eq_some.1 hp
    exact Option.some.inj hp ▸ fset_variant rd rs1 rs2 h (.inr hk) hx
  · cases hp

theorem fset_reserved (h : MaySet s fid idx) (hk : Fdesc.kind s.store.ft[fid].desc = none) :
    exec (.fset rd rs1 rs2 fid idx) s = .fault .unvalidatedDescriptor := by
  show execFset rd rs1 rs2 fid idx s = _
  rw [execFset, admitAccess_set h, hk]
  rfl

/-- An admitted FSET of a value that has no pattern stops, or raises BADVAR. -/
theorem fset_no_pattern {t : State} (h : MaySet s fid idx)
    (hp : fieldPattern s.store s.store.ft[fid].desc (s.reg rs2) = none)
    (ht : exec (.fset rd rs1 rs2 fid idx) s = .next t) : t.code = .badvar := by
  have badvar (hk : Fdesc.kind s.store.ft[fid].desc = some .enumExhaustive ∨
      Fdesc.kind s.store.ft[fid].desc = some .enumPartial)
      (hx : ¬(s.reg rs2).toNat < (s.store.enumOf s.store.ft[fid].desc).nvar.val) : t.code = .badvar := by
    rw [fset_badvar rd rs1 rs2 h hk (Nat.not_lt.1 hx)] at ht
    cases ht
    rfl
  unfold fieldPattern at hp
  split at hp
  · cases hp
  · cases hp
  · cases hp
  · next hk => exact badvar (.inl hk) fun hx => by rw [if_pos hx] at hp; cases hp
  · next hk => exact badvar (.inr hk) fun hx => by rw [if_pos hx] at hp; cases hp
  · next hk =>
    rw [fset_reserved rd rs1 rs2 h hk] at ht
    cases ht

/-- A completed FSET was admitted, and its value had the pattern that it stored. -/
theorem pattern_of_fset_ok {t : State} (h : exec (.fset rd rs1 rs2 fid idx) s = .next t) (hc : t.code = .ok) :
    MaySet s fid idx ∧ ∃ p, fieldPattern s.store s.store.ft[fid].desc (s.reg rs2) = some p ∧
      t = ((s.noteReads [rs1, rs2]).setReg rd (withField s.store.ft[fid].desc idx (s.reg rs1) p)).done := by
  cases hadm : admitAccess .set Opcode.fset fid idx s with
  | some e =>
    rw [fset_refused hadm] at h
    cases h
    exact absurd hc (admitAccess_code hadm).1
  | none =>
    have hm : MaySet s fid idx := maySet_iff_admitAccess.2 hadm
    refine ⟨hm, ?_⟩
    cases hp : fieldPattern s.store s.store.ft[fid].desc (s.reg rs2) with
    | some p =>
      rw [fset_pattern rd rs1 rs2 hm hp] at h
      exact ⟨p, rfl, finishWith_next_iff.1 h⟩
    | none =>
      rw [fset_no_pattern rd rs1 rs2 hm hp h] at hc
      cases hc

end

/-! ## Bits and lookups as the claims say them -/

theorem fieldBits_eq_ofNat (d : Data) (idx : Fin 128) (c : Data) :
    fieldBits d idx c = BitVec.ofNat 128 (pattern c (Fdesc.loAt d idx.val) (Fdesc.width d)) := by
  rw [← toNat_fieldBits]
  exact ((BitVec.ofNat_toNat _ _).trans (BitVec.setWidth_eq _)).symm

theorem isCanonical_fieldBits (d : Data) (idx : Fin 128) (c : Data) :
    Canonical (fieldBits d idx c) (Fdesc.width d) .unsigned := by
  intro j hj hj'
  rw [getLsbD_fieldBits d idx c hj']
  simp [Nat.not_lt.2 hj]

theorem signExtend_eq_canonical (x : Data) (w : Nat) : signExtend x w = canonical x w .signed := signExtend_eq x w

theorem isVariant_iff_find (e : EnumSlot) (raw : Data) (j : Nat) : IsVariant e raw.toNat j ↔ e.find raw = some j := by
  simp only [IsVariant, EnumSlot.find_eq_some_iff, ne_eq, BitVec.toNat_inj]

theorem noVariant_iff_find (e : EnumSlot) (raw : Data) : NoVariant e raw.toNat ↔ e.find raw = none := by
  simp only [NoVariant, EnumSlot.find_eq_none_iff, ne_eq, BitVec.toNat_inj]

theorem toNat_ordinal {e : EnumSlot} {j : Nat} (h : j < e.nvar.val) : (ordinal j).toNat = j := by
  have := e.nvar_le
  exact Nat.mod_eq_of_lt (show j < 2 ^ 128 by omega)

/-- The pattern of a Bool is bit 0 of the value, and the pattern of an integer is its low bits. -/
theorem exists_fieldPattern_getLsbD (st : SchemaStore) {d : Data} (x : Data) (h : (Fdesc.kindBits d).toNat ≤ 2) :
    ∃ p, fieldPattern st d x = some p ∧
      ∀ i < Fdesc.width d, p.getLsbD i = (x.getLsbD i && decide (Fdesc.kindBits d = 0 → i = 0)) := by
  rcases Fdesc.kindBits_le_two h with hk | hk
  · refine ⟨_, fieldPattern_bool st x hk, fun i hi => ?_⟩
    have one : (1 : Data).getLsbD i = decide (i = 0) := BitVec.getLsbD_one.trans (by simp)
    rw [BitVec.getLsbD_and, one]
    simp only [hk, true_implies]
  · refine ⟨_, fieldPattern_integer st x hk, fun i hi => ?_⟩
    have hw := Fdesc.width_le d
    have hk0 : Fdesc.kindBits d ≠ 0 := by rcases hk with hk | hk <;> rw [hk] <;> decide
    rw [BitVec.getLsbD_and, getLsbD_mask]
    simp only [hi, show i < 128 by omega, hk0, false_implies, decide_true, Bool.and_self]

/-- Settles O28, kind by kind. -/
theorem fgetReadsBoolAndIntegerFields : Obligations.FgetReadsBoolAndIntegerFields := by
  refine ⟨encoded_any (op := Opcode.fget) (by decide) rfl fun w => ?_, ?_⟩
  · rw [rdOf_eq, rs1Of_eq, fidOf_eq, bOf_eq]
  intro s rd rs1 fid idx h d w bits hk
  have hbits : (fieldBits d idx (s.reg rs1)).toNat = bits := toNat_fieldBits ..
  have other {a b : BitVec 3} {P : Prop} (ha : Fdesc.kindBits d = a) (hne : a ≠ b) (hb : Fdesc.kindBits d = b) : P :=
    absurd (ha.symm.trans hb) hne
  rcases Fdesc.kindBits_le_two hk with hk | hk | hk
  · obtain ⟨t, ht, hwrote, hv⟩ :=
      wroteReg_of_exec (.fget rd rs1 fid idx) s [rs1] (fget_value rd rs1 h (fieldValue_bool _ _ hk))
    refine ⟨t, ht, hwrote, fun _ => ?_, other hk (by decide), other hk (by decide)⟩
    rw [hv, ← hbits, apply_ite BitVec.toNat]
    simp only [← BitVec.toNat_inj]
    rfl
  · obtain ⟨t, ht, hwrote, hv⟩ :=
      wroteReg_of_exec (.fget rd rs1 fid idx) s [rs1] (fget_value rd rs1 h (fieldValue_unsigned _ _ hk))
    exact ⟨t, ht, hwrote, other hk (by decide), fun _ => hv ▸ ⟨hbits, isCanonical_fieldBits d idx _⟩,
      other hk (by decide)⟩
  · obtain ⟨t, ht, hwrote, hv⟩ :=
      wroteReg_of_exec (.fget rd rs1 fid idx) s [rs1] (fget_value rd rs1 h (fieldValue_signed _ _ hk))
    refine ⟨t, ht, hwrote, other hk (by decide), other hk (by decide), fun _ => ⟨?_, ?_⟩⟩
    · rw [hv, toInt_signExtend_eq_valueOf _ (Fdesc.width_pos d) (Fdesc.width_le d), fieldBits_eq_ofNat]
      rfl
    · rw [hv, signExtend_eq_canonical]
      exact isCanonical_canonical _ (Fdesc.width_pos d) (Fdesc.width_le d) _

/-- Settles O29: the lookup in the claim's words is `find`. -/
theorem fgetDecodesEnumFields : Obligations.FgetDecodesEnumFields := by
  intro s rd rs1 fid idx h d e bits
  have hbits : (fieldBits d idx (s.reg rs1)).toNat = bits := toNat_fieldBits ..
  rw [← hbits]
  refine ⟨fun j hk hj => ?_, fun hk hn => ?_⟩
  · have hf := (isVariant_iff_find ..).1 hj
    have hv : fieldValue s.store d (fieldBits d idx (s.reg rs1)) = some (ordinal j) := by
      rw [fieldValue_enum _ _ hk, hf, Option.map_some]
    obtain ⟨t, ht, hwrote, hv⟩ := wroteReg_of_exec (.fget rd rs1 fid idx) s [rs1] (fget_value rd rs1 h hv)
    exact ⟨t, ht, hwrote, hv ▸ toNat_ordinal hj.1⟩
  · exact ⟨_, fget_unmatched h ((Fdesc.kind_eq_some_iff d .enumPartial).2 hk) ((noVariant_iff_find ..).1 hn),
      failedUnmatched ..⟩

/-- Settles O30: the stored pattern, bit by bit. -/
theorem fsetWritesBoolAndIntegerFields : Obligations.FsetWritesBoolAndIntegerFields := by
  refine ⟨encoded_any (op := Opcode.fset) (by decide) rfl fun w => ?_, ?_⟩
  · rw [rdOf_eq, rs1Of_eq, rs2Of_eq, fidOf_eq, bOf_eq]
  intro s rd rs1 rs2 fid idx h d lo hk
  obtain ⟨p, hp, hbits⟩ := exists_fieldPattern_getLsbD s.store (s.reg rs2) hk
  obtain ⟨t, ht, hwrote, hv⟩ :=
    wroteReg_of_exec (.fset rd rs1 rs2 fid idx) s [rs1, rs2] (fset_pattern rd rs1 rs2 h hp)
  refine ⟨t, ht, hwrote, fun j hj => ?_⟩
  rw [hv, getLsbD_withField _ _ _ _ hj]
  refine ite_congr rfl (fun hin : lo ≤ j ∧ j < lo + Fdesc.width d => ?_) fun _ => rfl
  have hlow : j - lo = 0 ↔ j = lo := by omega
  refine (hbits (j - lo) (by omega)).trans ?_
  simp only [hlow]

/-- Settles O31: the stored pattern is the discriminant, and no ordinal is BADVAR. -/
theorem fsetEncodesEnumFields : Obligations.FsetEncodesEnumFields := by
  intro s rd rs1 rs2 fid idx h d e lo hk
  refine ⟨fun hx => ?_, fun hx => ⟨_, fset_badvar rd rs1 rs2 h (Fdesc.kind_of_enum hk) hx, failedWith _ _ _ rfl⟩⟩
  obtain ⟨t, ht, hwrote, hv⟩ := wroteReg_of_exec (.fset rd rs1 rs2 fid idx) s [rs1, rs2]
    (fset_pattern rd rs1 rs2 h (fieldPattern_enum s.store (s.reg rs2) hk hx))
  exact ⟨t, ht, hwrote, fun j hj => hv ▸ getLsbD_withField _ _ _ _ hj⟩

end Sys2Proof.Machine
end

section
/-! PROOFS. FGET and FSET together, under the invariant: the round trip of a field's value, and why FSET of one instance
shows in no other field or instance. -/

namespace Sys2Proof.Machine

open Sys2Proof.Safety

/-! ## The committed enums (43_enum_codec.md R130, R131) -/

/-- Distinct discriminants: an ordinal is found again from its discriminant. -/
theorem EnumSlot.find_disc {e : EnumSlot} (he : EnumValid e) {j : Nat} (hj : j < e.nvar.val) :
    e.find (e.disc j) = some j :=
  (e.find_eq_some_iff _ _).2 ⟨hj, rfl, fun i hi => he.distinct i j hi hj⟩

/-- `2^W` distinct discriminants below `2^W` are all of them: the discriminants map the ordinals onto the patterns. -/
theorem EnumSlot.find_ne_none_of_exhaustive {e : EnumSlot} (he : EnumValid e) (hx : e.exh = true) {raw : Data}
    (hraw : raw.toNat < 2 ^ e.w.val) : e.find raw ≠ none := by
  have onto : Set.SurjOn (fun j => (e.disc j).toNat) (Finset.range e.nvar.val) (Finset.range (2 ^ e.w.val)) := by
    refine Finset.surjOn_of_injOn_of_card_le _ (fun j hj => ?_) (fun i hi j hj hij => ?_) ?_
    · exact Finset.mem_coe.2 (Finset.mem_range.2 (he.inRange j (Finset.mem_range.1 hj)))
    · have hij : e.disc i = e.disc j := BitVec.eq_of_toNat_eq hij
      rcases lt_trichotomy i j with hl | hl | hl
      · exact absurd hij (he.distinct i j hl (Finset.mem_range.1 hj))
      · exact hl
      · exact absurd hij.symm (he.distinct j i hl (Finset.mem_range.1 hi))
    · rw [Finset.card_range, Finset.card_range, he.covers hx]
  obtain ⟨j, hj, hd⟩ := onto (Finset.mem_coe.2 (Finset.mem_range.2 hraw))
  exact fun hn => (e.find_eq_none_iff raw).1 hn j (Finset.mem_range.1 hj) (BitVec.eq_of_toNat_eq hd)

/-- The enum of a committed enum field is valid and as wide as the field (45_schema.md R172). -/
theorem enumOf_valid {st : SchemaStore} {d : Data} (hs : SchemaValid st) (hd : FieldValid st d)
    (hk : Fdesc.kindBits d = 3 ∨ Fdesc.kindBits d = 4) :
    EnumValid (st.enumOf d) ∧ (st.enumOf d).w.val = Fdesc.width d := by
  have of_ok {exh : Bool} (h : EnumFieldOk st d exh) : EnumValid (st.enumOf d) ∧ (st.enumOf d).w.val = Fdesc.width d :=
    ⟨hs.enums (Fdesc.eid d) h.1, h.2.1⟩
  exact hk.elim (fun hk => of_ok (hd.exhaustive hk)) fun hk => of_ok (hd.partialEnum hk)

/-! ## The value of a stored pattern (42_field_access.md R118, R119) -/

theorem canonical_of_isCanonical {x : Data} {w : Nat} (h1 : 1 ≤ w) {sg : Sign} (h : Canonical x w sg) :
    canonical x w sg = x := by
  apply BitVec.eq_of_getLsbD_eq
  intro j hj
  rw [getLsbD_canonical x h1 sg hj]
  split
  · rfl
  · exact (h j (by omega) hj).symm

theorem and_mask_eq_canonical (x : Data) {w : Nat} (hw : w ≤ 128) : x &&& mask w = canonical x w .unsigned := by
  apply BitVec.eq_of_toNat_eq
  have : x.toNat % 2 ^ w < 2 ^ 128 := (Nat.mod_le ..).trans_lt x.isLt
  rw [toNat_and_mask x hw, canonical, BitVec.toNat_setWidth, BitVec.toNat_setWidth, Nat.mod_eq_of_lt this]

theorem canonical_and_mask (x : Data) (w : Nat) (sg : Sign) : canonical (x &&& mask w) w sg = canonical x w sg := by
  cases sg <;> simp only [canonical, setWidth_and_mask]

/-- A valid value has a pattern, and the value of that pattern in the instance is the value itself. -/
theorem fieldValue_fieldPattern {st : SchemaStore} {d x : Data} (hs : SchemaValid st) (hd : FieldValid st d)
    (hx : ValidValue st d x) :
    ∃ p, fieldPattern st d x = some p ∧ fieldValue st d (p &&& mask (Fdesc.width d)) = some x := by
  have h1 := Fdesc.width_pos d
  have hw := Fdesc.width_le d
  obtain ⟨hbool, hunsigned, hsigned, henum⟩ := hx
  rcases Fdesc.kindBits_cases d hd.kindLegal with hk | hk | hk | hk
  · refine ⟨_, fieldPattern_bool st x hk, ?_⟩
    have hx : x = 0 ∨ x = 1 :=
      (Nat.le_one_iff_eq_zero_or_eq_one.1 (hbool hk)).imp BitVec.eq_of_toNat_eq BitVec.eq_of_toNat_eq
    rw [fieldValue_bool _ _ hk, hd.boolWidth hk]
    rcases hx with rfl | rfl <;> rfl
  · refine ⟨_, fieldPattern_integer st x (.inl hk), ?_⟩
    rw [fieldValue_unsigned _ _ hk, and_mask_eq_canonical _ hw, canonical_and_mask,
      canonical_of_isCanonical h1 (hunsigned hk)]
  · refine ⟨_, fieldPattern_integer st x (.inr hk), ?_⟩
    rw [fieldValue_signed _ _ hk, signExtend_eq_canonical, canonical_and_mask, canonical_and_mask,
      canonical_of_isCanonical h1 (hsigned hk)]
  · obtain ⟨he, hwe⟩ := enumOf_valid hs hd hk
    have hj := henum hk
    refine ⟨_, fieldPattern_enum st x hk hj, ?_⟩
    have hfit : (st.enumOf d).disc x.toNat &&& mask (Fdesc.width d) = (st.enumOf d).disc x.toNat := by
      apply BitVec.eq_of_toNat_eq
      rw [toNat_and_mask _ hw, ← hwe, Nat.mod_eq_of_lt (he.inRange _ hj)]
    rw [fieldValue_enum _ _ hk, hfit, EnumSlot.find_disc he hj, Option.map_some]
    exact congrArg some (BitVec.eq_of_toNat_eq (toNat_ordinal hj))

theorem fieldBits_lt (d : Data) (idx : Fin 128) (c : Data) : (fieldBits d idx c).toNat < 2 ^ Fdesc.width d := by
  rw [toNat_fieldBits]
  exact Nat.mod_lt _ (Nat.two_pow_pos _)

/-- In a committed schema only a partial enum has bits without a value (42_field_access.md R118, totality). -/
theorem partialEnum_of_fieldValue_eq_none {st : SchemaStore} {d bits : Data} (hs : SchemaValid st)
    (hd : FieldValid st d) (hb : bits.toNat < 2 ^ Fdesc.width d) (hv : fieldValue st d bits = none) :
    Fdesc.kindBits d = 4 ∧ (st.enumOf d).find bits = none := by
  rcases Fdesc.kindBits_cases d hd.kindLegal with hk | hk | hk | hk | hk
  · rw [fieldValue_bool _ _ hk] at hv; cases hv
  · rw [fieldValue_unsigned _ _ hk] at hv; cases hv
  · rw [fieldValue_signed _ _ hk] at hv; cases hv
  · obtain ⟨he, hwe⟩ := enumOf_valid hs hd (.inl hk)
    rw [fieldValue_enum _ _ (.inl hk), Option.map_eq_none_iff] at hv
    exact absurd hv (EnumSlot.find_ne_none_of_exhaustive he (hd.exhaustive hk).2.2 (hwe ▸ hb))
  · rw [fieldValue_enum _ _ (.inr hk), Option.map_eq_none_iff] at hv
    exact ⟨hk, hv⟩

/-! ## States with one schema -/

theorem admitAccess_congr {s t : State} (h : SameSchema s t) (dir : Direction) (op : BitVec 6) (fid : FieldId)
    (idx : Fin 128) : admitAccess dir op fid idx t = admitAccess dir op fid idx s := by
  obtain ⟨hphase, hstore⟩ := h
  simp only [admitAccess, admitIn, admitField, hphase, hstore]

theorem mayGet_of_sameSchema {s t : State} (hsame : SameSchema s t) {fid : FieldId} {idx : Fin 128}
    (h : MayGet s fid idx) : MayGet t fid idx :=
  mayGet_iff_admitAccess.2 ((admitAccess_congr hsame ..).trans (admitAccess_get h))

/-! ## The round trip (42_field_access.md R118) -/

theorem fieldBits_withField {d : Data} {idx : Fin 128} (h : Fdesc.hiAt d idx.val < 128) (c v : Data) :
    fieldBits d idx (withField d idx c v) = v &&& mask (Fdesc.width d) := by
  rw [fieldBits, withField, extract_insert _ _ (Fdesc.loAt_le_hiAt ..) h, Fdesc.span_eq]

/-- Settles O33: the pattern of the value is stored in the instance, and FGET takes the value of the instance's bits. -/
theorem fieldValueRoundTrips : Obligations.FieldValueRoundTrips := by
  intro s c rs1 rs2 rd fid idx hinv hget hset hx
  obtain ⟨hs, -⟩ := hinv.readyValid hget.1
  have hd := hs.fields fid hget.2.1
  have hhi : Fdesc.hiAt s.store.ft[fid].desc idx.val < 128 := (hd.inside _ hget.2.2.2).trans_le s.store.cw_le
  obtain ⟨p, hp, hvalue⟩ := fieldValue_fieldPattern hs hd hx
  obtain ⟨t, ht, ⟨hok, -, hsame, -⟩, hc⟩ :=
    wroteReg_of_exec (.fset c rs1 rs2 fid idx) s [rs1, rs2] (fset_pattern c rs1 rs2 hset hp)
  have hget' : MayGet t fid idx := mayGet_of_sameSchema hsame hget
  obtain ⟨u, hu, ⟨hok', -⟩, hv⟩ := wroteReg_of_exec (.fget rd c fid idx) t [c] (v := s.reg rs2)
    (fget_value rd c hget' (by rw [hsame.2, hc, fieldBits_withField hhi, hvalue]))
  exact ⟨t, u, ht, hok, hu, hok', hv⟩

/-! ## Instances apart (42_field_access.md R116, 45_schema.md R170, R173) -/

/-- Instances of one field do not meet when the stride is at least the width. -/
theorem Fdesc.hiAt_lt_loAt {d : Data} (hw : Fdesc.width d ≤ Fdesc.stride d) {i k : Nat} (h : i < k) :
    Fdesc.hiAt d i < Fdesc.loAt d k := by
  have hstep : (i + 1) * Fdesc.stride d ≤ k * Fdesc.stride d := Nat.mul_le_mul_right _ h
  have hi := Fdesc.hiAt_eq d i
  rw [Nat.add_mul, Nat.one_mul] at hstep
  simp only [Fdesc.loAt] at hi ⊢
  omega

theorem Fdesc.width_le_stride {st : SchemaStore} {d : Data} (hd : FieldValid st d) :
    Fdesc.width d ≤ Fdesc.stride d := by
  unfold Fdesc.stride
  split
  · next h =>
    obtain ⟨hr, hb⟩ := Bool.and_eq_true_iff.1 h
    exact (hd.repeats hr).2 (bne_iff_ne.1 hb)
  · exact le_rfl

/-- Two instances of a committed schema do not meet. -/
theorem instances_apart {st : SchemaStore} (hs : SchemaValid st) {f g : FieldId} {i k : Nat}
    (hf : st.ft[f].valid = true) (hg : st.ft[g].valid = true) (hi : i < Fdesc.instances st.ft[f].desc)
    (hk : k < Fdesc.instances st.ft[g].desc) (hne : g ≠ f ∨ k ≠ i) :
    Fdesc.hiAt st.ft[f].desc i < Fdesc.loAt st.ft[g].desc k ∨
      Fdesc.hiAt st.ft[g].desc k < Fdesc.loAt st.ft[f].desc i := by
  by_cases hfg : g = f
  · subst hfg
    have hw := Fdesc.width_le_stride (hs.fields g hg)
    rcases lt_or_gt_of_ne (hne.resolve_left (not_not.2 rfl)) with hl | hl
    · exact .inr (Fdesc.hiAt_lt_loAt hw hl)
    · exact .inl (Fdesc.hiAt_lt_loAt hw hl)
  · by_contra hmeet
    have hf' := Fdesc.loAt_le_hiAt st.ft[f].desc i
    have hg' := Fdesc.loAt_le_hiAt st.ft[g].desc k
    exact hs.disjoint f g (Ne.symm hfg) hf hg (max (Fdesc.loAt st.ft[f].desc i) (Fdesc.loAt st.ft[g].desc k))
      ⟨⟨i, hi, by omega, by omega⟩, ⟨k, hk, by omega, by omega⟩⟩

/-! ## Non-interference (42_field_access.md R118) -/

theorem getLsbD_withField_outside {d : Data} {idx : Fin 128} (c v : Data) {j : Nat} (hj : j < 128)
    (h : j < Fdesc.loAt d idx.val ∨ Fdesc.hiAt d idx.val < j) : (withField d idx c v).getLsbD j = c.getLsbD j :=
  getLsbD_insert_outside c v (Fdesc.loAt_le_hiAt ..) hj (by omega)

theorem fieldBits_withField_apart {d d' : Data} {idx k : Fin 128} (c v : Data)
    (h : Fdesc.hiAt d idx.val < Fdesc.loAt d' k.val ∨ Fdesc.hiAt d' k.val < Fdesc.loAt d idx.val) :
    fieldBits d' k (withField d idx c v) = fieldBits d' k c := by
  apply BitVec.eq_of_getLsbD_eq
  intro j hj
  rw [getLsbD_fieldBits _ _ _ hj, getLsbD_fieldBits _ _ _ hj]
  by_cases hw : j < Fdesc.width d'
  · have hspan := Fdesc.hiAt_eq d' k.val
    by_cases hin : Fdesc.loAt d' k.val + j < 128
    · rw [getLsbD_withField_outside c v hin (by omega)]
    · rw [BitVec.getLsbD_of_ge _ _ (Nat.le_of_not_lt hin), BitVec.getLsbD_of_ge _ _ (Nat.le_of_not_lt hin)]
  · simp only [hw, decide_false, Bool.false_and]

/-- An admitted FGET shows of a container the bits of the instance and nothing else. -/
theorem fget_congr {s t : State} (c rs1 rd : Reg) {gid : FieldId} {k : Fin 128} (hinv : Inv s) (hsame : SameSchema s t)
    (h : MayGet s gid k)
    (hbits : fieldBits s.store.ft[gid].desc k (t.reg c) = fieldBits s.store.ft[gid].desc k (s.reg rs1)) :
    ∃ u v, exec (.fget rd rs1 gid k) s = .next u ∧ exec (.fget rd c gid k) t = .next v ∧
      v.code = u.code ∧ v.reg rd = u.reg rd := by
  obtain ⟨hs, -⟩ := hinv.readyValid h.1
  have h' : MayGet t gid k := mayGet_of_sameSchema hsame h
  cases hv : fieldValue s.store s.store.ft[gid].desc (fieldBits s.store.ft[gid].desc k (s.reg rs1)) with
  | some x =>
    have hv' : fieldValue t.store t.store.ft[gid].desc (fieldBits t.store.ft[gid].desc k (t.reg c)) = some x := by
      rw [hsame.2, hbits, hv]
    exact ⟨_, _, fget_value rd rs1 h hv, fget_value rd c h' hv', by rw [State.done_code, State.done_code],
      by rw [reg_setReg_done, reg_setReg_done]⟩
  | none =>
    obtain ⟨hk, hf⟩ := partialEnum_of_fieldValue_eq_none hs (hs.fields gid h.2.1) (fieldBits_lt ..) hv
    have hkind := (Fdesc.kind_eq_some_iff s.store.ft[gid].desc .enumPartial).2 hk
    refine ⟨_, _, fget_unmatched h hkind hf, fget_unmatched h' (hsame.2 ▸ hkind) ?_, ?_, ?_⟩
    · rw [hsame.2, hbits, hf]
    · rw [State.failWith_code, State.failWith_code]
    · rw [reg_setReg_failWith, reg_setReg_failWith, hsame.2, hbits]

/-- Settles O34: the instance's bits alone are written, and the instance FGET names is apart from them. -/
theorem fieldWritesDoNotInterfere : Obligations.FieldWritesDoNotInterfere := by
  intro s t c rs1 rs2 rd fid gid idx k hinv ht hok
  obtain ⟨hset, p, -, rfl⟩ := pattern_of_fset_ok c rs1 rs2 ht hok
  refine ⟨fun j hj hout => ?_, fun hne => ?_⟩
  · rw [reg_setReg_done, getLsbD_withField_outside _ _ hj hout]
  obtain ⟨-, -, hsame, -⟩ := wroteReg s [rs1, rs2] c (withField s.store.ft[fid].desc idx (s.reg rs1) p)
  cases hadm : admitAccess .get Opcode.fget gid k s with
  | some e =>
    obtain ⟨hnok, hnun⟩ := admitAccess_code hadm
    exact ⟨_, _, fget_refused hadm, fget_refused ((admitAccess_congr hsame ..).trans hadm),
      by rw [State.failWith_code, State.failWith_code], fun h => (h.elim hnok hnun).elim⟩
  | none =>
    have hget : MayGet s gid k := mayGet_iff_admitAccess.2 hadm
    obtain ⟨hs, -⟩ := hinv.readyValid hget.1
    have hapart := instances_apart hs hset.2.1 hget.2.1 hset.2.2.2 hget.2.2.2 (hne.imp_right Fin.val_ne_of_ne)
    obtain ⟨u, v, hu, hv, hcode, hreg⟩ := fget_congr c rs1 rd hinv hsame hget
      (by rw [reg_setReg_done, fieldBits_withField_apart _ _ hapart])
    exact ⟨u, v, hu, hv, hcode, fun _ => hreg⟩

end Sys2Proof.Machine
end

section
/-! PROOFS. The enum mapper's commands: the checks of EDEC and EENC in their order, what an admitted one writes, and the
laws that tie the two together in a committed schema. -/

namespace Sys2Proof.Machine

open Sys2Proof.Safety

/-! ## The checks (43_enum_codec.md R134, R135) -/

theorem admitEnum_of_declared {s : State} {eid : EnumId} (hv : s.store.et[eid].valid = true) :
    admitEnum eid s = none := by
  rw [admitEnum, if_pos hv]

theorem admitEnum_of_undeclared {s : State} {eid : EnumId} (hv : s.store.et[eid].valid = false) :
    admitEnum eid s = some ⟨.nofield, 0x100#Config.dw ||| BitVec.ofNat Config.dw eid.val⟩ := by
  rw [admitEnum, if_neg (Bool.eq_false_iff.1 hv)]

theorem admitOrdinal_of_ge {e : EnumSlot} {x : Data} (hx : e.nvar.val ≤ x.toNat) :
    admitOrdinal e x = some ⟨.badvar, x⟩ := by
  rw [admitOrdinal, if_neg (Nat.not_lt.2 hx)]

section
variable {s : State} {eid : EnumId} (rd rs1 : Reg)

/-- A refused EDEC. -/
theorem edec_refused {f : Failure} (h : (admitIn .ready Opcode.edec s).or (admitEnum eid s) = some f) :
    exec (.edec rd rs1 eid) s = .next ((s.noteReads [rs1]).failWith f) := by
  show execEdec rd rs1 eid s = _
  rw [execEdec, h, unlessFails_some]

/-- A refused EENC. -/
theorem eenc_refused {f : Failure} (h : ((admitIn .ready Opcode.eenc s).or (admitEnum eid s)).or
      (admitOrdinal s.store.et[eid] (s.reg rs1)) = some f) :
    exec (.eenc rd rs1 eid) s = .next ((s.noteReads [rs1]).failWith f) := by
  show execEenc rd rs1 eid s = _
  rw [execEenc, h, unlessFails_some]

/-! ## The admitted commands (43_enum_codec.md R134, R135) -/

/-- EDEC of a declared discriminant writes its ordinal. -/
theorem exec_edec_of_find {j : Nat} (hready : s.phase = .ready) (hv : s.store.et[eid].valid = true)
    (hf : s.store.et[eid].find (s.reg rs1 &&& mask s.store.et[eid].w.val) = some j) :
    ∃ t, exec (.edec rd rs1 eid) s = .next t ∧ WroteReg s t rd [rs1] ∧ (t.reg rd).toNat = j := by
  obtain ⟨t, ht, hwrote, hreg⟩ := wroteReg_of_exec (.edec rd rs1 eid) s [rs1] (edec_matched hready hv hf)
  obtain ⟨hj, -⟩ := (EnumSlot.find_eq_some_iff ..).1 hf
  exact ⟨t, ht, hwrote, hreg ▸ toNat_ordinal hj⟩

/-- EENC of an ordinal writes its discriminant. -/
theorem exec_eenc_of_lt (hready : s.phase = .ready) (hv : s.store.et[eid].valid = true)
    (hx : (s.reg rs1).toNat < s.store.et[eid].nvar.val) :
    ∃ t, exec (.eenc rd rs1 eid) s = .next t ∧ WroteReg s t rd [rs1] ∧
      t.reg rd = s.store.et[eid].disc (s.reg rs1).toNat :=
  wroteReg_of_exec (.eenc rd rs1 eid) s [rs1] (eenc_encoded hready hv hx)

end

/-! ## The raw value (43_enum_codec.md R134) -/

theorem and_mask_of_lt {x : Data} {w : Nat} (hw : w ≤ 128) (hx : x.toNat < 2 ^ w) : x &&& mask w = x := by
  apply BitVec.eq_of_toNat_eq
  rw [toNat_and_mask x hw, Nat.mod_eq_of_lt hx]

/-- Every `W`-bit raw value of a committed exhaustive enum is matched (43_enum_codec.md R131, R136). -/
theorem EnumSlot.find_and_mask_ne_none {e : EnumSlot} (he : EnumValid e) (hexh : e.exh = true) (x : Data) :
    e.find (x &&& mask e.w.val) ≠ none := by
  refine EnumSlot.find_ne_none_of_exhaustive he hexh ?_
  rw [toNat_and_mask x e.w_le]
  exact Nat.mod_lt _ (Nat.two_pow_pos _)

theorem enumValid_of_inv {s : State} (hinv : Inv s) (hready : s.phase = .ready) {eid : EnumId}
    (hv : s.store.et[eid].valid = true) : EnumValid s.store.et[eid] :=
  (hinv.readyValid hready).1.enums eid hv

/-! ## The claims -/

/-- Settles O38: an ordinal and its discriminant find each other, because the discriminants of a committed enum fit in
`W` bits and are distinct, and because those of an exhaustive one are all the `W`-bit values. -/
theorem enumCodecLaws : Obligations.EnumCodecLaws := by
  intro s a b c eid hinv hready hv e x
  have he : EnumValid e := enumValid_of_inv hinv hready hv
  refine ⟨fun hx => ?decodeEncode, fun hx hvariant => ?encodeDecode, fun hexh => ?total, fun _ hx => ?unmatched⟩
  case decodeEncode =>
    obtain ⟨t, ht, ⟨hok, -, ⟨hphase, hstore⟩, -⟩, hb⟩ := exec_eenc_of_lt b a hready hv hx
    have hfind : e.find (t.reg b &&& mask e.w.val) = some x := by
      rw [hb, and_mask_of_lt e.w_le (he.inRange x hx), EnumSlot.find_disc he hx]
    obtain ⟨u, hu, ⟨hok', -⟩, hc⟩ := exec_edec_of_find (s := t) (eid := eid) c b (hphase.trans hready)
      (by rw [hstore, hv]) (by rw [hstore, hfind])
    exact ⟨t, u, ht, hok, hu, hok', hc⟩
  case encodeDecode =>
    obtain ⟨j, hfind⟩ := Option.ne_none_iff_exists'.1 (mt (noVariant_iff_find e (s.reg a)).2 hvariant)
    obtain ⟨hj, hdisc, -⟩ := (e.find_eq_some_iff ..).1 hfind
    obtain ⟨t, ht, ⟨hok, -, ⟨hphase, hstore⟩, -⟩, hb⟩ := exec_edec_of_find b a hready hv
      (by rw [and_mask_of_lt e.w_le hx, hfind])
    obtain ⟨u, hu, ⟨hok', -⟩, hc⟩ := exec_eenc_of_lt (s := t) (eid := eid) c b (hphase.trans hready)
      (by rw [hstore, hv]) (by rw [hstore, hb]; exact hj)
    exact ⟨t, u, ht, hok, hu, hok', by rw [hc, hstore, hb, hdisc]⟩
  case total =>
    obtain ⟨j, hfind⟩ := Option.ne_none_iff_exists'.1 (EnumSlot.find_and_mask_ne_none he hexh (s.reg a))
    obtain ⟨t, ht, ⟨hok, -⟩, -⟩ := exec_edec_of_find b a hready hv hfind
    exact ⟨t, ht, hok⟩
  case unmatched =>
    have hraw : s.reg a &&& mask e.w.val = s.reg a := and_mask_of_lt e.w_le hx
    rw [noVariant_iff_find]
    cases hfind : e.find (s.reg a) with
    | some j =>
      obtain ⟨t, ht, ⟨hok, -⟩, -⟩ := exec_edec_of_find b a hready hv (by rw [hraw, hfind])
      exact ⟨t, ht, by simp [hok], nofun⟩
    | none =>
      refine ⟨_, edec_unmatched hready hv (by rw [hraw, hfind]), by simp, fun _ => ?_⟩
      rw [State.failWith_errval, hraw]

/-- Settles O36: the lookup in the claim's words is `find` of the masked register. -/
theorem edecDecodesTheDiscriminant : Obligations.EdecDecodesTheDiscriminant := by
  refine ⟨encoded_any (op := Opcode.edec) (by decide) rfl fun w => ?_, ?_⟩
  · rw [rdOf_eq, rs1Of_eq, eidOf_eq]
  intro s rd rs1 eid e raw
  have hraw : (s.reg rs1 &&& mask e.w.val).toNat = raw := toNat_and_mask _ e.w_le
  rw [← hraw]
  refine ⟨fun hp => ?phase, fun hready hv => ?nofield, fun hready hv j hj => ?matched, fun hready hv hn => ?unmatched,
    fun hinv hready hv hexh => ?exhaustive⟩
  case phase =>
    exact ⟨_, edec_refused rd rs1 (by rw [admitIn_of_ne hp, Option.some_or]), failedPhase s [rs1] Opcode.edec⟩
  case nofield =>
    exact ⟨_, edec_refused rd rs1 (by rw [admitIn_of_phase hready, Option.none_or, admitEnum_of_undeclared hv]),
      failedWith s [rs1] _ (toNat_enumInfo eid)⟩
  case matched => exact exec_edec_of_find rd rs1 hready hv ((isVariant_iff_find ..).1 hj)
  case unmatched => exact ⟨_, edec_unmatched hready hv ((noVariant_iff_find ..).1 hn), failedUnmatched ..⟩
  case exhaustive =>
    rw [noVariant_iff_find]
    exact EnumSlot.find_and_mask_ne_none (enumValid_of_inv hinv hready hv) hexh _

/-- Settles O37: the three checks in their order, then the discriminant. -/
theorem eencEncodesTheOrdinal : Obligations.EencEncodesTheOrdinal := by
  refine ⟨encoded_any (op := Opcode.eenc) (by decide) rfl fun w => ?_, ?_⟩
  · rw [rdOf_eq, rs1Of_eq, eidOf_eq]
  intro s rd rs1 eid e
  refine ⟨fun hp => ?phase, fun hready hv => ?nofield, fun hready hv hx => ?encoded, fun hready hv hx => ?badvar⟩
  case phase =>
    exact ⟨_, eenc_refused rd rs1 (by rw [admitIn_of_ne hp, Option.some_or, Option.some_or]),
      failedPhase s [rs1] Opcode.eenc⟩
  case nofield =>
    exact ⟨_, eenc_refused rd rs1
        (by rw [admitIn_of_phase hready, Option.none_or, admitEnum_of_undeclared hv, Option.some_or]),
      failedWith s [rs1] _ (toNat_enumInfo eid)⟩
  case encoded =>
    obtain ⟨t, ht, hwrote, hreg⟩ := exec_eenc_of_lt rd rs1 hready hv hx
    exact ⟨t, ht, hwrote, hreg, fun hinv => hreg ▸ (enumValid_of_inv hinv hready hv).inRange _ hx⟩
  case badvar =>
    exact ⟨_, eenc_refused rd rs1 (by
        rw [admitIn_of_phase hready, Option.none_or, admitEnum_of_declared hv, Option.none_or, admitOrdinal_of_ge hx]),
      failedWith s [rs1] _ rfl⟩

end Sys2Proof.Machine
end

section
/-! PROOFS. The container unit: CNEW and CLOAD in READY and outside it, and why a completed FSET keeps a container well
formed. -/

namespace Sys2Proof.Machine

open Sys2Proof.Safety

/-! ## CNEW and CLOAD (44_container.md R140, R141) -/

section
variable {s : State} (rd rs1 : Reg)

theorem cnew_refused (h : s.phase ≠ .ready) :
    exec (.cnew rd) s = .next (s.failWith ⟨.phase, phaseInfo Opcode.cnew s.phase⟩) := by
  show execCnew rd s = _
  rw [execCnew, admitIn_of_ne h, unlessFails_some]

theorem cnew_ready (h : s.phase = .ready) : exec (.cnew rd) s = finishWith rd s.store.dflt s := by
  show execCnew rd s = _
  rw [execCnew, admitIn_of_phase h, unlessFails_none]

theorem cload_refused (h : s.phase ≠ .ready) :
    exec (.cload rd rs1) s = .next ((s.noteReads [rs1]).failWith ⟨.phase, phaseInfo Opcode.cload s.phase⟩) := by
  show execCload rd rs1 s = _
  rw [execCload, admitIn_of_ne h, unlessFails_some]

theorem cload_ready (h : s.phase = .ready) :
    exec (.cload rd rs1) s = finishWith rd (s.reg rs1 &&& mask s.store.cw.val) (s.noteReads [rs1]) := by
  show execCload rd rs1 s = _
  rw [execCload, admitIn_of_phase h, unlessFails_none]

end

/-- Settles O25: in READY the default is written, and a valid schema's default fits the container. -/
theorem cnewGivesTheDefault : Obligations.CnewGivesTheDefault := by
  refine ⟨encoded_any (op := Opcode.cnew) (by decide) rfl fun w => ?_, fun s rd => ⟨fun hready => ?_, fun hp => ?_⟩⟩
  · rw [rdOf_eq]
  · obtain ⟨t, ht, hwrote, hv⟩ := wroteReg_of_exec (.cnew rd) s [] (cnew_ready rd hready)
    exact ⟨t, ht, hwrote, hv, fun hinv => hv ▸ (hinv.readyValid hready).1.defaultFits⟩
  · exact ⟨_, cnew_refused rd hp, failedPhase s [] Opcode.cnew⟩

/-- Settles O26: masking to `CW` bits is truncation, so the result is below `2^CW`. -/
theorem cloadTruncatesToTheContainerWidth : Obligations.CloadTruncatesToTheContainerWidth := by
  refine ⟨encoded_any (op := Opcode.cload) (by decide) rfl fun w => ?_,
    fun s rd rs1 => ⟨fun hready => ?_, fun hp => ?_⟩⟩
  · rw [rdOf_eq, rs1Of_eq]
  · obtain ⟨t, ht, hwrote, hv⟩ := wroteReg_of_exec (.cload rd rs1) s [rs1] (cload_ready rd rs1 hready)
    have hmod : (t.reg rd).toNat = (s.reg rs1).toNat % 2 ^ s.store.cw.val := hv ▸ toNat_and_mask _ s.store.cw_le
    exact ⟨t, ht, hwrote, hmod, hmod.trans_lt (Nat.mod_lt _ (Nat.two_pow_pos _))⟩
  · exact ⟨_, cload_refused rd rs1 hp, failedPhase s [rs1] Opcode.cload⟩

/-! ## Well-formed containers (44_container.md R143) -/

/-- The bound on the container says what R143 says of its bits. -/
theorem containerOk_iff_getLsbD (st : SchemaStore) (c : Data) :
    ContainerOk st c ↔ ∀ j < 128, st.cw.val ≤ j → c.getLsbD j = false := by
  refine ⟨fun h j _ hle => Nat.testBit_lt_two_pow (h.trans_le (Nat.pow_le_pow_right two_pos hle)), fun h => ?_⟩
  refine Nat.lt_pow_two_of_testBit _ fun j hle => ?_
  by_cases hj : j < 128
  · exact h j hj hle
  · exact BitVec.getLsbD_of_ge c j (Nat.le_of_not_lt hj)

/-- Writing an instance that ends below `CW` touches no bit at or above `CW`. -/
theorem containerOk_withField {st : SchemaStore} {d : Data} {idx : Fin 128} {c : Data}
    (hin : Fdesc.hiAt d idx.val < st.cw.val) (hc : ContainerOk st c) (v : Data) :
    ContainerOk st (withField d idx c v) := by
  rw [containerOk_iff_getLsbD] at hc ⊢
  intro j hj hle
  rw [getLsbD_withField_outside c v hj (.inr (hin.trans_le hle)), hc j hj hle]

/-- Settles O35: a completed FSET was admitted, and every instance of a valid schema's field ends below `CW`. -/
theorem fsetKeepsTheContainerWellFormed : Obligations.FsetKeepsTheContainerWellFormed := by
  intro s t rd rs1 rs2 fid idx hinv hc ht hok
  obtain ⟨⟨hready, hv, -, hidx⟩, p, -, rfl⟩ := pattern_of_fset_ok rd rs1 rs2 ht hok
  obtain ⟨hs, -⟩ := hinv.readyValid hready
  have hin : Fdesc.hiAt s.store.ft[fid].desc idx.val < s.store.cw.val := (hs.fields fid hv).inside _ hidx
  rw [State.done_store, State.setReg_store, State.noteReads_store, reg_setReg_done]
  exact containerOk_withField hin hc p

end Sys2Proof.Machine
end

section
/-! PROOFS. SCOMMIT: what the validator finds is the first failing check in the order of 45_schema.md R162, and how the
command ends when it finds one and when it finds none. -/

namespace Sys2Proof.Machine

open Sys2Proof.Safety

/-! ## Searches stop at the least answer -/

/-- A search of all indices answers what the least index that answers does. -/
theorem findSome?_finRange_of_least {n : Nat} {α : Type} {f : Fin n → Option α} {i : Fin n} {a : α}
    (hi : f i = some a) (hn : ∀ j < i, f j = none) : (List.finRange n).findSome? f = some a := by
  cases hb : (List.finRange n).findSome? f with
  | none =>
    rw [List.findSome?_eq_none_iff.1 hb i (List.mem_finRange i)] at hi
    cases hi
  | some b =>
    obtain ⟨k, hk, hkn⟩ := findSome?_finRange_eq_some hb
    rcases lt_trichotomy k i with hl | rfl | hl
    · rw [hn k hl] at hk; cases hk
    · rw [← hk, hi]
    · rw [hkn i hl] at hi; cases hi

theorem find?_finRange_of_least {n : Nat} {p : Fin n → Bool} {i : Fin n} (hi : p i = true)
    (hn : ∀ j < i, ¬p j = true) : (List.finRange n).find? p = some i := by
  rw [← List.findSome?_guard]
  exact findSome?_finRange_of_least (if_pos hi) fun j hj => if_neg (hn j hj)

/-! ## The reported error of a check (45_schema.md R159, R160) -/

/-- What the validator answers for a check that fails first. -/
def errorOf (st : SchemaStore) : FailingCheck → SchemaError
  | .latched => ⟨st.serr.check, st.serr.obj1, st.serr.obj2⟩
  | .noContainer => schemaError 3 0 0
  | .defaultRange => schemaError 4 0 0
  | .discriminantRange e j => schemaError 5 e.val j.val
  | .discriminantDuplicate e j => schemaError 6 e.val j.val
  | .notExhaustive e => schemaError 7 e.val 0
  | .reserved f => schemaError 8 f.val 0
  | .range f => schemaError 9 f.val 0
  | .repetition f => schemaError 10 f.val 0
  | .bounds f => schemaError 11 f.val 0
  | .kind f => schemaError 12 f.val 0
  | .overlap f g => schemaError 13 f.val g.val

theorem toNat_info_schemaError {c a b : Nat} (hc : c < 256) (ha : a < 256) (hb : b < 256) :
    (schemaError c a b).info.toNat = c + 256 * a + 65536 * b := by
  rw [SchemaError.toNat_info]
  simp only [schemaError, BitVec.toNat_ofNat]
  rw [Nat.mod_eq_of_lt hc, Nat.mod_eq_of_lt ha, Nat.mod_eq_of_lt hb]

theorem toNat_info_errorOf (st : SchemaStore) (c : FailingCheck) : (errorOf st c).info.toNat = c.report st := by
  cases c with
  | latched => exact SchemaError.toNat_info _
  | noContainer | defaultRange => exact toNat_info_schemaError (by decide) (by decide) (by decide)
  | discriminantRange e j | discriminantDuplicate e j =>
    exact toNat_info_schemaError (by decide) (e.isLt.trans (by decide)) j.isLt
  | notExhaustive e => exact toNat_info_schemaError (by decide) (e.isLt.trans (by decide)) (by decide)
  | reserved f | range f | repetition f | bounds f | kind f =>
    exact toNat_info_schemaError (by decide) (f.isLt.trans (by decide)) (by decide)
  | overlap f g => exact toNat_info_schemaError (by decide) (f.isLt.trans (by decide)) (g.isLt.trans (by decide))

/-! ## The conditions of the checks as the validator tests them (45_schema.md R167 to R173) -/

section
variable (st : SchemaStore)

theorem fails_discriminantRange_iff (e : EnumId) (j : Fin Config.nv) : (FailingCheck.discriminantRange e j).fails st ↔
    st.et[e].valid = true ∧ j.val < st.et[e].nvar.val ∧ st.et[e].outOfRange j.val = true := by
  rw [EnumSlot.outOfRange_iff]; rfl

theorem fails_discriminantDuplicate_iff (e : EnumId) (j : Fin Config.nv) :
    (FailingCheck.discriminantDuplicate e j).fails st ↔
      st.et[e].valid = true ∧ j.val < st.et[e].nvar.val ∧ st.et[e].duplicate j.val = true := by
  rw [EnumSlot.duplicate_iff]; rfl

theorem fails_notExhaustive_iff (e : EnumId) :
    (FailingCheck.notExhaustive e).fails st ↔ st.et[e].valid = true ∧ st.et[e].notExhaustive = true := by
  rw [EnumSlot.notExhaustive_iff]; rfl

theorem fails_reserved_iff (f : FieldId) :
    (FailingCheck.reserved f).fails st ↔ st.ft[f].valid = true ∧ fieldReserved st.ft[f].desc = true := by
  rw [fieldReserved_iff]; rfl

theorem fails_range_iff (f : FieldId) :
    (FailingCheck.range f).fails st ↔ st.ft[f].valid = true ∧ fieldRange st.ft[f].desc = true := by
  rw [fieldRange_iff]; rfl

theorem fails_repetition_iff (f : FieldId) :
    (FailingCheck.repetition f).fails st ↔ st.ft[f].valid = true ∧ fieldRepeat st.ft[f].desc = true := by
  rw [fieldRepeat_iff]; rfl

theorem fails_bounds_iff (f : FieldId) :
    (FailingCheck.bounds f).fails st ↔ st.ft[f].valid = true ∧ fieldBounds st.cw.val st.ft[f].desc = true := by
  rw [fieldBounds_iff]; rfl

/-- Check 12 speaks of a KIND that check 8 has passed. -/
theorem fails_kind_iff {f : FieldId} (h : ¬fieldReserved st.ft[f].desc = true) :
    (FailingCheck.kind f).fails st ↔ st.ft[f].valid = true ∧ fieldKind st st.ft[f].desc = true := by
  have hk : (Fdesc.kindBits st.ft[f].desc).toNat ≤ 4 := by
    by_contra hk
    exact h ((fieldReserved_iff _).2 (.inr (.inr (.inl (by omega)))))
  rw [fieldKind_iff st _ hk]; rfl

theorem fails_overlap_iff {f g : FieldId} (hf : st.ft[f].valid = true) :
    (FailingCheck.overlap f g).fails st ↔ (decide (g < f) && overlapsWith st f g) = true := by
  simp only [overlapsWith, Bool.and_eq_true, decide_eq_true_eq, fieldsOverlap_iff_shared_bit, FailingCheck.fails, hf,
    true_and]

end

/-! ## Stages with no failing check (45_schema.md R162) -/

section
variable {st : SchemaStore} {c : FailingCheck} (h : FirstFailing st c)
include h

/-- Every check before the first failing one passes. -/
theorem passes_of_place_lt (c' : FailingCheck) (hlt : c'.place < c.place) : ¬c'.fails st :=
  fun hf => absurd (h.2 c' hf) (Nat.not_le.2 hlt)

theorem latchedError_eq_none_of_place (hp : 1 ≤ c.place) : latchedError st = none :=
  (latchedError_eq_none_iff st).2 (not_not.1 (passes_of_place_lt h .latched hp))

theorem containerError_eq_none_of_place (hp : 3 ≤ c.place) : containerError st = none := by
  have hset : ¬st.cwSet = false := passes_of_place_lt h .noContainer (show 1 < _ by omega)
  have hfit : ¬2 ^ st.cw.val ≤ st.dflt.toNat := passes_of_place_lt h .defaultRange (show 2 < _ by omega)
  exact (containerError_eq_none_iff st).2 ⟨eq_true_of_ne_false hset, Nat.not_le.1 hfit⟩

/-- Check 5 of a variant that comes before. -/
theorem not_outOfRange_of_place {e : EnumId} (hv : st.et[e].valid = true) {j : Nat} (hj : j < st.et[e].nvar.val)
    (hp : 10000 + 1000 * e.val + j < c.place) : ¬st.et[e].outOfRange j = true := by
  have hj' : j < 256 := hj.trans_le (EnumSlot.nvar_le _)
  exact fun ho =>
    passes_of_place_lt h (.discriminantRange e ⟨j, hj'⟩) hp ((fails_discriminantRange_iff ..).2 ⟨hv, hj, ho⟩)

/-- Check 6 of a variant that comes before. -/
theorem not_duplicate_of_place {e : EnumId} (hv : st.et[e].valid = true) {j : Nat} (hj : j < st.et[e].nvar.val)
    (hp : 10000 + 1000 * e.val + 256 + j < c.place) : ¬st.et[e].duplicate j = true := by
  have hj' : j < 256 := hj.trans_le (EnumSlot.nvar_le _)
  exact fun hd =>
    passes_of_place_lt h (.discriminantDuplicate e ⟨j, hj'⟩) hp ((fails_discriminantDuplicate_iff ..).2 ⟨hv, hj, hd⟩)

theorem find?_outOfRange_eq_none_of_place {e : EnumId} (hv : st.et[e].valid = true)
    (hp : 10000 + 1000 * e.val + 255 < c.place) : (List.range st.et[e].nvar.val).find? st.et[e].outOfRange = none := by
  refine List.find?_eq_none.2 fun j hj => not_outOfRange_of_place h hv (List.mem_range.1 hj) ?_
  have := (List.mem_range.1 hj).trans_le (EnumSlot.nvar_le _)
  omega

theorem find?_duplicate_eq_none_of_place {e : EnumId} (hv : st.et[e].valid = true)
    (hp : 10000 + 1000 * e.val + 511 < c.place) : (List.range st.et[e].nvar.val).find? st.et[e].duplicate = none := by
  refine List.find?_eq_none.2 fun j hj => not_duplicate_of_place h hv (List.mem_range.1 hj) ?_
  have := (List.mem_range.1 hj).trans_le (EnumSlot.nvar_le _)
  omega

theorem enumError_eq_none_of_place {e : EnumId} (hp : 10000 + 1000 * e.val + 512 < c.place) :
    enumError st e = none := by
  by_cases hv : st.et[e].valid = true
  · have hexh : ¬st.et[e].notExhaustive = true := fun hn =>
      passes_of_place_lt h (.notExhaustive e) hp ((fails_notExhaustive_iff ..).2 ⟨hv, hn⟩)
    simp only [enumError, hv, if_true, find?_outOfRange_eq_none_of_place h hv (by omega),
      find?_duplicate_eq_none_of_place h hv (by omega), if_neg hexh]
  · exact if_neg hv

theorem not_reserved_of_place {f : FieldId} (hv : st.ft[f].valid = true) (hp : 30000 + 10 * f.val < c.place) :
    ¬fieldReserved st.ft[f].desc = true :=
  fun hr => passes_of_place_lt h (.reserved f) hp ((fails_reserved_iff ..).2 ⟨hv, hr⟩)

theorem not_range_of_place {f : FieldId} (hv : st.ft[f].valid = true) (hp : 30000 + 10 * f.val + 1 < c.place) :
    ¬fieldRange st.ft[f].desc = true :=
  fun hr => passes_of_place_lt h (.range f) hp ((fails_range_iff ..).2 ⟨hv, hr⟩)

theorem not_repeat_of_place {f : FieldId} (hv : st.ft[f].valid = true) (hp : 30000 + 10 * f.val + 2 < c.place) :
    ¬fieldRepeat st.ft[f].desc = true :=
  fun hr => passes_of_place_lt h (.repetition f) hp ((fails_repetition_iff ..).2 ⟨hv, hr⟩)

theorem not_bounds_of_place {f : FieldId} (hv : st.ft[f].valid = true) (hp : 30000 + 10 * f.val + 3 < c.place) :
    ¬fieldBounds st.cw.val st.ft[f].desc = true :=
  fun hb => passes_of_place_lt h (.bounds f) hp ((fails_bounds_iff ..).2 ⟨hv, hb⟩)

theorem fieldError_eq_none_of_place {f : FieldId} (hp : 30000 + 10 * f.val + 4 < c.place) : fieldError st f = none := by
  refine (fieldError_eq_none_iff st f).2 fun hv => ?_
  have hres := not_reserved_of_place h hv (by omega)
  exact (fieldValid_iff ..).2 ⟨hres, not_range_of_place h hv (by omega), not_repeat_of_place h hv (by omega),
    not_bounds_of_place h hv (by omega),
    fun hk => passes_of_place_lt h (.kind f) hp ((fails_kind_iff st hres).2 ⟨hv, hk⟩)⟩

theorem overlapError_eq_none_of_place {f : FieldId} (hp : 40000 + 64 * f.val + 63 < c.place) :
    overlapError st f = none := by
  refine (overlapError_eq_none_iff st f).2 fun g => passes_of_place_lt h (.overlap f g) ?_
  have := FieldId.val_lt g
  show 40000 + 64 * f.val + g.val < c.place
  omega

/-! ## The stage of the first failing check (45_schema.md R162) -/

theorem firstError_of_enumError {e : EnumId} {x : SchemaError} (hp : 10000 + 1000 * e.val ≤ c.place)
    (hx : enumError st e = some x) : firstError st = some x := by
  have hs : (List.finRange Config.ne).findSome? (enumError st) = some x :=
    findSome?_finRange_of_least hx fun e' hlt => enumError_eq_none_of_place h (by omega)
  rw [firstError, latchedError_eq_none_of_place h (by omega), containerError_eq_none_of_place h (by omega), hs]
  rfl

theorem enumErrors_eq_none_of_place (hp : 30000 ≤ c.place) :
    (List.finRange Config.ne).findSome? (enumError st) = none := by
  refine List.findSome?_eq_none_iff.2 fun e _ => enumError_eq_none_of_place h ?_
  have := EnumId.val_lt e
  omega

theorem firstError_of_fieldError {f : FieldId} {x : SchemaError} (hp : 30000 + 10 * f.val ≤ c.place)
    (hx : fieldError st f = some x) : firstError st = some x := by
  have hs : (List.finRange Config.nf).findSome? (fieldError st) = some x :=
    findSome?_finRange_of_least hx fun f' hlt => fieldError_eq_none_of_place h (by omega)
  rw [firstError, latchedError_eq_none_of_place h (by omega), containerError_eq_none_of_place h (by omega),
    enumErrors_eq_none_of_place h (by omega), hs]
  rfl

theorem firstError_of_overlapError {f : FieldId} {x : SchemaError} (hp : 40000 + 64 * f.val ≤ c.place)
    (hx : overlapError st f = some x) : firstError st = some x := by
  have hfields : (List.finRange Config.nf).findSome? (fieldError st) = none := by
    refine List.findSome?_eq_none_iff.2 fun f' _ => fieldError_eq_none_of_place h ?_
    have := FieldId.val_lt f'
    omega
  have hs : (List.finRange Config.nf).findSome? (overlapError st) = some x :=
    findSome?_finRange_of_least hx fun f' hlt => overlapError_eq_none_of_place h (by omega)
  rw [firstError, latchedError_eq_none_of_place h (by omega), containerError_eq_none_of_place h (by omega),
    enumErrors_eq_none_of_place h (by omega), hfields, hs]
  rfl

end

/-! ## The first failing check of a slot -/

section
variable {st : SchemaStore}

theorem enumError_of_discriminantRange {e : EnumId} {j : Fin Config.nv} (h : FirstFailing st (.discriminantRange e j)) :
    enumError st e = some (schemaError 5 e.val j.val) := by
  obtain ⟨hv, hj, ho⟩ := (fails_discriminantRange_iff ..).1 h.1
  have hfind := List.find?_range_eq_some.2 ⟨ho, List.mem_range.2 hj, fun i hi => by
    simpa using not_outOfRange_of_place h hv (hi.trans hj) (Nat.add_lt_add_left hi _)⟩
  simp only [enumError, hv, if_true, hfind]

theorem enumError_of_discriminantDuplicate {e : EnumId} {j : Fin Config.nv}
    (h : FirstFailing st (.discriminantDuplicate e j)) : enumError st e = some (schemaError 6 e.val j.val) := by
  have hp : (FailingCheck.discriminantDuplicate e j).place = 10000 + 1000 * e.val + 256 + j.val := rfl
  obtain ⟨hv, hj, hd⟩ := (fails_discriminantDuplicate_iff ..).1 h.1
  have hrange := find?_outOfRange_eq_none_of_place h hv (by omega)
  have hfind := List.find?_range_eq_some.2 ⟨hd, List.mem_range.2 hj, fun i hi => by
    simpa using not_duplicate_of_place h hv (hi.trans hj) (Nat.add_lt_add_left hi _)⟩
  simp only [enumError, hv, if_true, hrange, hfind]

theorem enumError_of_notExhaustive {e : EnumId} (h : FirstFailing st (.notExhaustive e)) :
    enumError st e = some (schemaError 7 e.val 0) := by
  have hp : (FailingCheck.notExhaustive e).place = 10000 + 1000 * e.val + 512 := rfl
  obtain ⟨hv, hn⟩ := (fails_notExhaustive_iff ..).1 h.1
  have hrange := find?_outOfRange_eq_none_of_place h hv (by omega)
  have hdup := find?_duplicate_eq_none_of_place h hv (by omega)
  simp only [enumError, hv, if_true, hrange, hdup, hn]

/-- The five checks of a declared field, one after the other. -/
theorem fieldError_of_declared {f : FieldId} (hv : st.ft[f].valid = true) :
    fieldError st f = if fieldReserved st.ft[f].desc then some (schemaError 8 f.val 0)
      else if fieldRange st.ft[f].desc then some (schemaError 9 f.val 0)
      else if fieldRepeat st.ft[f].desc then some (schemaError 10 f.val 0)
      else if fieldBounds st.cw.val st.ft[f].desc then some (schemaError 11 f.val 0)
      else if fieldKind st st.ft[f].desc then some (schemaError 12 f.val 0)
      else none := if_pos hv

theorem fieldError_of_reserved {f : FieldId} (h : FirstFailing st (.reserved f)) :
    fieldError st f = some (schemaError 8 f.val 0) := by
  obtain ⟨hv, hr⟩ := (fails_reserved_iff ..).1 h.1
  rw [fieldError_of_declared hv, if_pos hr]

theorem fieldError_of_range {f : FieldId} (h : FirstFailing st (.range f)) :
    fieldError st f = some (schemaError 9 f.val 0) := by
  obtain ⟨hv, hr⟩ := (fails_range_iff ..).1 h.1
  rw [fieldError_of_declared hv, if_neg (not_reserved_of_place h hv (Nat.lt_succ_self _)), if_pos hr]

theorem fieldError_of_repetition {f : FieldId} (h : FirstFailing st (.repetition f)) :
    fieldError st f = some (schemaError 10 f.val 0) := by
  have hp : (FailingCheck.repetition f).place = 30000 + 10 * f.val + 2 := rfl
  obtain ⟨hv, hr⟩ := (fails_repetition_iff ..).1 h.1
  rw [fieldError_of_declared hv, if_neg (not_reserved_of_place h hv (by omega)),
    if_neg (not_range_of_place h hv (by omega)), if_pos hr]

theorem fieldError_of_bounds {f : FieldId} (h : FirstFailing st (.bounds f)) :
    fieldError st f = some (schemaError 11 f.val 0) := by
  have hp : (FailingCheck.bounds f).place = 30000 + 10 * f.val + 3 := rfl
  obtain ⟨hv, hb⟩ := (fails_bounds_iff ..).1 h.1
  rw [fieldError_of_declared hv, if_neg (not_reserved_of_place h hv (by omega)),
    if_neg (not_range_of_place h hv (by omega)), if_neg (not_repeat_of_place h hv (by omega)), if_pos hb]

theorem fieldError_of_kind {f : FieldId} (h : FirstFailing st (.kind f)) :
    fieldError st f = some (schemaError 12 f.val 0) := by
  have hp : (FailingCheck.kind f).place = 30000 + 10 * f.val + 4 := rfl
  have hv : st.ft[f].valid = true := h.1.1
  have hres := not_reserved_of_place h hv (by omega)
  rw [fieldError_of_declared hv, if_neg hres, if_neg (not_range_of_place h hv (by omega)),
    if_neg (not_repeat_of_place h hv (by omega)), if_neg (not_bounds_of_place h hv (by omega)),
    if_pos ((fails_kind_iff st hres).1 h.1).2]

theorem overlapError_of_overlap {f g : FieldId} (h : FirstFailing st (.overlap f g)) :
    overlapError st f = some (schemaError 13 f.val g.val) := by
  have hf : st.ft[f].valid = true := h.1.2.1
  have hleast : ∀ g' < g, ¬(decide (g' < f) && overlapsWith st f g') = true := fun g' hlt ho =>
    passes_of_place_lt h (.overlap f g') (Nat.add_lt_add_left hlt _) ((fails_overlap_iff st hf).2 ho)
  have hfind := find?_finRange_of_least ((fails_overlap_iff st hf).1 h.1) hleast
  rw [overlapError, if_pos hf, hfind]

/-- The validator reports the first failing check. -/
theorem firstError_of_firstFailing {c : FailingCheck} (h : FirstFailing st c) :
    firstError st = some (errorOf st c) := by
  cases c with
  | latched =>
    have hl : st.serr.pending = true := bne_iff_ne.2 h.1
    rw [firstError, latchedError, if_pos hl]
    rfl
  | noContainer =>
    have hc : containerError st = some (schemaError 3 0 0) := if_pos (Bool.not_eq_true' _ ▸ h.1)
    rw [firstError, latchedError_eq_none_of_place h le_rfl, hc]
    rfl
  | defaultRange =>
    have hset : ¬st.cwSet = false := passes_of_place_lt h .noContainer (Nat.lt_succ_self 1)
    have hc : containerError st = some (schemaError 4 0 0) := (if_neg (by simpa using hset)).trans (if_pos h.1)
    rw [firstError, latchedError_eq_none_of_place h (by decide), hc]
    rfl
  | discriminantRange e j => exact firstError_of_enumError h (Nat.le_add_right ..) (enumError_of_discriminantRange h)
  | discriminantDuplicate e j =>
    exact firstError_of_enumError h ((Nat.le_add_right ..).trans (Nat.le_add_right ..))
      (enumError_of_discriminantDuplicate h)
  | notExhaustive e => exact firstError_of_enumError h (Nat.le_add_right ..) (enumError_of_notExhaustive h)
  | reserved f => exact firstError_of_fieldError h le_rfl (fieldError_of_reserved h)
  | range f => exact firstError_of_fieldError h (Nat.le_add_right ..) (fieldError_of_range h)
  | repetition f => exact firstError_of_fieldError h (Nat.le_add_right ..) (fieldError_of_repetition h)
  | bounds f => exact firstError_of_fieldError h (Nat.le_add_right ..) (fieldError_of_bounds h)
  | kind f => exact firstError_of_fieldError h (Nat.le_add_right ..) (fieldError_of_kind h)
  | overlap f g => exact firstError_of_overlapError h (Nat.le_add_right ..) (overlapError_of_overlap h)

end

/-! ## SCOMMIT (45_schema.md R161, R165) -/

/-- SCOMMIT that finds nothing. -/
theorem scommit_accepted {s : State} (hp : s.phase = .config) (he : firstError s.store = none) :
    exec .scommit s = .next (s.setPhase .ready).done := by
  show execScommit s = _
  rw [execScommit, admitIn_of_phase hp, he]
  rfl

/-- SCOMMIT that finds an error. -/
theorem scommit_rejected {s : State} {e : SchemaError} (hp : s.phase = .config) (he : firstError s.store = some e) :
    exec .scommit s = .next ((s.setPhase .failed).failWith ⟨.schema, e.info⟩) := by
  show execScommit s = _
  rw [execScommit, admitIn_of_phase hp, he]
  rfl

/-- Settles O44: the validator finds nothing exactly when the latch is empty and the schema valid. -/
theorem scommitAcceptsExactlyTheValidSchemas : Obligations.ScommitAcceptsExactlyTheValidSchemas := by
  refine ⟨encoded_any (op := Opcode.scommit) (by decide) rfl fun w => rfl, fun s hp => ?_⟩
  rw [← firstError_eq_none_iff]
  cases he : firstError s.store with
  | none =>
    exact ⟨_, scommit_accepted hp he, rfl, iff_of_true rfl rfl,
      fun _ => ⟨rfl, ⟨rfl, rfl⟩, ⟨rfl, rfl⟩, ⟨rfl, rfl⟩, markAfter_nil rfl⟩⟩
  | some e => exact ⟨_, scommit_rejected hp he, rfl, iff_of_false nofun nofun, nofun⟩

/-- Settles O45: the error reported is that of the first failing check. -/
theorem scommitReportsTheFirstFailingCheck : Obligations.ScommitReportsTheFirstFailingCheck := fun s c hp hc =>
  ⟨_, scommit_rejected hp (firstError_of_firstFailing hc), rfl, recorded_failWith rfl (toNat_info_errorOf s.store c),
    ⟨rfl, rfl⟩, rfl, ⟨rfl, rfl⟩, markAfter_nil rfl⟩

end Sys2Proof.Machine
end

section
/-! PROOFS. The loading commands: what each leaves in the schema store in CONFIG, slot by slot, and that every command
with one phase of its own raises PHASE outside it. -/

namespace Sys2Proof.Machine

open Sys2Proof.Safety

/-! ## Outside the phase (45_schema.md R151, R165, 60_exceptions.md R193) -/

/-- A command outside its one phase notes its reads and raises PHASE. -/
theorem exec_of_outside_phase {i : Instr} {s : State} {p : Phase} (hp : admittedIn i = some p) (hs : s.phase ≠ p) :
    exec i s = .next ((s.noteReads (registersRead i)).failWith ⟨.phase, phaseInfo i.opcode s.phase⟩) := by
  cases i with
  | cnew rd => cases hp; exact cnew_refused rd hs
  | cload rd rs1 => cases hp; exact cload_refused rd rs1 hs
  | fget => cases hp; exact fget_refused (admitAccess_of_not_ready hs)
  | fset => cases hp; exact fset_refused (admitAccess_of_not_ready hs)
  | edec rd rs1 => cases hp; exact edec_refused rd rs1 (by rw [admitIn_of_ne hs]; rfl)
  | eenc rd rs1 => cases hp; exact eenc_refused rd rs1 (by rw [admitIn_of_ne hs]; rfl)
  | scont | sfield | senum | svar | scommit =>
    cases hp
    simp only [exec, execScont, execSfield, execSenum, execSvar, execScommit, admitIn_of_ne hs]
    rfl
  | mov | li | lic | mask | rmask | extr | ins | sext | wnorm | wcmp | sbegin | rdcsr | clrs => cases hp

/-- Settles O48: the ending is PHASE, whatever the command. -/
theorem commandOutsideItsPhaseRaisesPhase : Obligations.CommandOutsideItsPhaseRaisesPhase := fun i s _ hp hs =>
  ⟨_, exec_of_outside_phase hp hs, failedPhase s (registersRead i) i.opcode⟩

/-! ## Declarations in CONFIG (45_schema.md R152 to R155) -/

/-- A declaration in CONFIG notes its reads and leaves its store. -/
theorem exec_of_declaredStore {i : Instr} {s : State} {st : SchemaStore} (hp : s.phase = .config)
    (hd : declaredStore i s = some st) : exec i s = .next ((s.noteReads (registersRead i)).setStore st).done := by
  cases i with
  | scont | sfield | senum | svar =>
    cases hd
    simp only [exec, execScont, execSfield, execSenum, execSvar, admitIn_of_phase hp]
    rfl
  | mov | li | lic | mask | rmask | extr | ins | sext | wnorm | wcmp | cnew | cload | fget | fset | edec | eenc | sbegin
  | scommit | rdcsr | clrs => cases hd

/-- A declaration in CONFIG completes with OK and changes the schema store alone. -/
theorem changedSchema_of_declaredStore {i : Instr} {s : State} {st : SchemaStore} (hp : s.phase = .config)
    (hd : declaredStore i s = some st) :
    ∃ t, exec i s = .next t ∧ ChangedSchema s t (registersRead i) ∧ t.phase = s.phase ∧ t.store = st :=
  ⟨_, exec_of_declaredStore hp hd, changedSchema s _ st, by simp, rfl⟩

/-! ## The declared store, slot by slot -/

theorem getElem_set_slot {α : Type} {n : Nat} (v : Vector α n) (i j : Fin n) (x : α) :
    (v.set i x)[j] = if j = i then x else v[j] := by
  simp only [Fin.getElem_fin, Vector.getElem_set, Fin.ext_iff, eq_comm]

section
variable (st : SchemaStore)

theorem SchemaStore.declareField_ft (fid g : FieldId) (d : Data) :
    (st.declareField fid d).ft[g] = if g = fid then ⟨true, d⟩ else st.ft[g] := getElem_set_slot ..

theorem SchemaStore.declareEnum_et (eid g : EnumId) (w : Nat) (exh : Bool) :
    (st.declareEnum eid w exh).et[g] =
      if g = eid then { EnumSlot.empty with valid := true, w := Fin.ofNat 129 w, exh := exh } else st.et[g] :=
  getElem_set_slot ..

/-- A width operand is stored as it is. -/
theorem val_ofNat_width {w : Nat} (h : w ≤ 128) : (Fin.ofNat 129 w).val = w := Nat.mod_eq_of_lt (by omega)

/-! ## SVAR's three cases (45_schema.md R155 to R158) -/

variable {st} {eid : EnumId} (d : Data)

theorem SchemaStore.addVariant_of_undeclared (hv : st.et[eid].valid = false) : st.addVariant eid d = st.latch 1 eid :=
  if_pos (by rw [hv]; rfl)

theorem SchemaStore.addVariant_of_full (hv : st.et[eid].valid = true) (hn : st.et[eid].nvar.val = 256) :
    st.addVariant eid d = st.latch 2 eid :=
  (if_neg (by rw [hv]; decide)).trans (dif_neg (by rw [hn]; decide))

theorem SchemaStore.addVariant_of_room (hv : st.et[eid].valid = true) (hn : st.et[eid].nvar.val < 256) :
    st.addVariant eid d = { st with et := st.et.set eid (st.et[eid].append hn d) } :=
  (if_neg (by rw [hv]; decide)).trans (dif_pos hn)

theorem SchemaStore.addVariant_et_of_room (hv : st.et[eid].valid = true) (hn : st.et[eid].nvar.val < 256) (g : EnumId) :
    (st.addVariant eid d).et[g] = if g = eid then st.et[eid].append hn d else st.et[g] := by
  rw [addVariant_of_room d hv hn]
  exact getElem_set_slot ..

/-- `latch` writes an empty latch and keeps a written one (R156). -/
theorem latched_latch (c : BitVec 8) : Latched st (st.latch c eid) c.toNat eid.val := by
  have := EnumId.val_lt eid
  by_cases hc : st.serr.check = 0
  · have hl : st.latch c eid = { st with serr := ⟨c, BitVec.ofNat 8 eid.val, 0⟩ } :=
      if_neg (by simp [SchemaLatch.pending, hc])
    rw [hl]
    exact ⟨rfl, fun h => absurd hc h, fun _ => ⟨rfl, Nat.mod_eq_of_lt (by omega), rfl⟩⟩
  · have hl : st.latch c eid = st := if_pos (bne_iff_ne.2 hc)
    rw [hl]
    exact ⟨rfl, fun _ => rfl, fun h => absurd h hc⟩

end

/-! ## The claims -/

/-- Settles O39: the store is the empty one, whatever the phase. -/
theorem sbeginEmptiesTheSchema : Obligations.SbeginEmptiesTheSchema :=
  ⟨encoded_any (op := Opcode.sbegin) (by decide) rfl fun _ => rfl, fun s =>
    ⟨_, rfl, changedSchema (s.setPhase .config) [] SchemaStore.empty, rfl, storeEmptied_empty⟩⟩

/-- Settles O40: SCONT's store is the declared container. -/
theorem scontDeclaresTheContainer : Obligations.ScontDeclaresTheContainer := by
  refine ⟨encoded_any (op := Opcode.scont) (by decide) rfl fun w => ?_,
    fun s rs1 cw _ hle => ⟨fun hp => ?_, fun hp => ?_⟩⟩
  · rw [rs1Of_eq, widthOf_eq]
  · obtain ⟨t, ht, hch, hph, hst⟩ := changedSchema_of_declaredStore (i := .scont rs1 cw) hp rfl
    exact ⟨t, ht, hch, hph, hst ▸ val_ofNat_width hle, by rw [hst]; rfl⟩
  · exact commandOutsideItsPhaseRaisesPhase (.scont rs1 cw) s .config rfl hp

/-- Settles O41: SFIELD's store has the descriptor in its slot. -/
theorem sfieldDeclaresTheField : Obligations.SfieldDeclaresTheField := by
  refine ⟨encoded_any (op := Opcode.sfield) (by decide) rfl fun w => ?_, fun s fid rs1 => ⟨fun hp => ?_, fun hp => ?_⟩⟩
  · rw [fidOf_eq, rs1Of_eq]
  · obtain ⟨t, ht, hch, hph, hst⟩ := changedSchema_of_declaredStore (i := .sfield fid rs1) hp rfl
    refine ⟨t, ht, hch, hph, ?_, fun g hg => ?_, by rw [hst]; rfl⟩
    · rw [hst, SchemaStore.declareField_ft, if_pos rfl]
    · rw [hst, SchemaStore.declareField_ft, if_neg hg]
  · exact commandOutsideItsPhaseRaisesPhase (.sfield fid rs1) s .config rfl hp

/-- Settles O42: SENUM's store has an enum without variants in its slot. -/
theorem senumDeclaresTheEnum : Obligations.SenumDeclaresTheEnum := by
  refine ⟨encoded_any (op := Opcode.senum) (by decide) rfl fun w => ?_,
    fun s eid w exh _ hle => ⟨fun hp => ?_, fun hp => ?_⟩⟩
  · rw [eidOf_eq, widthOf_eq, exhOf_eq]
  · obtain ⟨t, ht, hch, hph, hst⟩ := changedSchema_of_declaredStore (i := .senum eid w exh) hp rfl
    have hself := (SchemaStore.declareEnum_et s.store eid eid w exh).trans (if_pos rfl)
    refine ⟨t, ht, hch, hph, ?_⟩
    rw [hst, hself]
    refine ⟨rfl, val_ofNat_width hle, rfl, rfl, fun j _ => EnumSlot.empty_disc j, fun g hg => ?_, rfl⟩
    rw [SchemaStore.declareEnum_et, if_neg hg]
  · exact commandOutsideItsPhaseRaisesPhase (.senum eid w exh) s .config rfl hp

/-- Settles O43: SVAR's store in its three cases. -/
theorem svarAppendsAVariantOrLatches : Obligations.SvarAppendsAVariantOrLatches := by
  refine ⟨encoded_any (op := Opcode.svar) (by decide) rfl fun w => ?_, fun s eid rs1 => ⟨fun hp => ?_, fun hp => ?_⟩⟩
  · rw [eidOf_eq, rs1Of_eq]
  · exact commandOutsideItsPhaseRaisesPhase (.svar eid rs1) s .config rfl hp
  · obtain ⟨t, ht, hch, hph, hst⟩ := changedSchema_of_declaredStore (i := .svar eid rs1) hp rfl
    refine ⟨t, ht, hch, hph, fun hv => ?undeclared, fun hv hn => ?full, fun hv hn => ?room⟩
    case undeclared =>
      rw [hst, SchemaStore.addVariant_of_undeclared _ hv]
      exact latched_latch 1
    case full =>
      rw [hst, SchemaStore.addVariant_of_full _ hv hn]
      exact latched_latch 2
    case room =>
      have hroom : s.store.et[eid].nvar.val < 256 := lt_of_le_of_ne (EnumSlot.nvar_le _) hn
      have hself : t.store.et[eid] = s.store.et[eid].append hroom (s.reg rs1) := by
        rw [hst, SchemaStore.addVariant_et_of_room _ hv hroom, if_pos rfl]
      refine ⟨by rw [hself]; rfl, ?_, fun j hj => ?_, by rw [hself]; rfl, fun g hg => ?_, ?_⟩
      · rw [hself, EnumSlot.append_disc, if_pos rfl]
      · rw [hself, EnumSlot.append_disc, if_neg hj]
      · rw [hst, SchemaStore.addVariant_et_of_room _ hv hroom, if_neg hg]
      · rw [hst, SchemaStore.addVariant_of_room _ hv hroom]

end Sys2Proof.Machine
end

section
/-! PROOFS. The invariant, kept by every step: a decoded command is well formed, the loading commands keep the schema
store as it should be, and every ending of a command and every host operation keeps the rest. -/

namespace Sys2Proof

/-! ## A decoded command is well formed (30_encoding.md R69, R79) -/

theorem widthOk_widthOf (w : Word) : widthOk (widthOf w) = true :=
  Bool.and_eq_true_iff.2 ⟨decide_eq_true (Nat.le_add_left 1 _), decide_eq_true (aOf w).isLt⟩

theorem wf_of_ok {a i : Instr} (h : (.ok a : Except Illegal Instr) = .ok i) (ha : a.wf = true) : i.wf = true :=
  Except.ok.inj h ▸ ha

theorem wf_of_ranged {w : Word} {mk : Fin 128 → Fin 128 → Instr} {i : Instr} (h : ranged w mk = .ok i)
    (hmk : ∀ lo hi, (mk lo hi).wf = rangeOk lo hi) : i.wf = true := by
  rw [ranged] at h
  split at h
  · next hle => exact wf_of_ok h ((hmk ..).trans (decide_eq_true hle))
  · cases h

theorem wf_of_rdcsrOperands {w : Word} {i : Instr} (h : rdcsrOperands w = .ok i) : i.wf = true := by
  rw [rdcsrOperands] at h
  split at h <;> cases h
  rfl

/-- What a row reads is well formed: its operands are fields in range, a width, an ordered range or a CSR number. -/
theorem wf_of_row : ∀ r ∈ opcodeRows, ∀ (w : Word) (i : Instr), r.operands w = .ok i → i.wf = true := by
  simp only [opcodeRows, moveAndRangeRows, accessorRows, schemaAndSystemRows, List.forall_mem_append,
    List.forall_mem_cons, List.not_mem_nil, false_implies, implies_true, and_true]
  refine ⟨⟨⟨?mov, ?li, ?lic, ?mask, ?rmask, ?extr, ?ins, ?sext⟩,
    ?wnorm, ?wcmp, ?cnew, ?cload, ?fget, ?fset, ?edec, ?eenc⟩,
    ?sbegin, ?scont, ?sfield, ?senum, ?svar, ?scommit, ?rdcsr, ?clrs⟩
  case mask | sext | wnorm | wcmp | scont | senum => exact fun w _ h => wf_of_ok h (widthOk_widthOf w)
  case rmask | extr | ins => exact fun _ _ h => wf_of_ranged h fun _ _ => rfl
  case rdcsr => exact fun _ _ h => wf_of_rdcsrOperands h
  case mov | li | lic | cnew | cload | fget | fset | edec | eenc | sbegin | sfield | svar | scommit | clrs =>
    exact fun _ _ h => wf_of_ok h rfl

theorem wf_of_decode {w : Word} {i : Instr} (h : decode w = .ok i) : i.wf = true := by
  obtain ⟨r, hr, -, hi⟩ := row_of_decode h
  exact wf_of_row r (List.mem_of_find?_eq_some hr) w i hi

end Sys2Proof

namespace Sys2Proof.Machine

open Sys2Proof.Safety

/-! ## The schema store (45_schema.md R150 to R158) -/

section
variable {st : SchemaStore} (h : StoreOk st)
include h

theorem storeOk_declareContainer {cw : Nat} (h1 : 1 ≤ cw) (hle : cw ≤ 128) (d : Data) :
    StoreOk (st.declareContainer cw d) where
  widthSet _ := h1.trans_eq (val_ofNat_width hle).symm
  widthUnset := nofun
  fieldEmpty := h.fieldEmpty
  enumEmpty := h.enumEmpty
  enumWidth := h.enumWidth
  enumTail := h.enumTail
  latchCheck := h.latchCheck
  latchEmpty := h.latchEmpty
  latchObject := h.latchObject

theorem storeOk_declareField (fid : FieldId) (d : Data) : StoreOk (st.declareField fid d) where
  widthSet := h.widthSet
  widthUnset := h.widthUnset
  fieldEmpty g hg := by
    rw [SchemaStore.declareField_ft] at hg ⊢
    split at hg
    · cases hg
    · next hne => rw [if_neg hne]; exact h.fieldEmpty g hg
  enumEmpty := h.enumEmpty
  enumWidth := h.enumWidth
  enumTail := h.enumTail
  latchCheck := h.latchCheck
  latchEmpty := h.latchEmpty
  latchObject := h.latchObject

/-- A declared enum put in a slot keeps the store as it should be, if its width and its tail are. -/
theorem storeOk_setEnum (eid : EnumId) {e : EnumSlot} (hv : e.valid = true) (hw : 1 ≤ e.w.val)
    (ht : ∀ j, e.nvar.val ≤ j → e.disc j = 0) : StoreOk { st with et := st.et.set eid e } where
  widthSet := h.widthSet
  widthUnset := h.widthUnset
  fieldEmpty := h.fieldEmpty
  enumEmpty g hg := by
    simp only [getElem_set_slot] at hg ⊢
    split at hg
    · rw [hv] at hg; cases hg
    · next hne => rw [if_neg hne]; exact h.enumEmpty g hg
  enumWidth g hg := by
    simp only [getElem_set_slot] at hg ⊢
    split
    · exact hw
    · next hne => rw [if_neg hne] at hg; exact h.enumWidth g hg
  enumTail g j hj := by
    simp only [getElem_set_slot] at hj ⊢
    split
    · next heq => rw [if_pos heq] at hj; exact ht j hj
    · next hne => rw [if_neg hne] at hj; exact h.enumTail g j hj
  latchCheck := h.latchCheck
  latchEmpty := h.latchEmpty
  latchObject := h.latchObject

theorem storeOk_declareEnum (eid : EnumId) {w : Nat} (h1 : 1 ≤ w) (hle : w ≤ 128) (exh : Bool) :
    StoreOk (st.declareEnum eid w exh) :=
  storeOk_setEnum h eid rfl (h1.trans_eq (val_ofNat_width hle).symm) fun j _ => EnumSlot.empty_disc j

theorem storeOk_of_latched {st' : SchemaStore} {c o : Nat} (hl : Latched st st' c o) (h1 : 1 ≤ c) (hc : c ≤ 2)
    (ho : o < 16) : StoreOk st' := by
  obtain ⟨heq, hkeep, hnew⟩ := hl
  by_cases hs : st.serr.check = 0
  · obtain ⟨hcheck, hobj1, hobj2⟩ := hnew hs
    generalize st'.serr = l at *
    subst heq
    exact { h with
      latchCheck := hcheck.trans_le hc
      latchEmpty := fun h0 => absurd (hcheck.symm.trans (congrArg BitVec.toNat h0)) (Nat.ne_of_gt h1)
      latchObject := ⟨hobj1.trans_lt ho, hobj2⟩ }
  · rw [hkeep hs] at heq
    exact heq ▸ h

theorem storeOk_addVariant (eid : EnumId) (d : Data) : StoreOk (st.addVariant eid d) := by
  cases hv : st.et[eid].valid with
  | false =>
    rw [SchemaStore.addVariant_of_undeclared d hv]
    exact storeOk_of_latched h (latched_latch 1) le_rfl (by decide) (EnumId.val_lt eid)
  | true =>
    by_cases hn : st.et[eid].nvar.val < 256
    · rw [SchemaStore.addVariant_of_room d hv hn]
      refine storeOk_setEnum h eid hv (h.enumWidth eid hv) fun j hj => ?_
      have hj' : st.et[eid].nvar.val < j := hj
      rw [EnumSlot.append_disc, if_neg (Nat.ne_of_gt hj')]
      exact h.enumTail eid j hj'.le
    · rw [SchemaStore.addVariant_of_full d hv (le_antisymm (EnumSlot.nvar_le _) (Nat.not_lt.1 hn))]
      exact storeOk_of_latched h (latched_latch 2) (by decide) le_rfl (EnumId.val_lt eid)

end

/-- What a well-formed declaration leaves is as it should be. -/
theorem storeOk_of_declaredStore {i : Instr} {s : State} {st : SchemaStore} (hwf : i.wf = true) (h : StoreOk s.store)
    (hd : declaredStore i s = some st) : StoreOk st := by
  have width {w : Nat} (hw : widthOk w = true) : 1 ≤ w ∧ w ≤ 128 := by
    simpa only [widthOk, Config.dw, Bool.and_eq_true, decide_eq_true_eq] using hw
  cases i with
  | scont rs1 cw => cases hd; exact storeOk_declareContainer h (width hwf).1 (width hwf).2 _
  | sfield fid rs1 => cases hd; exact storeOk_declareField h fid _
  | senum eid w exh => cases hd; exact storeOk_declareEnum h eid (width hwf).1 (width hwf).2 exh
  | svar eid rs1 => cases hd; exact storeOk_addVariant h eid _
  | mov | li | lic | mask | rmask | extr | ins | sext | wnorm | wcmp | cnew | cload | fget | fset | edec | eenc | sbegin
  | scommit | rdcsr | clrs => cases hd

/-! ## What the invariant depends on -/

/-- The invariant looks at STICKY, the phase and the store alone. -/
theorem inv_congr {s t : State} (h : Inv s) (hsticky : t.sticky = s.sticky) (hsame : SameSchema s t) : Inv t where
  stickyClear := hsticky ▸ h.stickyClear
  storeOk := hsame.2 ▸ h.storeOk
  readyValid hp := hsame.2 ▸ h.readyValid (hsame.1 ▸ hp)

/-- A failing outcome sets one of the STICKY bits 1 to 8 (60_exceptions.md R191, R192). -/
theorem inv_failWith {s : State} (h : Inv s) {e : Failure} (he : e.code ≠ .ok) : Inv (s.failWith e) where
  stickyClear b hb hunused := by
    have hcode : ∀ c : Code, c ≠ .ok → 1 ≤ codeNumber c ∧ codeNumber c ≤ 8 := by intro c; cases c <;> decide
    have := hcode e.code he
    rw [State.failWith_sticky, BitVec.getLsbD_or, h.stickyClear b hb hunused, e.code.getLsbD_stickyBit b hb]
    exact decide_eq_false (by omega)
  storeOk := h.storeOk
  readyValid := h.readyValid

/-! ## Commands -/

/-- Every ending of a well-formed command keeps the invariant. -/
theorem exec_keeps_inv {i : Instr} {s t : State} (hwf : i.wf = true) (h : Inv s) (ht : exec i s = .next t) : Inv t := by
  have hn : Inv (s.noteReads (registersRead i)) := inv_congr h (by simp) ⟨by simp, by simp⟩
  cases exec_ends ht with
  | wrote => exact inv_congr hn rfl ⟨rfl, rfl⟩
  | unmatched rd raw => exact inv_failWith (inv_congr (t := State.setReg rd raw _) hn rfl ⟨rfl, rfl⟩) nofun
  | phase => exact inv_failWith hn nofun
  | failed f _ _ hf => exact inv_failWith hn (by rcases hf with hf | hf | hf | hf <;> rw [hf] <;> exact nofun)
  | declared st hp hd =>
    exact ⟨hn.stickyClear, storeOk_of_declaredStore hwf h.storeOk hd, fun hr => by simp [hp] at hr⟩
  | began => exact ⟨hn.stickyClear, storeOk_empty, nofun⟩
  | committed _ _ he =>
    exact ⟨hn.stickyClear, hn.storeOk, fun _ => by simpa using ((firstError_eq_none_iff _).1 he).symm⟩
  | rejected => exact inv_failWith (s := State.setPhase .failed _) ⟨hn.stickyClear, hn.storeOk, nofun⟩ nofun
  | cleared => exact ⟨fun _ _ _ => BitVec.getLsbD_zero, hn.storeOk, hn.readyValid⟩

theorem runCommand_keeps_inv {w : Word} {s t : State} (h : Inv s) (ht : runCommand w s = .next t) : Inv t := by
  rw [runCommand] at ht
  split at ht
  · next hd => exact exec_keeps_inv (wf_of_decode hd) h ht
  · exact fail_next_iff.1 ht ▸ inv_failWith h nofun

/-! ## Host operations and steps -/

theorem hostOp_keeps_inv {op : HostOp} {s t : State} (h : Inv s) (ht : hostOp op s = .next t) : Inv t := by
  cases op with
  | cmd w =>
    rw [hostOp] at ht
    cases hr : runCommand w s with
    | next u =>
      rw [hr] at ht
      cases ht
      exact inv_congr (runCommand_keeps_inv h hr) rfl ⟨rfl, rfl⟩
    | fault | refused => rw [hr] at ht; cases ht
  | stickyClear v =>
    cases ht
    refine ⟨fun b hb hunused => ?_, h.storeOk, h.readyValid⟩
    exact (s.getLsbD_clearSticky v hb).trans (by rw [h.stickyClear b hb hunused]; rfl)
  | regRead n k => rw [hostOp_regRead] at ht; cases ht; exact inv_congr h rfl ⟨rfl, rfl⟩
  | regWrite | csrRead | ignoredWrite => cases ht; exact inv_congr h rfl ⟨rfl, rfl⟩

theorem hostEvent_keeps_inv {ev : HostEvent} {s t : State} (h : Inv s) (ht : hostEvent ev s = .next t) : Inv t := by
  cases ev with
  | reset => cases ht; exact inv_congr resetMeetsTheInvariant rfl ⟨rfl, rfl⟩
  | access a =>
    obtain ⟨op, -, hop⟩ := op_of_hostEvent_next ht
    exact hostOp_keeps_inv h hop

/-- Settles O55: with nothing waiting the state stands still; otherwise the oldest event keeps the invariant. -/
theorem everyStepKeepsTheInvariant : Obligations.EveryStepKeepsTheInvariant := by
  intro s t h ht
  rw [step] at ht
  split at ht
  · cases ht; exact h
  · next ev rest _ => exact hostEvent_keeps_inv (s := s.setPending rest) (inv_congr h rfl ⟨rfl, rfl⟩) ht

end Sys2Proof.Machine
end

section
/-! PROOFS. Where the accessors stop, and why no command stops under the invariant: a committed descriptor has a legal
KIND, and the bits of an exhaustive enum field always have a variant. -/

namespace Sys2Proof.Machine

open Sys2Proof.Safety

/-! ## The descriptors that stop FGET (log 10) -/

section
variable {s : State} (rd rs1 : Reg) {fid : FieldId} {idx : Fin 128}

theorem fget_reserved (h : MayGet s fid idx) (hk : Fdesc.kind s.store.ft[fid].desc = none) :
    exec (.fget rd rs1 fid idx) s = .fault .unvalidatedDescriptor := by
  show execFget rd rs1 fid idx s = _
  rw [execFget, admitAccess_get h, hk]
  rfl

/-- An exhaustive enum field whose bits are no declared discriminant. -/
theorem fget_gap (h : MayGet s fid idx) (hk : Fdesc.kind s.store.ft[fid].desc = some .enumExhaustive)
    (hf : (s.store.enumOf s.store.ft[fid].desc).find (fieldBits s.store.ft[fid].desc idx (s.reg rs1)) = none) :
    exec (.fget rd rs1 fid idx) s = .fault .unvalidatedDescriptor := by
  show execFget rd rs1 fid idx s = _
  rw [execFget, admitAccess_get h, hk]
  simp only [unlessFails_none, hf]

end

/-- Settles O32: a reserved KIND is no kind, and a gap is a lookup that finds nothing. -/
theorem unvalidatedDescriptorStopsTheModel : Obligations.UnvalidatedDescriptorStopsTheModel := by
  intro s rd rs1 rs2 fid idx d bits
  refine ⟨fun h hk => fget_reserved rd rs1 h ((Fdesc.kind_eq_none_iff d).2 hk), fun h hk hn => ?_,
    fun h hk => fset_reserved rd rs1 rs2 h ((Fdesc.kind_eq_none_iff d).2 hk)⟩
  have hbits : (fieldBits d idx (s.reg rs1)).toNat = bits := toNat_fieldBits ..
  rw [← hbits] at hn
  exact fget_gap rd rs1 h ((Fdesc.kind_eq_some_iff d .enumExhaustive).2 hk) ((noVariant_iff_find ..).1 hn)

/-! ## Commands that complete (45_schema.md R175) -/

/-- A guard completes: its failure is an ending too. -/
theorem unlessFails_completes {e : Option Failure} {s : State} {go : Result} (h : e = none → ∃ t, go = .next t) :
    ∃ t, unlessFails e s go = .next t := by
  cases e with
  | some f => exact ⟨_, rfl⟩
  | none => exact h rfl

/-- FGET completes in a state that meets the invariant: bits without a value are UNMATCHED in a partial enum. -/
theorem fget_completes {s : State} (hinv : Inv s) (rd rs1 : Reg) (fid : FieldId) (idx : Fin 128) :
    ∃ t, exec (.fget rd rs1 fid idx) s = .next t := by
  cases hadm : admitAccess .get Opcode.fget fid idx s with
  | some e => exact ⟨_, fget_refused hadm⟩
  | none =>
    have h : MayGet s fid idx := mayGet_iff_admitAccess.2 hadm
    obtain ⟨hs, -⟩ := hinv.readyValid h.1
    cases hv : fieldValue s.store s.store.ft[fid].desc (fieldBits s.store.ft[fid].desc idx (s.reg rs1)) with
    | some v => exact ⟨_, fget_value rd rs1 h hv⟩
    | none =>
      obtain ⟨hk, hf⟩ := partialEnum_of_fieldValue_eq_none hs (hs.fields fid h.2.1) (fieldBits_lt ..) hv
      exact ⟨_, fget_unmatched h ((Fdesc.kind_eq_some_iff _ .enumPartial).2 hk) hf⟩

/-- FSET completes in a state that meets the invariant: a value without a pattern is BADVAR in an enum. -/
theorem fset_completes {s : State} (hinv : Inv s) (rd rs1 rs2 : Reg) (fid : FieldId) (idx : Fin 128) :
    ∃ t, exec (.fset rd rs1 rs2 fid idx) s = .next t := by
  cases hadm : admitAccess .set Opcode.fset fid idx s with
  | some e => exact ⟨_, fset_refused hadm⟩
  | none =>
    have h : MaySet s fid idx := maySet_iff_admitAccess.2 hadm
    have hd := (hinv.readyValid h.1).1.fields fid h.2.1
    rcases Fdesc.kindBits_cases _ hd.kindLegal with hk | hk | hk | hk
    · exact ⟨_, fset_pattern rd rs1 rs2 h (fieldPattern_bool _ _ hk)⟩
    · exact ⟨_, fset_pattern rd rs1 rs2 h (fieldPattern_integer _ _ (.inl hk))⟩
    · exact ⟨_, fset_pattern rd rs1 rs2 h (fieldPattern_integer _ _ (.inr hk))⟩
    · rw [fset_enum h (Fdesc.kind_of_enum hk)]
      exact unlessFails_completes fun _ => ⟨_, rfl⟩

/-- Settles O57: only FGET and FSET have a path that stops, and the invariant excludes it. -/
theorem everyCommandCompletesUnderTheInvariant : Obligations.EveryCommandCompletesUnderTheInvariant := by
  intro i s hinv
  cases i with
  | mov | li | lic | mask | rmask | extr | ins | sext | wnorm | wcmp | sbegin | rdcsr | clrs => exact ⟨_, rfl⟩
  | cnew | cload | eenc | scont | sfield | senum | svar => exact unlessFails_completes fun _ => ⟨_, rfl⟩
  | fget rd rs1 fid idx => exact fget_completes hinv rd rs1 fid idx
  | fset rd rs1 rs2 fid idx => exact fset_completes hinv rd rs1 rs2 fid idx
  | edec rd rs1 eid =>
    refine unlessFails_completes fun _ => ?_
    split
    · exact ⟨_, rfl⟩
    · exact ⟨_, rfl⟩
  | scommit =>
    refine unlessFails_completes fun _ => ?_
    split
    · exact ⟨_, rfl⟩
    · exact ⟨_, rfl⟩

end Sys2Proof.Machine
end

section
/-! PROOFS. Data movement and the system commands: the chunk of LI and LIC bit by bit, the value condition of RDCSR, and
the CSRs by number. -/

namespace Sys2Proof

open Sys2Proof.Safety

/-! ## The words of RDCSR (30_encoding.md R74, R79) -/

theorem csrOfNat_of_le {n : Nat} (h : n ≤ 5) : csrOfNat n = some (csrNumbered n) := by
  interval_cases n <;> rfl

theorem csrOfNat_of_gt {n : Nat} (h : 5 < n) : csrOfNat n = none := by
  match n, h with
  | _ + 6, _ => rfl

theorem rdcsrOperands_of_le {w : Word} (h : field w 7 7 ≤ 5) :
    rdcsrOperands w = .ok (.rdcsr (fieldReg w 22) (csrNumbered (field w 7 7))) := by
  rw [rdcsrOperands, aOf, BitVec.val_toFin, ← field_eq_extract, csrOfNat_of_le h, rdOf_eq]

theorem rdcsrOperands_of_gt {w : Word} (h : 5 < field w 7 7) : rdcsrOperands w = .error .reservedCsr := by
  rw [rdcsrOperands, aOf, BitVec.val_toFin, ← field_eq_extract, csrOfNat_of_gt h]

/-- A row with a value condition encodes as `Encoded` says, when its operands are read exactly under the condition. -/
theorem encoded_checked {m k : Word} {op : BitVec 6} {cond : Word → Prop} {build : Word → Instr}
    {f : Word → Except Illegal Instr} (hm : opOf m = op)
    (hr : opcodeRows.find? (fun r => r.op == op) = some ⟨op, m, k, f⟩) (hok : ∀ w, cond w → f w = .ok (build w))
    (herr : ∀ w, ¬cond w → ∀ i, f w ≠ .ok i) : Encoded m k cond build := by
  intro w h
  have hd : decode w = if w &&& k = m then f w else .error .mustBeZero :=
    decode_of_row (r := ⟨op, m, k, f⟩) (by rw [opOf_of_field h, hm]; exact hr)
  refine ⟨fun hw => ?_, fun hw => ?_⟩
  · rw [hd, if_pos hw.1, hok w hw.2]
  · rw [hd]
    split
    · next hk => exact herr w fun hc => hw ⟨hk, hc⟩
    · exact nofun

end Sys2Proof

namespace Sys2Proof.Machine

open Sys2Proof.Safety

/-! ## The chunk of LI and LIC (46_move_system.md R181, R182) -/

section
variable (imm : BitVec 16) (pos : Fin 8) {j : Nat}

theorem getLsbD_shiftLeft_imm (hj : j < 128) :
    (imm.setWidth Config.dw <<< (16 * pos.val)).getLsbD j =
      if 16 * pos.val ≤ j ∧ j < 16 * pos.val + 16 then imm.getLsbD (j - 16 * pos.val) else false := by
  rw [BitVec.getLsbD_shiftLeft, BitVec.getLsbD_setWidth]
  split
  · next h =>
    have hin : j - 16 * pos.val < 128 := by omega
    simp [hj, hin, h.1]
  · next h =>
    -- Below the chunk the shift gives 0, above it the 16-bit value has no bit left.
    by_cases hlo : j < 16 * pos.val
    · simp [hlo]
    · rw [BitVec.getLsbD_of_ge imm _ (by omega), Bool.and_false, Bool.and_false]

theorem getLsbD_insert_imm (c : Data) (hj : j < 128) :
    (insert c (16 * pos.val) (16 * pos.val + 15) (imm.setWidth Config.dw)).getLsbD j =
      if 16 * pos.val ≤ j ∧ j < 16 * pos.val + 16 then imm.getLsbD (j - 16 * pos.val) else c.getLsbD j := by
  split
  · next h =>
    have hin : j - 16 * pos.val < 128 := by omega
    rw [getLsbD_insert_inside _ _ (by omega) hj, BitVec.getLsbD_setWidth, decide_eq_true hin, Bool.true_and]
  · exact getLsbD_insert_outside _ _ (by omega) hj (by omega)

end

/-! ## The claims -/

/-- Settles O16: the chunk shifted into a zero register, and the chunk inserted into `D[rd]`, bit by bit. -/
theorem liAndLicLoadSixteenBitChunks : Obligations.LiAndLicLoadSixteenBitChunks := by
  refine ⟨encoded_any (op := Opcode.li) (by decide) rfl fun w => ?_,
    encoded_any (op := Opcode.lic) (by decide) rfl fun w => ?_, fun s rd pos imm => ⟨?_, ?_⟩⟩
  · rw [rdOf_eq, posOf_eq, immOf_eq]
  · rw [rdOf_eq, posOf_eq, immOf_eq]
  · obtain ⟨t, ht, hwrote, hv⟩ := wroteReg_of_exec (.li rd pos imm) s [] rfl
    exact ⟨t, ht, hwrote, fun j hj => hv ▸ getLsbD_shiftLeft_imm imm pos hj⟩
  · obtain ⟨t, ht, hwrote, hv⟩ := wroteReg_of_exec (.lic rd pos imm) s [rd] rfl
    exact ⟨t, ht, hwrote, fun j hj => hv ▸ getLsbD_insert_imm imm pos (s.reg rd) hj⟩

/-- RDCSR writes the CSR's value in the state before the command, and reads no register. -/
theorem rdcsr_wroteReg (s : State) (rd : Reg) (c : Csr) {v : Nat} (hv : (s.csr c).toNat = v) :
    ∃ t, exec (.rdcsr rd c) s = .next t ∧ WroteReg s t rd [] ∧ (t.reg rd).toNat = v := by
  obtain ⟨t, ht, hwrote, hreg⟩ := wroteReg_of_exec (.rdcsr rd c) s [] rfl
  exact ⟨t, ht, hwrote, hreg ▸ hv⟩

/-- Settles O46: the value condition of its row, then the CSRs one by one. -/
theorem rdcsrReadsTheRegister : Obligations.RdcsrReadsTheRegister := by
  refine ⟨encoded_checked (op := Opcode.rdcsr) (by decide) rfl (fun _ => rdcsrOperands_of_le) (fun w h => ?_),
    fun s rd => ⟨rdcsr_wroteReg s rd .id rfl, rdcsr_wroteReg s rd .version rfl, rdcsr_wroteReg s rd .cap rfl,
      rdcsr_wroteReg s rd .status ?_, rdcsr_wroteReg s rd .sticky ?_, rdcsr_wroteReg s rd .errval rfl⟩⟩
  · rw [rdcsrOperands_of_gt (not_le.1 h)]
    exact nofun
  · exact (BitVec.toNat_setWidth_of_le (by decide : 32 ≤ 128)).trans s.status_toNat
  · exact BitVec.toNat_setWidth_of_le (by decide : 16 ≤ 128)

/-- Settles O15: the value written is the one `D[rs1]` held before. -/
theorem movCopiesTheRegister : Obligations.MovCopiesTheRegister := by
  refine ⟨encoded_any (op := Opcode.mov) (by decide) rfl fun w => ?_, fun s rd rs1 =>
    wroteReg_of_exec (.mov rd rs1) s [rs1] rfl⟩
  rw [rdOf_eq, rs1Of_eq]

/-- Settles O47: `clearOutcomes` and the completion with OK leave every other component alone. -/
theorem clrsClearsStickyAndErrval : Obligations.ClrsClearsStickyAndErrval :=
  ⟨encoded_any (op := Opcode.clrs) (by decide) rfl fun _ => rfl, fun s =>
    ⟨s.clearOutcomes.done, rfl, s.clearOutcomes.done_code, s.clearOutcomes_sticky, s.clearOutcomes_errval,
      ⟨s.clearOutcomes_regs, s.clearOutcomes_defined⟩, ⟨s.clearOutcomes_phase, s.clearOutcomes_store⟩,
      ⟨s.clearOutcomes_pending, s.clearOutcomes_response⟩, markAfter_nil s.clearOutcomes_uninit⟩⟩

end Sys2Proof.Machine
end

section
/-! PROOFS. The decoder against the encoder: a word that meets its row has the row's value in every must-be-zero field,
and each operand field packs back to itself, so the word is the encoding of what the row reads. -/

namespace Sys2Proof

/-! ## The fields of a word that meets its row (30_encoding.md R66 to R68, R74) -/

/-- A field that the mask covers has the match word's value. The two side conditions are about literal words. -/
theorem extract_of_meets {w m t : Word} {k n : Nat} {z : BitVec n} (h : w &&& m = t)
    (hm : m.extractLsb' k n = BitVec.allOnes n := by decide) (ht : t.extractLsb' k n = z := by decide) :
    w.extractLsb' k n = z := by
  rw [← ht, ← h, BitVec.extractLsb'_and, hm, BitVec.and_allOnes]

/-- A word is packed from the fields of format R (R66). -/
theorem packR_eq_of_fields {w : Word} {op : BitVec 6} {rd rs1 rs2 : Reg} {a b : BitVec 7}
    (hop : w.extractLsb' 26 6 = op) (hrd : w.extractLsb' 22 4 = BitVec.ofFin (w := 4) rd)
    (h1 : w.extractLsb' 18 4 = BitVec.ofFin (w := 4) rs1) (h2 : w.extractLsb' 14 4 = BitVec.ofFin (w := 4) rs2)
    (ha : w.extractLsb' 7 7 = a) (hb : w.extractLsb' 0 7 = b) : packR op rd rs1 rs2 a b = w := by
  rw [packR, ← hop, ← hrd, ← h1, ← h2, ← ha, ← hb]
  exact packR_of_fields w

/-- A word with Z = 0 is packed from the fields of format I (R67). -/
theorem packI_eq_of_fields {w : Word} {op : BitVec 6} (hop : w.extractLsb' 26 6 = op) (hz : w.extractLsb' 19 3 = 0#3) :
    packI op (rdOf w) (posOf w) (immOf w) = w := by
  rw [packI, ← hop, ← hz]
  apply BitVec.eq_of_getLsbD_eq
  intro i hi
  simp only [rdOf, posOf, immOf, BitVec.ofFin_toFin, BitVec.getLsbD_append, BitVec.getLsbD_extractLsb']
  interval_cases i <;> simp

/-! ## The operand fields pack back (R69 to R71) -/

section
variable (w : Word)

theorem extract_a_eq_widthField : w.extractLsb' 7 7 = widthField (widthOf w) := by
  rw [widthField, widthOf, Nat.add_sub_cancel]
  exact ((BitVec.ofNat_toNat ..).trans (BitVec.setWidth_eq _)).symm

theorem ofBool_getLsbD_eq_extractLsb' (k : Nat) : BitVec.ofBool (w.getLsbD k) = w.extractLsb' k 1 := by
  refine BitVec.eq_of_getLsbD_eq fun i hi => ?_
  obtain rfl : i = 0 := by omega
  simp

variable {w}

theorem extract_a_eq_fidField (h : w.extractLsb' 13 1 = 0#1) : w.extractLsb' 7 7 = fidField (fidOf w) := by
  rw [fidField, ← h]
  symm
  exact BitVec.extractLsb'_append_extractLsb'_eq_extractLsb' (start₁ := 7) (len₁ := 6) rfl

theorem extract_b_eq_eidField (h : w.extractLsb' 4 3 = 0#3) : w.extractLsb' 0 7 = eidField (eidOf w) := by
  rw [eidField, ← h]
  symm
  exact BitVec.extractLsb'_append_extractLsb'_eq_extractLsb' (start₁ := 0) (len₁ := 4) rfl

theorem extract_b_eq_signField (h : w.extractLsb' 1 6 = 0#6) : w.extractLsb' 0 7 = signField (signOf w) := by
  have hs : signField (signOf w) = 0#6 ++ BitVec.ofBool (w.getLsbD 0) := by
    rw [signOf]
    cases w.getLsbD 0 <;> rfl
  rw [hs, ofBool_getLsbD_eq_extractLsb', ← h]
  symm
  exact BitVec.extractLsb'_append_extractLsb'_eq_extractLsb' (start₁ := 0) (len₁ := 1) rfl

theorem extract_b_eq_enumField (h : w.extractLsb' 5 2 = 0#2) : w.extractLsb' 0 7 = enumField (eidOf w) (exhOf w) := by
  have hi : w.extractLsb' 5 2 ++ w.extractLsb' 4 1 = w.extractLsb' 4 3 :=
    BitVec.extractLsb'_append_extractLsb'_eq_extractLsb' rfl
  rw [enumField, exhOf, ofBool_getLsbD_eq_extractLsb', ← h, hi]
  symm
  exact BitVec.extractLsb'_append_extractLsb'_eq_extractLsb' (start₁ := 0) (len₁ := 4) rfl

theorem number_of_csrOfNat {n : Nat} {c : Csr} (h : csrOfNat n = some c) : n = c.number.toNat := by
  unfold csrOfNat at h
  split at h <;> cases h <;> rfl

theorem extract_a_eq_number {c : Csr} (h : csrOfNat (aOf w).val = some c) : w.extractLsb' 7 7 = c.number :=
  BitVec.eq_of_toNat_eq (number_of_csrOfNat h)

end

/-! ## The rows (R74) -/

/-- A word that meets the row is the encoding of the command the row reads from it. -/
def Row.Reencodes (r : Row) : Prop :=
  ∀ (w : Word) (i : Instr), w &&& r.mask = r.mtch → r.operands w = .ok i → encode i = w

/-- A row without a value condition (R74). -/
theorem reencodes_of_ok {op : BitVec 6} {t m : Word} {build : Word → Instr}
    (h : ∀ w, w &&& m = t → encode (build w) = w) : (⟨op, t, m, fun w => .ok (build w)⟩ : Row).Reencodes := by
  intro w i hm hi
  cases hi
  exact h w hm

/-- A row with a bit range (R79). -/
theorem reencodes_of_ranged {op : BitVec 6} {t m : Word} {mk : Word → Fin 128 → Fin 128 → Instr}
    (h : ∀ w, w &&& m = t → encode (mk w (aOf w) (bOf w)) = w) :
    (⟨op, t, m, fun w => ranged w (mk w)⟩ : Row).Reencodes := by
  intro w i hm hi
  simp only [ranged] at hi
  split at hi <;> cases hi
  exact h w hm

/-- The row of RDCSR (R79). -/
theorem reencodes_rdcsr : (⟨Opcode.rdcsr, 0xA0000000, 0xFC3FC07F, rdcsrOperands⟩ : Row).Reencodes := by
  intro w i (hm : w &&& 0xFC3FC07F = 0xA0000000) hi
  simp only [rdcsrOperands] at hi
  split at hi
  · next c hc =>
    cases hi
    exact packR_eq_of_fields (extract_of_meets hm) rfl (extract_of_meets hm) (extract_of_meets hm)
      (extract_a_eq_number hc) (extract_of_meets hm)
  · cases hi

/-- Every row, by its format: a field the mask covers is the match word's, any other field is an operand. -/
theorem reencodes_of_row : ∀ r ∈ opcodeRows, r.Reencodes := by
  simp only [opcodeRows, moveAndRangeRows, accessorRows, schemaAndSystemRows, List.forall_mem_append,
    List.forall_mem_cons, List.not_mem_nil, false_implies, implies_true, and_true]
  refine ⟨⟨⟨?mov, ?li, ?lic, ?mask, ?rmask, ?extr, ?ins, ?sext⟩,
    ?wnorm, ?wcmp, ?cnew, ?cload, ?fget, ?fset, ?edec, ?eenc⟩,
    ?sbegin, ?scont, ?sfield, ?senum, ?svar, ?scommit, reencodes_rdcsr, ?clrs⟩
  case li | lic => exact reencodes_of_ok fun w h => packI_eq_of_fields (extract_of_meets h) (extract_of_meets h)
  case mov | cload =>
    exact reencodes_of_ok fun w h => packR_eq_of_fields (extract_of_meets h) rfl rfl (extract_of_meets h)
      (extract_of_meets h) (extract_of_meets h)
  case mask =>
    exact reencodes_of_ok fun w h => packR_eq_of_fields (extract_of_meets h) rfl (extract_of_meets h)
      (extract_of_meets h) (extract_a_eq_widthField w) (extract_of_meets h)
  case rmask =>
    exact reencodes_of_ranged fun w h => packR_eq_of_fields (extract_of_meets h) rfl (extract_of_meets h)
      (extract_of_meets h) rfl rfl
  case extr =>
    exact reencodes_of_ranged fun w h => packR_eq_of_fields (extract_of_meets h) rfl rfl
      (extract_of_meets h) rfl rfl
  case ins =>
    exact reencodes_of_ranged fun w h => packR_eq_of_fields (extract_of_meets h) rfl rfl rfl rfl rfl
  case sext =>
    exact reencodes_of_ok fun w h => packR_eq_of_fields (extract_of_meets h) rfl rfl (extract_of_meets h)
      (extract_a_eq_widthField w) (extract_of_meets h)
  case wnorm =>
    exact reencodes_of_ok fun w h => packR_eq_of_fields (extract_of_meets h) rfl rfl (extract_of_meets h)
      (extract_a_eq_widthField w) (extract_b_eq_signField (extract_of_meets h))
  case wcmp =>
    exact reencodes_of_ok fun w h => packR_eq_of_fields (extract_of_meets h) rfl rfl rfl
      (extract_a_eq_widthField w) (extract_b_eq_signField (extract_of_meets h))
  case cnew =>
    exact reencodes_of_ok fun w h => packR_eq_of_fields (extract_of_meets h) rfl (extract_of_meets h)
      (extract_of_meets h) (extract_of_meets h) (extract_of_meets h)
  case fget =>
    exact reencodes_of_ok fun w h => packR_eq_of_fields (extract_of_meets h) rfl rfl (extract_of_meets h)
      (extract_a_eq_fidField (extract_of_meets h)) rfl
  case fset =>
    exact reencodes_of_ok fun w h => packR_eq_of_fields (extract_of_meets h) rfl rfl rfl
      (extract_a_eq_fidField (extract_of_meets h)) rfl
  case edec | eenc =>
    exact reencodes_of_ok fun w h => packR_eq_of_fields (extract_of_meets h) rfl rfl (extract_of_meets h)
      (extract_of_meets h) (extract_b_eq_eidField (extract_of_meets h))
  case sbegin | scommit | clrs =>
    exact reencodes_of_ok fun w h => packR_eq_of_fields (extract_of_meets h) (extract_of_meets h)
      (extract_of_meets h) (extract_of_meets h) (extract_of_meets h) (extract_of_meets h)
  case scont =>
    exact reencodes_of_ok fun w h => packR_eq_of_fields (extract_of_meets h) (extract_of_meets h) rfl
      (extract_of_meets h) (extract_a_eq_widthField w) (extract_of_meets h)
  case sfield =>
    exact reencodes_of_ok fun w h => packR_eq_of_fields (extract_of_meets h) (extract_of_meets h) rfl
      (extract_of_meets h) (extract_a_eq_fidField (extract_of_meets h)) (extract_of_meets h)
  case senum =>
    exact reencodes_of_ok fun w h => packR_eq_of_fields (extract_of_meets h) (extract_of_meets h)
      (extract_of_meets h) (extract_of_meets h) (extract_a_eq_widthField w)
      (extract_b_eq_enumField (extract_of_meets h))
  case svar =>
    exact reencodes_of_ok fun w h => packR_eq_of_fields (extract_of_meets h) (extract_of_meets h) rfl
      (extract_of_meets h) (extract_of_meets h) (extract_b_eq_eidField (extract_of_meets h))

/-! ## The claims -/

/-- Settles O1: the row of the command's opcode reads each packed field back. -/
theorem encodedCommandDecodesBack : Obligations.EncodedCommandDecodesBack := fun _ h => decode_encode h

/-- Settles O2: the word meets a row, and the row's operands are well formed and pack back to the word. -/
theorem decodedWordIsTheEncoding : Obligations.DecodedWordIsTheEncoding := by
  intro w i h
  obtain ⟨r, hr, hm, hi⟩ := row_of_decode h
  exact ⟨wf_of_decode h, reencodes_of_row r (List.mem_of_find?_eq_some hr) w i hm hi⟩

end Sys2Proof
end

section
/-! PROOFS. The completion update: how each ending of a command records its outcome, which outcomes a command can end
with, and where its mark stands. At the end, the words without a command and the steps without one. -/

namespace Sys2Proof.Machine

open Sys2Proof.Safety

/-! ## The completion update of an ending (60_exceptions.md R192) -/

theorem recorded_of_failWith {s n : State} {e : Failure} (he : e.code ≠ .ok) (hs : n.sticky = s.sticky) :
    (n.failWith e).code ≠ .ok ∧ Recorded s (n.failWith e) (n.failWith e).code (n.failWith e).errval.toNat :=
  ⟨he, recorded_failWith hs rfl⟩

/-- Every ending but that of CLRS has OK and leaves STICKY and ERRVAL alone, or records its failing outcome. -/
theorem Ends.recorded {i : Instr} {s n t : State} (h : Ends i s n t) (hi : i ≠ .clrs) :
    (t.code = .ok ∧ SameRecord n t) ∨ (t.code ≠ .ok ∧ Recorded n t t.code t.errval.toNat) := by
  cases h with
  | wrote | declared | began | committed => exact .inl ⟨rfl, rfl, rfl⟩
  | unmatched | phase | rejected => exact .inr (recorded_of_failWith nofun rfl)
  | failed f _ _ hf => exact .inr (recorded_of_failWith (by rcases hf with h | h | h | h <;> simp [h]) rfl)
  | cleared h => exact absurd h hi

/-- The same, from the state before the command: noting its reads records nothing. -/
theorem exec_recorded {i : Instr} {s t : State} (h : exec i s = .next t) (hi : i ≠ .clrs) :
    (t.code = .ok ∧ SameRecord s t) ∨ (t.code ≠ .ok ∧ Recorded s t t.code t.errval.toNat) := by
  simpa only [SameRecord, Recorded, State.noteReads_sticky, State.noteReads_errval] using (exec_ends h).recorded hi

/-- CLRS cannot fail (46_move_system.md R184). -/
theorem ne_clrs_of_fails {i : Instr} {s t : State} (h : exec i s = .next t) (hc : t.code ≠ .ok) : i ≠ .clrs := by
  rintro rfl
  obtain rfl : t = s.clearOutcomes.done := finish_next_iff.1 h
  exact hc rfl

/-- An ending reports OK or an outcome in the command's row of R196. -/
theorem Ends.code_mem_outcomes {i : Instr} {s n t : State} (h : Ends i s n t) : t.code = .ok ∨ t.code ∈ outcomes i := by
  cases h with
  | wrote | declared | began | committed | cleared => exact .inl rfl
  | unmatched _ _ _ ho | phase _ _ _ ho | failed _ _ ho => exact .inr ho
  | rejected _ hi => exact .inr (by simp [hi, outcomes])

/-- A command marks the first undefined register it reads, however it ends (60_exceptions.md R207; log 3). -/
theorem exec_markAfter {i : Instr} {s t : State} (h : exec i s = .next t) : MarkAfter s t (registersRead i) :=
  (exec_ends h).uninit_eq.trans (s.noteReads_mark (registersRead i))

/-! ## The claims -/

/-- Settles O49, ending by ending: the OK endings are excluded, and each failing one writes what R194 lets it write. -/
theorem failuresArePrecise : Obligations.FailuresArePrecise := by
  intro i s t h hc
  obtain ⟨hok, -⟩ | ⟨-, hrec⟩ := exec_recorded h (ne_clrs_of_fails h hc)
  · exact absurd hok hc
  · cases exec_ends h with
    | wrote | declared | began | committed | cleared => exact absurd rfl hc
    | unmatched rd raw hd =>
      obtain ⟨-, hwrote, -, hsame, hport, -⟩ := failedUnmatched s (registersRead i) rd raw
      exact ⟨fun hu => absurd rfl hu, fun _ => ⟨rd, hd, hwrote, by simp⟩, hsame.2, fun _ => hsame.1, nofun, hport,
        _, hrec⟩
    | phase p =>
      exact ⟨fun _ => ⟨by simp, by simp⟩, nofun, by simp, fun _ => by simp, nofun, ⟨by simp, by simp⟩, _, hrec⟩
    | failed f _ _ hf =>
      have hcode : f.code ≠ .unmatched ∧ f.code ≠ .schema := by rcases hf with h | h | h | h <;> simp [h]
      exact ⟨fun _ => ⟨by simp, by simp⟩, fun hu => absurd hu hcode.1, by simp, fun _ => by simp,
        fun hs => absurd hs hcode.2, ⟨by simp, by simp⟩, _, hrec⟩
    | rejected e hi =>
      exact ⟨fun _ => ⟨by simp, by simp⟩, nofun, by simp, fun hs => absurd rfl hs, fun _ => ⟨hi, rfl⟩,
        ⟨by simp, by simp⟩, _, hrec⟩

/-- Settles O50: the outcome from the ending, the mark from the noted reads. -/
theorem commandsReportTheirOutcomesAndReadTheirRegisters :
    Obligations.CommandsReportTheirOutcomesAndReadTheirRegisters := fun _ _ _ h =>
  ⟨(exec_ends h).code_mem_outcomes, exec_markAfter h⟩

/-- Settles O52: OK leaves the record as it was, a failure adds its own STICKY bit. -/
theorem stickyAccumulatesFailures : Obligations.StickyAccumulatesFailures := by
  intro i s t h hi
  obtain ⟨hok, hsame⟩ | ⟨hfail, -, hsticky, -⟩ := exec_recorded h hi
  · exact ⟨fun _ => hsame, fun b _ => by simp [hok, hsame.1], t.status_toNat⟩
  · exact ⟨fun hok => absurd hok hfail, fun b hb => by simp [hfail, hsticky b hb], t.status_toNat⟩

/-! ## Without a command: ILLEGAL words, idle and reset steps (60_exceptions.md R193, R206) -/

/-- Settles O5: such a word runs to ILLEGAL. -/
theorem undecodableWordFailsIllegal : Obligations.UndecodableWordFailsIllegal :=
  fun _ s h => runCommand_failedWith_illegal h s

/-- Settles O7: with an empty queue the step is the state itself, with a reset at its head the reset event. -/
theorem idleAndResetSteps : Obligations.IdleAndResetSteps :=
  fun _ _ => ⟨fun h => by rw [step, h], fun h => step_of_pending h⟩

end Sys2Proof.Machine
end

section
/-! PROOFS. The strict step: it stops exactly where `step` leaves the mark set, so each of its faults is read off the
mark that the step's host operation leaves. -/

namespace Sys2Proof.Machine

open Sys2Proof.Safety

section
variable {s t : State} {rest : List HostEvent} {n : Reg}

/-! ## The strict step from the step (60_exceptions.md R207; log 2) -/

theorem stepStrict_of_uninit (h : s.uninit = some n) : stepStrict s = .fault (.uninitRead n) := by
  rw [stepStrict, h]

theorem stepStrict_eq_faultIfMarked (h : s.uninit = none) : stepStrict s = faultIfMarked (step s) := by
  rw [stepStrict, h]

theorem stepStrict_of_marks (h : s.uninit = none) (hs : step s = .next t) (ht : t.uninit = some n) :
    stepStrict s = .fault (.uninitRead n) := by
  rw [stepStrict_eq_faultIfMarked h, hs, faultIfMarked, ht]

theorem stepStrict_of_clean (h : s.uninit = none) (hs : step s = .next t) (ht : t.uninit = none) :
    stepStrict s = .next t := by
  rw [stepStrict_eq_faultIfMarked h, hs, faultIfMarked, ht]

theorem stepStrict_of_fault {r : Fault} (h : s.uninit = none) (hs : step s = .fault r) : stepStrict s = .fault r := by
  rw [stepStrict_eq_faultIfMarked h, hs]
  rfl

/-! ## The marks that a step leaves -/

/-- A step that runs a word leaves the mark that the run leaves. -/
theorem step_of_runCommand_next {w : Word} (hp : s.pending = cmdWrite w :: rest)
    (hr : runCommand w (s.setPending rest) = .next t) : ∃ t', step s = .next t' ∧ t'.uninit = t.uninit :=
  ⟨t.respond (some t.status), by rw [step_of_pending_cmd rfl hp, hr]; rfl, rfl⟩

/-- Under the invariant a decoded command completes and marks the first undefined register it reads. -/
theorem step_decoded_next {w : Word} {i : Instr} (hinv : Inv s) (hu : s.uninit = none)
    (hp : s.pending = cmdWrite w :: rest) (hd : decode w = .ok i) :
    ∃ t, step s = .next t ∧ t.uninit = firstUndefined s (registersRead i) := by
  obtain ⟨t, ht⟩ := everyCommandCompletesUnderTheInvariant i (s.setPending rest) (inv_congr hinv rfl ⟨rfl, rfl⟩)
  obtain ⟨t', hs, hmark⟩ := step_of_runCommand_next hp ((runCommand_of_decode hd _).trans ht)
  have hafter : MarkAfter (s.setPending rest) t (registersRead i) := exec_markAfter ht
  rw [MarkAfter, State.setPending_uninit, hu, Option.none_or] at hafter
  exact ⟨t', hs, hmark.trans hafter⟩

/-- A word that does not decode reads no register, so it leaves the mark as it was. -/
theorem step_undecodable_next {w : Word} (hp : s.pending = cmdWrite w :: rest) (hd : ∀ i, decode w ≠ .ok i) :
    ∃ t, step s = .next t ∧ t.uninit = s.uninit :=
  step_of_runCommand_next (t := (s.setPending rest).failWith ⟨.illegal, w.setWidth Config.dw⟩) hp
    (runCommand_of_undecodable hd _)

/-- A read of word `k` of `Dn` (20_memory.md R54). -/
theorem HostAccess.op_read_word {addr : Nat} {k : Fin 4} (h : addr % 4096 = 0x100 + 16 * n.val + 4 * k.val) :
    (HostAccess.read addr 0xF).op = some (.regRead n k) := by
  rw [op_read_of_aligned (by omega), readOp, if_pos (inRegWindow_of_word h), regOfOffset_offsetOf h,
    wordOfOffset_offsetOf h]

/-- A host read of an undefined word marks its register. -/
theorem step_read_undefined_next {k : Fin 4} (hu : s.uninit = none)
    (hp : s.pending = .access (.read (0x100 + 16 * n.val + 4 * k.val) 0xF) :: rest)
    (hk : s.defined[n].getLsbD k.val = false) : ∃ t, step s = .next t ∧ t.uninit = some n := by
  have hn := Reg.val_lt n
  have hop := HostAccess.op_read_word (addr := 0x100 + 16 * n.val + 4 * k.val) (n := n) (k := k) (by omega)
  refine ⟨_, (step_of_pending_access hp hop).trans (hostOp_regRead n k _), ?_⟩
  rw [State.setPending_defined, hk, State.setPending_uninit, hu]
  rfl

end

/-! ## The claim -/

/-- Settles O53: each clause is the strict step at the mark, or the fault, of the step it describes. -/
theorem strictStepRaisesTheModelFaults : Obligations.StrictStepRaisesTheModelFaults := by
  intro s rest hinv
  refine ⟨fun n h => stepStrict_of_uninit h, fun hu => ⟨?_, ?_, ?_, ?_, ?_⟩⟩
  · intro w i n hp hd hn
    obtain ⟨t, hs, ht⟩ := step_decoded_next hinv hu hp hd
    exact stepStrict_of_marks hu hs (ht.trans hn)
  · intro w i hp hd hn
    obtain ⟨t, hs, ht⟩ := step_decoded_next hinv hu hp hd
    exact ⟨t, stepStrict_of_clean hu hs (ht.trans hn), hs⟩
  · intro w hp hd
    obtain ⟨t, hs, ht⟩ := step_undecodable_next hp hd
    exact ⟨t, stepStrict_of_clean hu hs (ht.trans hu)⟩
  · intro n k hp hk
    obtain ⟨t, hs, ht⟩ := step_read_undefined_next hu hp hk
    exact stepStrict_of_marks hu hs ht
  · intro addr lanes v h hp
    exact stepStrict_of_fault hu (misalignedOrNarrowAccessIsRefused s rest addr lanes v h hp)

end Sys2Proof.Machine
end
